-- ==== Sys2Proof/Word.lean ====
section
/-! DEFINITION. The word types of the block (spec/00_scope.md R10, R13; spec/30_encoding.md R81, R82). -/

namespace Sys2Proof

/-- `bits32` / `u32` of R13: a sample, a cursor, an index operand, the data of a response. -/
abbrev Word := BitVec 32

/-- A byte of a word as a platform outside the block may lay it out (R51); no operation of the block addresses one. -/
abbrev Byte := BitVec 8

/-- The 72-bit command word `CMD[71:0]` of R81. -/
abbrev Command := BitVec 72

end Sys2Proof
end

