-- ==== Sys2Proof/Config.lean ====
section
/-! DEFINITION. What is fixed for the machine: the two build parameters (R8, R9), the open parameters of the model
(R11) with their defaults, and the free values, which are opaque constants that no proof can evaluate. -/

namespace Sys2Proof.Config

/-- R8: the capacity `C` of the ring, a build constant. -/
abbrev C : Nat := 2048

/-- R9: the render quantum `Q`, a build constant. -/
abbrev Q : Nat := 128

/-- `MEM_ORDER` (R11, D13): sequential consistency (R60) or the acquire/release views of R63. -/
inductive MemOrder where
  | sc
  | ra
  deriving DecidableEq, Repr

/-- `SAMPLE_RESET` (R11, D10): what a sample slot holds after `construct` (R34). -/
inductive SampleReset where
  | zero
  | unspecified
  deriving DecidableEq, Repr

/-- `BYTE_ORDER` (R11, D18). The spec names `little`, the default; `big` is PRESUMED as the other value, see
notes/assumptions/17.md. No operation of the block depends on it (R51). -/
inductive ByteOrder where
  | little
  | big
  deriving DecidableEq, Repr

/-- The open parameters of R11. They do not change during a run (R32). -/
structure Params where
  /-- `MEM_ORDER` -/
  memOrder : MemOrder
  /-- `SAMPLE_TEARING` (D12): whether a sample write takes two steps (R58). -/
  sampleTearing : Bool
  /-- `SAMPLE_RESET` -/
  sampleReset : SampleReset
  /-- `BYTE_ORDER` -/
  byteOrder : ByteOrder
  deriving DecidableEq, Repr

/-- The values R11 takes by default. -/
def defaults : Params :=
  { memOrder := .sc, sampleTearing := false, sampleReset := .zero, byteOrder := .little }

/-- Free value: the `n`-th choice the model makes where the spec leaves one free and the state lists none (which agent
moves, R17; which visible store a load reads, R63; what a torn read returns, R58). See notes/assumptions/4.md. -/
opaque freeChoice : Nat → Nat

/-- Free value: what sample slot `k` holds after `construct` when `SAMPLE_RESET = unspecified` (R34, U12): one value a
slot, the same at every read until the slot is written. See notes/assumptions/7.md. -/
opaque sampleInit : Nat → Word

/-- Free value: what `OUT[k]` holds before any drain has written it (R35, U6). See notes/assumptions/5.md. -/
opaque outInit : Nat → Word

end Sys2Proof.Config
end

