-- ==== Sys2Proof/Syntax.lean ====
section
/-! DEFINITION. The commands of the block (spec/30_encoding.md R84; spec/opcode_table.json, one constructor a row), its
two ports (R80) and the three formats (R81). -/

namespace Sys2Proof

/-- R80: the P-port serves the Producer, the S-port the Scheduler. -/
inductive Port where
  | pPort
  | sPort
  deriving DecidableEq, Repr

/-- R81: which of the fields `index` and `data` a command uses. -/
inductive Format where
  | z
  | x
  | xd
  deriving DecidableEq, Repr

/-- The eight commands of R84. `index` and `data` are the whole fields `CMD[63:32]` and `CMD[31:0]` (R83); a field the
format does not use has no place here (R87). -/
inductive Instr where
  /-- `RCLD` (R112): atomic load of the read cursor. -/
  | rcld
  /-- `RCST index` (R113): atomic store of the read cursor. -/
  | rcst (index : Word)
  /-- `WCLD` (R114): atomic load of the write cursor. -/
  | wcld
  /-- `WCST index` (R115): atomic store of the write cursor. -/
  | wcst (index : Word)
  /-- `SLD index` (R116): plain read of one sample slot. -/
  | sld (index : Word)
  /-- `SST index, data` (R117): plain write of one sample slot. -/
  | sst (index : Word) (data : Word)
  /-- `DRAIN` (R140): the per-quantum drain step. -/
  | drain
  /-- `OUTLD index` (R148): read of one slot of the output buffer. -/
  | outld (index : Word)
  deriving DecidableEq, Repr

end Sys2Proof
end

