-- ==== Sys2Proof/WellFormed.lean ====
section
/-! DEFINITION. Which commands have a legal operand: the column "legal" of spec/opcode_table.json (R118, R148). A command
with an illegal operand still decodes and still has a meaning, the rejection of R16. -/

namespace Sys2Proof

/-- R118, R148: a slot index or a new cursor value is below `C`, an output index below `Q`; the commands of format `Z`
have no operand to check. -/
def Instr.wellFormed : Instr → Bool
  | .rcld => true
  | .rcst index => decide (index.toNat < Config.C)
  | .wcld => true
  | .wcst index => decide (index.toNat < Config.C)
  | .sld index => decide (index.toNat < Config.C)
  | .sst index _ => decide (index.toNat < Config.C)
  | .drain => true
  | .outld index => decide (index.toNat < Config.Q)

end Sys2Proof
end

