-- ==== Sys2Proof/Decode.lean ====
section
/-! DEFINITION. The decoder, total on every 72-bit command word and either port (spec/30_encoding.md R81 to R89), and
after it the encoder, written from the same table (R84). -/

namespace Sys2Proof

/-- Why the decoder rejects a command word; the block reports both alike (R182). -/
inductive DecodeError where
  /-- R86: `op` is not in the opcode map. -/
  | illegalOpcode (op : BitVec 8)
  /-- R85: `op` is admitted on the other port only. -/
  | wrongPort (op : BitVec 8)
  deriving DecidableEq, Repr

/-- What the decoder answers: a command, or a rejection by name. -/
inductive Decoded where
  | command (instr : Instr)
  | rejected (why : DecodeError)
  deriving DecidableEq, Repr

/-- `CMD[71:64]` (R81). -/
def Command.op (w : Command) : BitVec 8 := w.extractLsb' 64 8

/-- `CMD[63:32]` (R81, R83). -/
def Command.index (w : Command) : Word := w.extractLsb' 32 32

/-- `CMD[31:0]` (R81, R83). -/
def Command.data (w : Command) : Word := w.extractLsb' 0 32

/-- R85: the port that admits a command. -/
def Instr.port : Instr → Port
  | .rcld | .rcst _ | .wcld | .wcst _ | .sld _ | .sst _ _ => .pPort
  | .drain | .outld _ => .sPort

/-- R84, read from left to right: the command that `op` selects, with the fields its format uses (R83, R87). -/
def selectInstr (op index data : Nat) : Option Instr :=
  match op with
  | 0x01 => some .rcld
  | 0x02 => some (.rcst (BitVec.ofNat 32 index))
  | 0x03 => some .wcld
  | 0x04 => some (.wcst (BitVec.ofNat 32 index))
  | 0x05 => some (.sld (BitVec.ofNat 32 index))
  | 0x06 => some (.sst (BitVec.ofNat 32 index) (BitVec.ofNat 32 data))
  | 0x10 => some .drain
  | 0x11 => some (.outld (BitVec.ofNat 32 index))
  | _ => none

/-- R89: decode by `op` alone; reject what is not in the map (R86) or not admitted on the port (R85). -/
def decode (p : Port) (w : Command) : Decoded :=
  match selectInstr (Command.op w).toNat (Command.index w).toNat (Command.data w).toNat with
  | none => .rejected (.illegalOpcode (Command.op w))
  | some i => if i.port = p then .command i else .rejected (.wrongPort (Command.op w))

/-- R84: the column `op` of the opcode map. -/
def Instr.opcode : Instr → BitVec 8
  | .rcld => 0x01
  | .rcst _ => 0x02
  | .wcld => 0x03
  | .wcst _ => 0x04
  | .sld _ => 0x05
  | .sst _ _ => 0x06
  | .drain => 0x10
  | .outld _ => 0x11

/-- R84: the column `format` of the opcode map. -/
def Instr.format : Instr → Format
  | .rcld | .wcld | .drain => .z
  | .rcst _ | .wcst _ | .sld _ | .outld _ => .x
  | .sst _ _ => .xd

/-- The fields `index` and `data` of the command word; an unused field is written as zeros (R87). -/
def Instr.fields : Instr → Word × Word
  | .rcld | .wcld | .drain => (0, 0)
  | .rcst index | .wcst index | .sld index | .outld index => (index, 0)
  | .sst index data => (index, data)

/-- R81: the command word, `op` in bits 71:64, `index` in bits 63:32, `data` in bits 31:0. -/
def encode (i : Instr) : Command := i.opcode ++ i.fields.1 ++ i.fields.2

/-- The bits of a command word that the command's format uses; the decoder ignores the others (R81, R87). -/
def usedBits : Format → Command
  | .z => 0xFF0000000000000000
  | .x => 0xFFFFFFFFFF00000000
  | .xd => 0xFFFFFFFFFFFFFFFFFF

/-- The command of a table row's word, on whichever port admits it. The word is one 72-bit number, numbered as
spec/opcode_table.json numbers it; bits at or above `nbits` are zero. -/
def decodeTableWord (nbits w : Nat) : Option Instr :=
  let c : Command := BitVec.ofNat 72 (w % 2 ^ nbits)
  match decode .pPort c with
  | .command i => some i
  | .rejected _ =>
    match decode .sPort c with
    | .command i => some i
    | .rejected _ => none

end Sys2Proof
end

