-- ==== Sys2Proof/Machine/State.lean ====
section
/-! DEFINITION. The state as plain data: the whole state the spec gives the block (R20), the bookkeeping of its two open
parameters (R58, R63), and the moves of the agents outside it (R12, R32, R195), which the step reads from the state. -/

namespace Sys2Proof.Machine

/-- One address space of the block (R31) as a list of (word index, word) pairs. The smallest addressable unit is the
32-bit word (R31), so a cell is a word; `memWf` is its one canonical form. See notes/assumptions/1.md. -/
abbrev Memory := List (Nat × Word)

/-- `E.phase` (R28): the micro-step that comes next. -/
inductive Phase where
  | l
  | r
  | s
  deriving DecidableEq, Repr

/-- R25: the two cursors. -/
inductive Cursor where
  | rcur
  | wcur
  deriving DecidableEq, Repr

/-- R63: the two contexts, `Pctx` (all P-port commands) and `Cctx` (the S-port commands and the drain engine). -/
inductive Ctx where
  | producer
  | consumer
  deriving DecidableEq, Repr

/-- R12: the four agents that take steps. -/
inductive Agent where
  | producer
  | scheduler
  | engine
  | reset
  deriving DecidableEq, Repr

/-- The response word of R82: `ok` is `RSP[32]`, `data` is `RSP[31:0]`. -/
structure Response where
  ok : Bool
  data : Word
  deriving DecidableEq, Repr

/-- A view of R63: for each location a position in its history; a sample slot not listed stands at position 0. -/
structure View where
  rcur : Nat
  wcur : Nat
  sample : List (Nat × Nat)
  deriving DecidableEq, Repr

/-- All positions 0 (R63: "all 0 at reset"). -/
def View.start : View := { rcur := 0, wcur := 0, sample := [] }

/-- The history of one cursor (R63) but for the value of its newest entry, which is the register itself: the entries
before it, oldest first, each a value and its message, and the newest entry's message. -/
structure CursorHistory where
  older : List (Word × View)
  msg : View
  deriving DecidableEq, Repr

/-- The bookkeeping of `MEM_ORDER = ra` (R63): model bookkeeping and not block state (R54). Under `sc` it stays as it
starts. `sample` lists for a slot the values it held before the present one, oldest first; a slot not listed has held no
other. -/
structure RaState where
  rcur : CursorHistory
  wcur : CursorHistory
  sample : List (Nat × List Word)
  producerView : View
  consumerView : View
  deriving DecidableEq, Repr

/-- R63: every history holds its reset value alone, every view is at position 0. -/
def RaState.start : RaState :=
  { rcur := { older := [], msg := View.start }
    wcur := { older := [], msg := View.start }
    sample := []
    producerView := View.start
    consumerView := View.start }

/-- The machine's state. The first group is the parameters, the second the whole state of the block (R20), the third the
bookkeeping of the open parameters, the last the moves of the agents outside the block. -/
structure State where
  /-- The open parameters of R11, fixed for a run (R32). -/
  cfg : Config.Params
  /-- Whether `CONSTRUCT` has been performed (R201, R216). -/
  constructed : Bool
  /-- `SAMPLE[0..C-1]` (R21). -/
  sample : Memory
  /-- `RCUR` (R22). -/
  rcur : Word
  /-- `WCUR` (R23). -/
  wcur : Word
  /-- `OUT[0..Q-1]` (R29); a slot not listed has not been written since reset (R35). -/
  out : Memory
  /-- `E.busy` (R28). -/
  eBusy : Bool
  /-- `E.i` (R28), an integer `0..Q`. -/
  eI : Nat
  /-- `E.phase` (R28). -/
  ePhase : Phase
  /-- `E.idx` (R28). -/
  eIdx : Word
  /-- R58: slot and data of the `SST` that has begun and not ended; only when `SAMPLE_TEARING = true`. -/
  inflight : Option (Word × Word)
  /-- R63: histories and views. -/
  ordering : RaState
  /-- The commands the Producer goes on to issue on the P-port, next first (R80, R195). -/
  pIn : List Command
  /-- The commands the Scheduler goes on to issue on the S-port, next first (R80, R195). -/
  sIn : List Command
  /-- The responses returned on the P-port, newest first (R82). -/
  pOut : List Response
  /-- The responses returned on the S-port, newest first (R82). -/
  sOut : List Response
  /-- The order in which the agents go on to take their steps, next first (R17, R32). -/
  sched : List Agent
  /-- The free choices still to be made, next first (R32). -/
  choices : List Nat
  /-- How many free choices were made beyond `choices`: the argument of `Config.freeChoice`. -/
  drawn : Nat
  deriving DecidableEq, Repr

/-- Why a step stops with a fault. The block raises no exception of any kind (R180): both are raised by micro-step `R`
alone, in states that no run reaches (`Inv` rules them out), and both are safe. -/
inductive Fault where
  /-- Micro-step `R` with `E.idx >= C`: there is no such sample slot (R31, R141). Safe: the machine stops. -/
  | noSampleSlot
  /-- Micro-step `R` with `E.i >= Q`: there is no such output slot (R31, R141). Safe: the machine stops. -/
  | noOutSlot
  deriving DecidableEq, Repr

/-- Why a step has no meaning in this model. -/
inductive Refusal where
  /-- An arm of `exec` that has no meaning yet; none is left. Safe: the machine stops. -/
  | notModelled (mnemonic : String)
  /-- A step of any agent but Reset before `CONSTRUCT` (R111: "it happens once, before any command"). Safe. -/
  | notConstructed
  /-- A second reset (R201: "a model refuses such a run"; U9). Safe. -/
  | secondReset
  /-- A command performed on a port whose last command has not responded (R80, R151: "this spec gives a second
  overlapping invocation no meaning"). The step never issues one. Safe. -/
  | portBusy (port : Port)
  deriving DecidableEq, Repr

/-- The machine right after `CONSTRUCT` with the parameters `cfg` (R33 to R37, R111): both cursors 0, every sample slot at
its reset value (nothing listed), no output slot written, the engine idle, both ports idle. `E.i`, `E.phase` and `E.idx`
are unspecified (R36); 0, `L` and 0 are a DESIGN CHOICE, notes/assumptions/6.md. -/
def State.resetWith (cfg : Config.Params) : State :=
  { cfg := cfg
    constructed := true
    sample := []
    rcur := 0
    wcur := 0
    out := []
    eBusy := false
    eI := 0
    ePhase := .l
    eIdx := 0
    inflight := none
    ordering := RaState.start
    pIn := []
    sIn := []
    pOut := []
    sOut := []
    sched := []
    choices := []
    drawn := 0 }

/-- The machine right after reset, the open parameters at their defaults (R11). -/
def State.reset : State := State.resetWith Config.defaults

end Sys2Proof.Machine
end

