-- ==== Sys2Proof/Machine/Flags.lean ====
section
/-! DEFINITION. The conditions the block computes. It has no flags, condition codes or predicates (R26), and its one
comparison is the unsigned range test (R121); the occupancy estimate of R193 is computed outside it. -/

namespace Sys2Proof.Machine

/-- R118, R121: the range test `index >= bound`, an unsigned comparison. -/
def outOfRange (index : Word) (bound : Nat) : Bool := decide (bound ≤ index.toNat)

/-- R82: the response word `RSP[32:0]`, `ok` in bit 32. -/
def Response.word (r : Response) : BitVec 33 := BitVec.ofBool r.ok ++ r.data

/-- R82: a command that is performed. -/
def performed (data : Word) : Response := { ok := true, data := data }

/-- R16, R82: a command that is rejected. -/
def rejected : Response := { ok := false, data := 0 }

/-- R146: the "keep running" signal, the constant true, as the word 1 (R30). -/
def keepRunning : Response := performed 1

/-- R193: the occupancy estimate an agent on the P-port can compute from a loaded `WCUR` and a loaded `RCUR`. No operation
of the block uses it. -/
def occupancyEstimate (w r : Word) : Nat := (w.toNat + Config.C - r.toNat) % Config.C

end Sys2Proof.Machine
end

