-- ==== Sys2Proof/Machine/Operands.lean ====
section
/-! DEFINITION. Operand forms and the one piece of arithmetic (R119, R124), and the two layouts the spec gives for reading
a word outside the block: its bytes (R51) and its binary32 fields (R123). -/

namespace Sys2Proof.Machine

/-- R119: the advance `next(v) = (v + 1) mod C`, the sum in the integers. -/
def nextIndex (v : Word) : Word := BitVec.ofNat 32 ((v.toNat + 1) % Config.C)

/-- R124: the sample slot an index names, the field itself taken as a word index; none where there is no such slot. -/
def sampleSlot? (index : Word) : Option Nat :=
  if outOfRange index Config.C then none else some index.toNat

/-- R124, R148: the output slot an index names; none where there is no such slot. -/
def outSlot? (index : Word) : Option Nat :=
  if outOfRange index Config.Q then none else some index.toNat

/-- R51: the four bytes of a word by rising address, as a platform lays them out; under `little` byte 0 is bits 7:0. -/
def platformBytes (order : Config.ByteOrder) (v : Word) : List Byte :=
  let low := [v.extractLsb' 0 8, v.extractLsb' 8 8, v.extractLsb' 16 8, v.extractLsb' 24 8]
  match order with
  | .little => low
  | .big => low.reverse

/-- R51: the word four bytes by rising address stand for; none for another number of bytes. -/
def platformWord (order : Config.ByteOrder) (bytes : List Byte) : Option Word :=
  match order, bytes with
  | .little, [b0, b1, b2, b3] => some (b3 ++ b2 ++ b1 ++ b0)
  | .big, [b0, b1, b2, b3] => some (b0 ++ b1 ++ b2 ++ b3)
  | _, _ => none

/-- R123: the sign, bit 31. -/
def binary32Sign (v : Word) : BitVec 1 := v.extractLsb' 31 1

/-- R123: the exponent biased by 127, bits 30:23. -/
def binary32Exponent (v : Word) : BitVec 8 := v.extractLsb' 23 8

/-- R123: the fraction, bits 22:0. -/
def binary32Fraction (v : Word) : BitVec 23 := v.extractLsb' 0 23

/-- The integer nearest to `n / d`, a tie going to the even one (93_implementation_defined.md K2). -/
def roundNearest (n d : Nat) : Nat :=
  let q := n / d
  let r := n % d
  if 2 * r < d ∨ (2 * r = d ∧ q % 2 = 0) then q else q + 1

/-- R91, K2, K3: the binary32 word nearest to `digits / 10 ^ scale`, negated if `neg`: the word a float literal of the
assembler stands for. `x` is `126 + floor (log2 value)` where the result is normal and 0 where it is not, and the rounded
significand carries into the exponent. PRESUMED, notes/assumptions/20.md. No operation of the block uses it (R122). -/
def binary32OfDecimal (neg : Bool) (digits scale : Nat) : Word :=
  let d := 10 ^ scale
  let scaled := digits * 2 ^ 126
  let x := (scaled / d).log2
  let magnitude := x * 2 ^ 23 + roundNearest (digits * 2 ^ 149) (d * 2 ^ x)
  BitVec.ofBool neg ++ BitVec.ofNat 31 (min magnitude 0x7F800000)

end Sys2Proof.Machine
end

