-- ==== Sys2Proof/Machine/Mem.lean ====
section
/-! DEFINITION. Sparse data by a Nat key in one canonical form: keys strictly rising and below a bound, and no entry equal
to the erased value, which is what a key not listed stands for. `erased` is `none` where a key not listed stands for no
known value; then nothing is ever erased. -/

namespace Sys2Proof.Machine

/-- The entry of key `k`, if one is listed. -/
def memGet? {α : Type} (k : Nat) : List (Nat × α) → Option α
  | [] => none
  | (j, v) :: m => if j = k then some v else memGet? k m

/-- The entry of key `k` becomes `v`, in its place by rising key. -/
def memInsert {α : Type} (k : Nat) (v : α) : List (Nat × α) → List (Nat × α)
  | [] => [(k, v)]
  | (j, u) :: m =>
    if k < j then (k, v) :: (j, u) :: m
    else if k = j then (k, v) :: m
    else (j, u) :: memInsert k v m

/-- Key `k` is no longer listed. -/
def memErase {α : Type} (k : Nat) : List (Nat × α) → List (Nat × α)
  | [] => []
  | (j, u) :: m => if k = j then m else (j, u) :: memErase k m

/-- The write of one cell, keeping the canonical form: writing the erased value removes the entry. -/
def memSet {α : Type} [DecidableEq α] (erased : Option α) (k : Nat) (v : α) (m : List (Nat × α)) : List (Nat × α) :=
  if some v = erased then memErase k m else memInsert k v m

/-- The canonical form: keys strictly rising and below `bound`, no entry equal to the erased value. -/
def memWf {α : Type} [DecidableEq α] (erased : Option α) (bound : Nat) : List (Nat × α) → Bool
  | [] => true
  | (k, v) :: m =>
    decide (k < bound) && decide (some v ≠ erased) && m.all (fun e => decide (k < e.1)) && memWf erased bound m

end Sys2Proof.Machine
end

