-- ==== Sys2Proof/Machine/Views.lean ====
section
/-! DEFINITION. Histories and views of the acquire/release model (R63). -/

namespace Sys2Proof.Machine

/-- The position of a view for a cursor. -/
def View.cursor (v : View) : Cursor → Nat
  | .rcur => v.rcur
  | .wcur => v.wcur

/-- The view with a cursor's position replaced. -/
def View.setCursor (v : View) (r : Cursor) (j : Nat) : View :=
  match r with
  | .rcur => { v with rcur := j }
  | .wcur => { v with wcur := j }

/-- The position of a view for sample slot `k`. -/
def View.slot (v : View) (k : Nat) : Nat := (memGet? k v.sample).getD 0

/-- The view with sample slot `k`'s position replaced. -/
def View.setSlot (v : View) (k j : Nat) : View := { v with sample := memSet (some 0) k j v.sample }

/-- Raise every listed position of `m` to at least the one listed in `msg`. -/
def raiseSlots (msg m : List (Nat × Nat)) : List (Nat × Nat) :=
  match msg with
  | [] => m
  | (k, j) :: rest => raiseSlots rest (memSet (some 0) k (max ((memGet? k m).getD 0) j) m)

/-- R63: "raises every `V[a][y]` to at least `H[x][j].msg[y]`". -/
def View.raise (v msg : View) : View :=
  { rcur := max v.rcur msg.rcur
    wcur := max v.wcur msg.wcur
    sample := raiseSlots msg.sample v.sample }

/-- `V[a]` (R63). -/
def RaState.view (o : RaState) : Ctx → View
  | .producer => o.producerView
  | .consumer => o.consumerView

/-- `V[a]` replaced. -/
def RaState.setView (o : RaState) (a : Ctx) (v : View) : RaState :=
  match a with
  | .producer => { o with producerView := v }
  | .consumer => { o with consumerView := v }

/-- A cursor's history (R63), but for its newest value. -/
def RaState.history (o : RaState) : Cursor → CursorHistory
  | .rcur => o.rcur
  | .wcur => o.wcur

/-- A cursor's history replaced. -/
def RaState.setHistory (o : RaState) (r : Cursor) (h : CursorHistory) : RaState :=
  match r with
  | .rcur => { o with rcur := h }
  | .wcur => { o with wcur := h }

/-- The values sample slot `k` held before its present one, oldest first. -/
def RaState.olderSamples (o : RaState) (k : Nat) : List Word := (memGet? k o.sample).getD []

/-- `last(H[x])` of a cursor: the position of its newest entry. -/
def CursorHistory.last (h : CursorHistory) : Nat := h.older.length

/-- `H[x][j]` of a cursor whose register holds `cell`: an older entry, or the newest, whose value is the register's. -/
def CursorHistory.entry (h : CursorHistory) (cell : Word) (j : Nat) : Word × View :=
  match h.older[j]? with
  | some e => e
  | none => (cell, h.msg)

/-- `H[x][j].value` of a sample slot whose storage cell holds `cell`. -/
def sampleEntry (older : List Word) (cell : Word) (j : Nat) : Word := (older[j]?).getD cell

end Sys2Proof.Machine
end

