-- ==== Sys2Proof/Machine/Ops.lean ====
section
/-! DEFINITION. The shared operations over registers and memory (R15), the free choices (R32), the responses (R16) and the
admission of a command to its port (R80). The block raises no exception and there is no trap, no vector and no return
(R180, R185), so there is no operation that takes one. -/

namespace Sys2Proof.Machine

/-- What a step or a meaning answers. -/
abbrev Result := Host.Outcome State Fault Refusal

/-! ### Free choices -/

/-- One free choice (R32): the next one listed in the state, or the next free value of Config. -/
def draw (s : State) : Nat × State :=
  match s.choices with
  | n :: rest => (n, { s with choices := rest })
  | [] => (Config.freeChoice s.drawn, { s with drawn := s.drawn + 1 })

/-- A free choice of a number from `lo` to `hi`; nothing is drawn where there is one candidate. -/
def drawBetween (lo hi : Nat) (s : State) : Nat × State :=
  if lo < hi then
    let (n, s') := draw s
    (lo + n % (hi - lo + 1), s')
  else (lo, s)

/-! ### Responses and ports -/

/-- `respond` of R16: one response to the port. -/
def respond (p : Port) (r : Response) (s : State) : State :=
  match p with
  | .pPort => { s with pOut := r :: s.pOut }
  | .sPort => { s with sOut := r :: s.sOut }

/-- `reject` of R16: `respond(0, 0x00000000)` with no state changed. -/
def reject (p : Port) (s : State) : State := respond p rejected s

/-- R80: a command of the port has been accepted and has not responded. On the S-port that is a drain (R140), on the
P-port an `SST` between its two steps (R58); every other command responds in the step that accepts it (R110). -/
def State.portBusy (s : State) : Port → Bool
  | .pPort => s.inflight.isSome
  | .sPort => s.eBusy

/-- The port can accept a command: `CONSTRUCT` is done (R195) and no command of the port is in flight (R80). -/
def State.accepts (s : State) (p : Port) : Bool := s.constructed && !s.portBusy p

/-- Perform a command on a port that accepts one; elsewhere the spec gives the command no meaning (R80, R111, R151). -/
def onPort (p : Port) (s : State) (k : Result) : Result :=
  if s.constructed = false then .refused .notConstructed
  else if s.portBusy p then .refused (.portBusy p)
  else k

/-! ### Cursors -/

/-- The storage cell of a cursor. -/
def State.cursor (s : State) : Cursor → Word
  | .rcur => s.rcur
  | .wcur => s.wcur

/-- All 32 bits of a cursor's storage cell replaced. -/
def State.setCursor (s : State) (r : Cursor) (v : Word) : State :=
  match r with
  | .rcur => { s with rcur := v }
  | .wcur => { s with wcur := v }

/-- `AtomicLoad(r)` of R15 by context `a`: under `sc` the cell (R60), under `ra` a visible entry of the history (R63). -/
def atomicLoad (a : Ctx) (r : Cursor) (s : State) : Word × State :=
  match s.cfg.memOrder with
  | .sc => (s.cursor r, s)
  | .ra =>
    let h := s.ordering.history r
    let v := s.ordering.view a
    let (j, s') := drawBetween (v.cursor r) h.last s
    let e := h.entry (s.cursor r) j
    (e.1, { s' with ordering := s.ordering.setView a ((v.setCursor r j).raise e.2) })

/-- The bookkeeping of a cursor store under `ra` (R63): one entry more, the storing context's view at it, and the entry's
message a copy of that view. DESIGN CHOICE between R63 and R65: the message is the storing context's own view alone, as R63
has it, so a load that reads a later store of the cursor by the other context does not acquire what the earlier store
released, though R65 says "that store or a later one". See notes/assumptions/23.md. -/
def cursorStoreOrdering (a : Ctx) (r : Cursor) (cell : Word) (o : RaState) : RaState :=
  let h := o.history r
  let v := (o.view a).setCursor r (h.last + 1)
  (o.setHistory r { older := h.older ++ [(cell, h.msg)], msg := v }).setView a v

/-- `AtomicStore(r, v)` of R15 by context `a` (R60, R63). -/
def atomicStore (a : Ctx) (r : Cursor) (v : Word) (s : State) : State :=
  match s.cfg.memOrder with
  | .sc => s.setCursor r v
  | .ra => { s.setCursor r v with ordering := cursorStoreOrdering a r (s.cursor r) s.ordering }

/-! ### The sample array -/

/-- R34: the value that a sample slot not listed holds, where it is a known one. -/
def sampleErased (cfg : Config.Params) : Option Word :=
  match cfg.sampleReset with
  | .zero => some 0
  | .unspecified => none

/-- R34: what sample slot `k` holds after `CONSTRUCT`, and so what a slot not listed reads as. -/
def sampleResetValue (cfg : Config.Params) (k : Nat) : Word :=
  match cfg.sampleReset with
  | .zero => 0
  | .unspecified => Config.sampleInit k

/-- The storage cell of sample slot `k`. -/
def State.sampleCell (s : State) (k : Nat) : Word := (memGet? k s.sample).getD (sampleResetValue s.cfg k)

/-- R58: slot `k` is marked in flight. -/
def State.marked (s : State) (k : Nat) : Bool :=
  match s.inflight with
  | some (slot, _) => decide (slot.toNat = k)
  | none => false

/-- `MemRead(SAMPLE, k, 4)` of R15 by context `a`: of a marked slot any word (R58; the view stays, DESIGN CHOICE,
notes/assumptions/10.md); else under `sc` the cell (R60), under `ra` a visible entry of the history (R63). -/
def sampleRead (a : Ctx) (k : Nat) (s : State) : Word × State :=
  if s.marked k then
    let (n, s') := draw s
    (BitVec.ofNat 32 n, s')
  else
    match s.cfg.memOrder with
    | .sc => (s.sampleCell k, s)
    | .ra =>
      let older := s.ordering.olderSamples k
      let v := s.ordering.view a
      let (j, s') := drawBetween (v.slot k) older.length s
      (sampleEntry older (s.sampleCell k) j, { s' with ordering := s.ordering.setView a (v.setSlot k j) })

/-- The bookkeeping of a sample store under `ra` (R63): one entry more, with the empty message, and the storing context's
view at it. -/
def sampleStoreOrdering (a : Ctx) (k : Nat) (cell : Word) (o : RaState) : RaState :=
  let older := o.olderSamples k
  { o with sample := memSet (some []) k (older ++ [cell]) o.sample }.setView a ((o.view a).setSlot k (older.length + 1))

/-- `MemWrite(SAMPLE, k, 4, v)` of R15 by context `a` (R60, R63). -/
def sampleWrite (a : Ctx) (k : Nat) (v : Word) (s : State) : State :=
  let s' := { s with sample := memSet (sampleErased s.cfg) k v s.sample }
  match s.cfg.memOrder with
  | .sc => s'
  | .ra => { s' with ordering := sampleStoreOrdering a k (s.sampleCell k) s.ordering }

/-! ### The output buffer -/

/-- `MemRead(OUT, k, 4)` of R15: a slot no drain has written since reset reads as a free value (R35). -/
def State.outCell (s : State) (k : Nat) : Word := (memGet? k s.out).getD (Config.outInit k)

/-- `MemWrite(OUT, k, 4, v)` of R15. -/
def outWrite (k : Nat) (v : Word) (s : State) : State := { s with out := memSet none k v s.out }

end Sys2Proof.Machine
end

