-- ==== Sys2Proof/Machine/Construct.lean ====
section
/-! DEFINITION. The reset input (R80, R90, R111). -/

namespace Sys2Proof.Machine

/-- `CONSTRUCT` (R111): the reset state of R33 to R36. `E.i`, `E.phase` and `E.idx` keep whatever they hold, since they are
unspecified (R36); no output slot counts as written (R35); both ports are idle (R37). -/
def construct (s : State) : State :=
  { s with
    constructed := true
    rcur := 0
    wcur := 0
    sample := []
    out := []
    eBusy := false
    inflight := none
    ordering := RaState.start }

end Sys2Proof.Machine
end

