-- ==== Sys2Proof/Machine/Drain.lean ====
section
/-! DEFINITION. The meanings of the two S-port commands and the drain engine (spec/41_consumer_drain.md). -/

namespace Sys2Proof.Machine

/-- `DRAIN` (R140): accepting it starts the engine; the response comes with the engine's last micro-step (R141). -/
def execDrain (s : State) : Result :=
  onPort .sPort s (.next { s with eBusy := true, eI := 0, ePhase := .l })

/-- `OUTLD` (R148). -/
def execOutld (index : Word) (s : State) : Result :=
  onPort .sPort s
    (match outSlot? index with
     | none => .next (reject .sPort s)
     | some k => .next (respond .sPort (performed (s.outCell k)) s))

/-- Micro-step `L` (R141). -/
def microL (s : State) : State :=
  let (v, s') := atomicLoad .consumer .rcur s
  { s' with eIdx := v, ePhase := .r }

/-- Micro-step `R` (R141): the sample read and the output write in one step. -/
def microR (s : State) : Result :=
  match sampleSlot? s.eIdx with
  | none => .fault .noSampleSlot
  | some k =>
    if Config.Q ≤ s.eI then .fault .noOutSlot
    else
      let (v, s') := sampleRead .consumer k s
      .next { outWrite s.eI v s' with ePhase := .s }

/-- Micro-step `S` (R141): the advance from the latched index (R28), and the back edge or the exit (R142). -/
def microS (s : State) : State :=
  let s' := { atomicStore .consumer .rcur (nextIndex s.eIdx) s with eI := s.eI + 1 }
  if s.eI + 1 = Config.Q then respond .sPort keepRunning { s' with eBusy := false }
  else { s' with ePhase := .l }

/-- The engine's next micro-step: the one `E.phase` names (R141). -/
def microStep (s : State) : Result :=
  match s.ePhase with
  | .l => .next (microL s)
  | .r => microR s
  | .s => .next (microS s)

end Sys2Proof.Machine
end

