-- ==== Sys2Proof/Machine/Primitives.lean ====
section
/-! DEFINITION. The meanings of the six P-port commands (spec/40_ring_buffer_primitives.md). -/

namespace Sys2Proof.Machine

/-- `RCLD` (R112). -/
def execRcld (s : State) : Result :=
  onPort .pPort s
    (let (v, s') := atomicLoad .producer .rcur s
     .next (respond .pPort (performed v) s'))

/-- `RCST` (R113, R118). -/
def execRcst (index : Word) (s : State) : Result :=
  onPort .pPort s
    (if outOfRange index Config.C then .next (reject .pPort s)
     else .next (respond .pPort (performed 0) (atomicStore .producer .rcur index s)))

/-- `WCLD` (R114). -/
def execWcld (s : State) : Result :=
  onPort .pPort s
    (let (v, s') := atomicLoad .producer .wcur s
     .next (respond .pPort (performed v) s'))

/-- `WCST` (R115, R118). -/
def execWcst (index : Word) (s : State) : Result :=
  onPort .pPort s
    (if outOfRange index Config.C then .next (reject .pPort s)
     else .next (respond .pPort (performed 0) (atomicStore .producer .wcur index s)))

/-- `SLD` (R116, R118). -/
def execSld (index : Word) (s : State) : Result :=
  onPort .pPort s
    (match sampleSlot? index with
     | none => .next (reject .pPort s)
     | some k =>
       let (v, s') := sampleRead .producer k s
       .next (respond .pPort (performed v) s'))

/-- The write and the response of an `SST` (R117): its one step, or its step `end` (R58). -/
def storeSample (k : Nat) (data : Word) (s : State) : State :=
  respond .pPort (performed 0) (sampleWrite .producer k data s)

/-- `SST` (R117, R118). With `SAMPLE_TEARING = true` this is the step `begin`, which marks the slot (R58). -/
def execSst (index data : Word) (s : State) : Result :=
  onPort .pPort s
    (match sampleSlot? index with
     | none => .next (reject .pPort s)
     | some k =>
       if s.cfg.sampleTearing then .next { s with inflight := some (index, data) }
       else .next (storeSample k data s))

/-- The step `end` of an `SST` in flight (R58): it performs the write, clears the mark and responds. -/
def endSst (index data : Word) (s : State) : State :=
  storeSample index.toNat data { s with inflight := none }

end Sys2Proof.Machine
end

