-- ==== Sys2Proof/Machine/Dispatch.lean ====
section
/-! DEFINITION. The meaning of every command, one arm a constructor. -/

namespace Sys2Proof.Machine

def exec (i : Instr) (s : State) : Host.Outcome State Fault Refusal :=
  match i with
  | .rcld => Sys2Proof.Machine.execRcld s
  | .rcst index => Sys2Proof.Machine.execRcst index s
  | .wcld => Sys2Proof.Machine.execWcld s
  | .wcst index => Sys2Proof.Machine.execWcst index s
  | .sld index => Sys2Proof.Machine.execSld index s
  | .sst index data => Sys2Proof.Machine.execSst index data s
  | .drain => Sys2Proof.Machine.execDrain s
  | .outld index => Sys2Proof.Machine.execOutld index s

end Sys2Proof.Machine
end

