-- ==== Sys2Proof/Machine/Agents.lean ====
section
/-! DEFINITION. The turns of the four agents (R12) and which agent moves next (R17). A command comes from a port, never
from a memory of the block (R27, R66); a program runs as the commands a state lists for its two ports, and the
environment can list more of them between any two steps (R195). -/

namespace Sys2Proof.Machine

/-- A command word accepted on a port: decoded (R89), then performed or rejected (R86). -/
def issue (p : Port) (w : Command) (s : State) : Result :=
  match decode p w with
  | .rejected _ => .next (reject p s)
  | .command i => exec i s

/-- The Producer's turn: the step `end` of its `SST` in flight (R58), else the next command it issues (R80); with nothing
to issue it lets the turn pass. -/
def producerTurn (s : State) : Result :=
  match s.inflight with
  | some (index, data) => .next (endSst index data s)
  | none =>
    match s.pIn with
    | [] => .next s
    | w :: rest => issue .pPort w { s with pIn := rest }

/-- The Scheduler's turn: the next command it issues, unless a drain is in progress (R80, R151). -/
def schedulerTurn (s : State) : Result :=
  if s.eBusy then .next s
  else
    match s.sIn with
    | [] => .next s
    | w :: rest => issue .sPort w { s with sIn := rest }

/-- The drain engine's turn: its next micro-step, enabled exactly when `E.busy = 1` (R141). -/
def engineTurn (s : State) : Result :=
  if s.eBusy then microStep s else .next s

/-- One agent's turn. A run begins with `CONSTRUCT` (R216), which happens once (R201). -/
def turn (a : Agent) (s : State) : Result :=
  if s.constructed then
    match a with
    | .producer => producerTurn s
    | .scheduler => schedulerTurn s
    | .engine => engineTurn s
    | .reset => .refused .secondReset
  else
    match a with
    | .reset => .next (construct s)
    | .producer | .scheduler | .engine => .refused .notConstructed

/-- The agents that have a step in a state (R64, R141, R151, R195). -/
def enabledAgents (s : State) : List Agent :=
  if s.constructed then
    (if s.inflight.isSome || !s.pIn.isEmpty then [.producer] else []) ++
      (if !s.eBusy && !s.sIn.isEmpty then [.scheduler] else []) ++
      (if s.eBusy then [.engine] else [])
  else [.reset]

/-- The agent that moves next and the state with that choice made: the one the state's schedule lists, or, where it lists
none, a free choice among the enabled agents (R17, R32); none where no agent has a step. -/
def nextAgent (s : State) : Option (Agent × State) :=
  match s.sched with
  | a :: rest => some (a, { s with sched := rest })
  | [] =>
    match enabledAgents s with
    | [] => none
    | a :: more =>
      let (n, s') := drawBetween 0 more.length s
      some ((a :: more).getD n a, s')

/-- What the environment adds between two steps (R195, R32): commands the Producer and the Scheduler go on to issue, turns
of the schedule, and free choices. Teardown is that it adds no more commands (R194, R195). -/
structure Moves where
  pMore : List Command
  sMore : List Command
  sched : List Agent
  choices : List Nat
  deriving DecidableEq, Repr

/-- The environment adds nothing. -/
def Moves.none : Moves := { pMore := [], sMore := [], sched := [], choices := [] }

/-- R195: the environment adds its moves behind those already listed, at any time and in any number; the block is as it
was. See notes/assumptions/3.md. -/
def supply (m : Moves) (s : State) : State :=
  { s with
    pIn := s.pIn ++ m.pMore
    sIn := s.sIn ++ m.sMore
    sched := s.sched ++ m.sched
    choices := s.choices ++ m.choices }

/-- The port that a table row's word goes to: the one that admits its opcode, else the P-port, which rejects it. -/
def portOf (c : Command) : Port :=
  match decode .sPort c with
  | .command _ => .sPort
  | .rejected _ => .pPort

/-- The command `c` is the next that its port's agent issues, the port is idle, and that agent moves next. -/
def placeCommand (c : Command) (s : State) : State :=
  match portOf c with
  | .pPort => { s with constructed := true, inflight := none, pIn := c :: s.pIn, sched := .producer :: s.sched }
  | .sPort => { s with constructed := true, eBusy := false, sIn := c :: s.sIn, sched := .scheduler :: s.sched }

end Sys2Proof.Machine
end

