-- ==== Sys2Proof/Machine/Step.lean ====
section
/-! DEFINITION. One step of the machine: one indivisible state change by one agent (R17). -/

namespace Sys2Proof.Machine

/-- The agent that moves next takes its turn; where no agent has a step the block holds its state (R194, R216). -/
def step (s : State) : Host.Outcome State Fault Refusal :=
  match nextAgent s with
  | none => .next s
  | some (a, s') => turn a s'

/-- The state in which the very next step performs the command whose bits are `w`. See notes/assumptions/13.md. -/
def State.withFetchWord (s : State) (nbits w : Nat) : State :=
  placeCommand (BitVec.ofNat 72 (w % 2 ^ nbits)) s

end Sys2Proof.Machine
end

