-- ==== Sys2Proof/Machine/Assembly.lean ====
section
/-! DEFINITION. The assembler syntax (spec/30_encoding.md R91) as abstract syntax with its text, what a line issues, and
the one pseudo-instruction `PUSH` (R92, R161). Names and expressions belong to the external agent, which evaluates them
before it issues the command; nothing here is state of the block. -/

namespace Sys2Proof.Machine

/-- An operand of R91: a literal, a float literal `digits / 10 ^ scale`, the name of an earlier response, or an expression
with `+`, `-`, `mod` and `C`. -/
inductive AsmExpr where
  | lit (v : Nat)
  | float (neg : Bool) (digits scale : Nat)
  | name (n : String)
  | capacity
  | add (a b : AsmExpr)
  | sub (a b : AsmExpr)
  | mod (a b : AsmExpr)
  deriving DecidableEq, Repr

/-- A mnemonic with its operands (R84, R91), and the pseudo-instruction `PUSH` (R92). -/
inductive AsmOp where
  | rcld
  | rcst (index : AsmExpr)
  | wcld
  | wcst (index : AsmExpr)
  | sld (index : AsmExpr)
  | sst (index data : AsmExpr)
  | drain
  | outld (index : AsmExpr)
  | push (value : AsmExpr)
  deriving DecidableEq, Repr

/-- One line of R91: a port, a command, and the name its response's `data` is bound to, if any. -/
structure AsmLine where
  port : Port
  op : AsmOp
  bind : Option String
  deriving DecidableEq, Repr

/-- The names an agent has bound, the latest first. -/
abbrev AsmNames := List (String × Word)

/-- The value a name is bound to. -/
def lookupName (n : String) : AsmNames → Option Word
  | [] => none
  | (m, v) :: rest => if m = n then some v else lookupName n rest

/-- The value of an operand over the integers (R14); none for an unbound name, and for `mod` outside `a >= 0`, `b > 0`,
where R14 defines none. -/
def AsmExpr.eval (names : AsmNames) : AsmExpr → Option Int
  | .lit v => some v
  | .float neg digits scale => some (binary32OfDecimal neg digits scale).toNat
  | .name n => (lookupName n names).map (fun v => (v.toNat : Int))
  | .capacity => some (Config.C : Nat)
  | .add a b =>
    match a.eval names, b.eval names with
    | some x, some y => some (x + y)
    | _, _ => none
  | .sub a b =>
    match a.eval names, b.eval names with
    | some x, some y => some (x - y)
    | _, _ => none
  | .mod a b =>
    match a.eval names, b.eval names with
    | some x, some y => if 0 ≤ x ∧ 0 < y then some (x % y) else none
    | _, _ => none

/-- An operand as a field of the command word; none where its value is no `u32` (R13, R83). -/
def AsmExpr.word (names : AsmNames) (e : AsmExpr) : Option Word :=
  match e.eval names with
  | some x => if 0 ≤ x ∧ x < 2 ^ 32 then some (BitVec.ofNat 32 x.toNat) else none
  | none => none

/-- The command a mnemonic with its operands stands for; none for `PUSH`, which stands for three (R92). -/
def AsmOp.instr (names : AsmNames) : AsmOp → Option Instr
  | .rcld => some .rcld
  | .rcst e => (e.word names).map .rcst
  | .wcld => some .wcld
  | .wcst e => (e.word names).map .wcst
  | .sld e => (e.word names).map .sld
  | .sst e d =>
    match e.word names, d.word names with
    | some x, some y => some (.sst x y)
    | _, _ => none
  | .drain => some .drain
  | .outld e => (e.word names).map .outld
  | .push _ => none

/-- R92: `P: PUSH value` is `P: WCLD -> w`, `P: SST w, value`, `P: WCST (w + 1) mod C`; a line of any other mnemonic is
itself. DESIGN CHOICE, where R92 gives no form: `S: PUSH value` expands alike on the S-port, which rejects all three, and a
name bound to a `PUSH` is dropped. See notes/assumptions/20.md. -/
def expandLine (l : AsmLine) : List AsmLine :=
  match l.op with
  | .push value =>
    [{ port := l.port, op := .wcld, bind := some "w" },
     { port := l.port, op := .sst (.name "w") value, bind := none },
     { port := l.port, op := .wcst (.mod (.add (.name "w") (.lit 1)) .capacity), bind := none }]
  | _ => [l]

/-- The external agent issues a line: its command joins the commands its port goes on to accept (R80). A line whose
operands have no value issues nothing. -/
def issueLine (names : AsmNames) (l : AsmLine) (s : State) : Option State :=
  (l.op.instr names).map fun i =>
    match l.port with
    | .pPort => { s with pIn := s.pIn ++ [encode i] }
    | .sPort => { s with sIn := s.sIn ++ [encode i] }

/-- `-> name` of R91: the response's `data` is bound to the line's name. -/
def bindResponse (l : AsmLine) (r : Response) (names : AsmNames) : AsmNames :=
  match l.bind with
  | some n => (n, r.data) :: names
  | none => names

/-- The commands of `PUSH value` (R161) where the Producer has loaded `w` from `WCUR`. -/
def pushCommands (w value : Word) : List Instr := [.wcld, .sst w value, .wcst (nextIndex w)]

/-- The commands of pushing several values one after another from `WCUR = w` (R165). -/
def pushAll (w : Word) : List Word → List Instr
  | [] => []
  | v :: rest => pushCommands w v ++ pushAll (nextIndex w) rest

/-- The commands of writing several samples ahead, one slot after another from slot `w` (R162). -/
def writeAhead (w : Word) : List Word → List Instr
  | [] => []
  | v :: rest => .sst w v :: writeAhead (nextIndex w) rest

/-- The commands of advancing `WCUR` from `w` by a count (R162): one `WCST` for each, storing the previous value plus
one. -/
def advanceBy (w : Word) : Nat → List Instr
  | 0 => []
  | count + 1 => .wcst (nextIndex w) :: advanceBy (nextIndex w) count

/-- The last `count` decimal digits of a number. -/
def decimalDigits : Nat → Nat → String
  | 0, _ => ""
  | count + 1, v => decimalDigits count (v / 10) ++ toString (v % 10)

/-- The text of an operand. -/
def AsmExpr.text : AsmExpr → String
  | .lit v => toString v
  | .float neg digits scale =>
    (if neg then "-" else "") ++ toString (digits / 10 ^ scale) ++ "." ++ decimalDigits scale digits ++ "f"
  | .name n => n
  | .capacity => "C"
  | .add a b => "(" ++ a.text ++ " + " ++ b.text ++ ")"
  | .sub a b => "(" ++ a.text ++ " - " ++ b.text ++ ")"
  | .mod a b => a.text ++ " mod " ++ b.text

/-- The text of a mnemonic with its operands (R84, R91). -/
def AsmOp.text : AsmOp → String
  | .rcld => "RCLD"
  | .rcst e => "RCST " ++ e.text
  | .wcld => "WCLD"
  | .wcst e => "WCST " ++ e.text
  | .sld e => "SLD " ++ e.text
  | .sst e d => "SST " ++ e.text ++ ", " ++ d.text
  | .drain => "DRAIN"
  | .outld e => "OUTLD " ++ e.text
  | .push v => "PUSH " ++ v.text

/-- The text of a line (R91). -/
def AsmLine.text (l : AsmLine) : String :=
  (match l.port with
    | .pPort => "P: "
    | .sPort => "S: ") ++ l.op.text ++
  (match l.bind with
    | some n => " -> " ++ n
    | none => "")

end Sys2Proof.Machine
end

