-- ==== Sys2Proof/Safety.lean ====
section
/-! DEFINITION. What claims are stated with: the invariants of the machine, the premises the spec names (R38, R62, R165),
the end of a run (R216), runs and the two fairness conditions (R63, R214). -/

namespace Sys2Proof.Machine

/-- What holds of every state a run reaches: the cursors are in range (R24), the engine's counter and latch are (R28,
R141), the two arrays keep their canonical form, and the bookkeeping of an open parameter stands only where that parameter
is in force (R58, R63). -/
structure Inv (s : State) : Prop where
  constructed : s.constructed = true
  rcur_lt : s.rcur.toNat < Config.C
  wcur_lt : s.wcur.toNat < Config.C
  rcur_older_lt : ∀ e ∈ s.ordering.rcur.older, e.1.toNat < Config.C
  wcur_older_lt : ∀ e ∈ s.ordering.wcur.older, e.1.toNat < Config.C
  busy_iter : s.eBusy = true → s.eI < Config.Q
  busy_idx : s.eBusy = true → s.ePhase ≠ .l → s.eIdx.toNat < Config.C
  sample_wf : memWf (sampleErased s.cfg) Config.C s.sample = true
  out_wf : memWf none Config.Q s.out = true
  inflight_ok : ∀ e, s.inflight = some e → s.cfg.sampleTearing = true ∧ e.1.toNat < Config.C
  sc_ordering : s.cfg.memOrder = .sc → s.ordering = RaState.start

/-- A view names positions that its histories have (R63). -/
structure ViewOk (o : RaState) (v : View) : Prop where
  rcur_le : v.rcur ≤ o.rcur.last
  wcur_le : v.wcur ≤ o.wcur.last
  sample_wf : memWf (some 0) Config.C v.sample = true
  slot_le : ∀ k, v.slot k ≤ (o.olderSamples k).length

/-- The bookkeeping of `MEM_ORDER = ra` is sound (R63): the views and the messages name positions that exist, and the
record of older samples keeps its canonical form. -/
structure OrderingOk (o : RaState) : Prop where
  producer_ok : ViewOk o o.producerView
  consumer_ok : ViewOk o o.consumerView
  rcur_msg_ok : ViewOk o o.rcur.msg
  wcur_msg_ok : ViewOk o o.wcur.msg
  rcur_older_ok : ∀ e ∈ o.rcur.older, ViewOk o e.2
  wcur_older_ok : ∀ e ∈ o.wcur.older, ViewOk o e.2
  sample_wf : memWf (some []) Config.C o.sample = true

/-- One view is nowhere behind another (R59 (c)). -/
def View.le (u v : View) : Prop := u.rcur ≤ v.rcur ∧ u.wcur ≤ v.wcur ∧ ∀ k, u.slot k ≤ v.slot k

/-- R63: what a store of `data` to sample slot `k` on the P-port does to the cells and to the bookkeeping of samples. -/
structure RaSampleStored (s t : State) (k : Nat) (data : Word) : Prop where
  cell : ∀ j, t.sampleCell j = if j = k then data else s.sampleCell j
  older : ∀ j, t.ordering.olderSamples j =
    if j = k then s.ordering.olderSamples j ++ [s.sampleCell j] else s.ordering.olderSamples j
  view : ∀ j, t.ordering.producerView.slot j =
    if j = k then (s.ordering.olderSamples j).length + 1 else s.ordering.producerView.slot j
  rest : t = { s with
    sample := t.sample
    inflight := none
    pOut := { ok := true, data := 0 } :: s.pOut
    ordering := { s.ordering with
      sample := t.ordering.sample
      producerView := { s.ordering.producerView with sample := t.ordering.producerView.sample } } }

/-! ### A drain in progress -/

/-- How many micro-steps the drain in progress has still to take (R147): three an iteration. -/
def microStepsLeft (s : State) : Nat :=
  if s.eBusy then
    3 * (Config.Q - s.eI) -
      match s.ePhase with
      | .l => 0
      | .r => 1
      | .s => 2
  else 0

/-- The slot that iteration `k` of a drain reads that was accepted at `RCUR = r0` (R145, R153). -/
def drainSlot (r0 k : Nat) : Nat := (r0 + k) % Config.C

/-- Whether a command is an `SST` to a slot that a drain accepted at `RCUR = r0` reads (R152). -/
def Instr.storesInDrain (r0 : Nat) : Instr → Bool
  | .sst index _ => (List.range Config.Q).any fun k => decide (index.toNat = drainSlot r0 k)
  | .rcld | .rcst _ | .wcld | .wcst _ | .sld _ | .drain | .outld _ => false

/-! ### Premises about the agents outside the block -/

/-- Whether a word is a given kind of command on the P-port. -/
def decodesTo (p : Port) (f : Instr → Bool) (w : Command) : Bool :=
  match decode p w with
  | .command i => f i
  | .rejected _ => false

/-- Whether a command is `RCST`. -/
def Instr.isRcst : Instr → Bool
  | .rcst _ => true
  | .rcld | .wcld | .wcst _ | .sld _ | .sst _ _ | .drain | .outld _ => false

/-- The premise `SingleWriter` of R38: no P-port command listed to come is `RCST`; a claim in which the environment adds
commands asks the same of those. (Nothing but `WCST` writes `WCUR` in any run; that half needs no premise.) -/
def SingleWriter (s : State) : Prop := ∀ w ∈ s.pIn, decodesTo .pPort Instr.isRcst w = false

/-- What a conforming Producer's commands so far come to (R161 to R165): the content of `WCUR`, whose only writer it is;
whether it has loaded `WCUR`; how many samples it has written; and the samples written, at `WCUR` or ahead of it, that it
has not yet advanced past, oldest first, each a slot and its number among the samples. See notes/assumptions/14.md. -/
structure Pace where
  content : Word
  loaded : Bool
  written : Nat
  ahead : List (Word × Nat)
  deriving DecidableEq, Repr

/-- Before its first command. -/
def Pace.start (w : Word) : Pace := { content := w, loaded := false, written := 0, ahead := [] }

/-- One P-port command more; none where the contract does not allow it. Samples are written by `SST`, at `WCUR` or ahead of
it (R162); a `WCST` stores the previous value plus one (R161, R162), past a sample written before it to that slot (R163),
and advances past the oldest such sample; `RCST` is not issued (R165). So `n` samples written ahead take `n` advances, on
every lap of the ring (R162). DESIGN CHOICE, where the rules are silent: a slot written twice before the advance past it
holds two samples written, and takes two advances past it; `DRAIN` and `OUTLD`, which the P-port rejects, are let pass as
`RCLD` and `SLD` are, in range or not; an `SST` or `WCST` that is rejected is not allowed; a word that decodes to no command
stands in no sequence of commands (notes/assumptions/14.md). -/
def Pace.after (p : Pace) : Instr → Option Pace
  | .wcld => some { p with loaded := true }
  | .sst index _ =>
    if index.toNat < Config.C then
      some { p with written := p.written + 1, ahead := p.ahead ++ [(index, p.written)] }
    else none
  | .wcst index =>
    if p.loaded && decide (index = nextIndex p.content) && p.ahead.any (fun e => decide (e.1 = p.content)) then
      some { p with content := index, ahead := p.ahead.eraseP fun e => decide (e.1 = p.content) }
    else none
  | .rcst _ => none
  | .rcld | .sld _ | .drain | .outld _ => some p

/-- A sequence of P-port commands; none where one of them is not allowed. -/
def Pace.run (p : Pace) : List Instr → Option Pace
  | [] => some p
  | i :: rest =>
    match p.after i with
    | some q => q.run rest
    | none => none

/-- Whether a sequence was allowed and every sample written in it has been advanced past. -/
def Pace.finished : Option Pace → Bool
  | some p => p.ahead.isEmpty
  | none => false

/-- The premise `ProducerConforms` of R165 over the whole sequence of P-port commands of a Producer that stops, from
`WCUR = w`: each is allowed, and every sample written has been advanced past (R161, U16). -/
def producerConforms (w : Word) (commands : List Instr) : Bool :=
  Pace.finished ((Pace.start w).run commands)

/-- `ProducerConforms` over the endless sequence of P-port commands of a Producer that never stops: each is allowed, and
every sample written is advanced past at some time. -/
def StreamConforms (w : Word) (commands : Nat → Instr) : Prop :=
  ∀ n, ∃ p, (Pace.start w).run ((List.range n).map commands) = some p ∧
    ∀ e ∈ p.ahead, ∃ m q, n ≤ m ∧ (Pace.start w).run ((List.range m).map commands) = some q ∧ e ∉ q.ahead

/-- A drain in progress that was accepted at `RCUR = r0` (R145, R152), under `sc`, with the premise `SingleWriter` and no
`SST` to a slot the drain reads to come or in flight: the slots still hold `f`, `RCUR` has advanced by the iterations done,
the latch is `RCUR` between micro-steps `L` and `S`, and every output slot of an iteration whose micro-step `R` is done
holds its sample. -/
structure DrainFrom (r0 : Nat) (f : Nat → Word) (s : State) : Prop where
  sc : s.cfg.memOrder = .sc
  single_writer : SingleWriter s
  no_store : ∀ w ∈ s.pIn, decodesTo .pPort (Instr.storesInDrain r0) w = false
  no_inflight : ∀ e, s.inflight = some e → ∀ k, k < Config.Q → e.1.toNat ≠ drainSlot r0 k
  slots : ∀ k, k < Config.Q → s.sampleCell (drainSlot r0 k) = f (drainSlot r0 k)
  busy : s.eBusy = true
  rcur : s.rcur.toNat = drainSlot r0 s.eI
  latch : s.ePhase ≠ .l → s.eIdx = s.rcur
  out : ∀ k, k < s.eI ∨ (k = s.eI ∧ s.ePhase = .s) → s.outCell k = f (drainSlot r0 k)

/-- The drain of `DrainFrom` at its response (R145, R152). -/
structure DrainDone (r0 : Nat) (f : Nat → Word) (s : State) : Prop where
  idle : s.eBusy = false
  rcur : s.rcur.toNat = drainSlot r0 Config.Q
  out : ∀ k, k < Config.Q → s.outCell k = f (drainSlot r0 k)

/-! ### Runs -/

/-- The agent whose turn the next step is. -/
def movesNext (s : State) : Option Agent := (nextAgent s).map Prod.fst

/-- One step answers `t`, after the environment has added whatever it chooses to its moves (R195). -/
def StepsTo (s t : State) : Prop := ∃ m, step (supply m s) = .next t

/-- `t` is reached from `s` by zero or more steps. -/
inductive Reaches (s : State) : State → Prop where
  | refl : Reaches s s
  | tail {t u : State} : Reaches s t → StepsTo t u → Reaches s u

/-- `t` is `s` under `MEM_ORDER = ra`: the same block and the same moves to come, with a bookkeeping and choices of its own
(R63). -/
def RaTwin (s t : State) : Prop :=
  t = { s with
    cfg := { s.cfg with memOrder := .ra }
    ordering := t.ordering
    choices := t.choices
    drawn := t.drawn }

/-- `t` is `s`, under `MEM_ORDER = sc`, with another `WCUR` and other responses given on the P-port (R23). -/
def WcurTwin (s t : State) : Prop := s.cfg.memOrder = .sc ∧ t = { s with wcur := t.wcur, pOut := t.pOut }

/-- R216: both ports have their last response, no further command is listed for either, and no drain is in progress. -/
def Final (s : State) : Prop :=
  s.constructed = true ∧ s.pIn = [] ∧ s.sIn = [] ∧ s.inflight = none ∧ s.eBusy = false

/-- An infinite run (R216) in an environment that adds the moves `m n` before step `n` (R195): each state is one step after
the one before it. -/
def InfiniteRun (m : Nat → Moves) (r : Nat → State) : Prop := ∀ n, step (supply (m n) (r n)) = .next (r (n + 1))

/-- R216: the run has ended by step `n`: the state is final, and neither agent issues another command. -/
def EndsAt (m : Nat → Moves) (r : Nat → State) (n : Nat) : Prop :=
  Final (r n) ∧ ∀ k, n ≤ k → (m k).pMore = [] ∧ (m k).sMore = []

/-- R214: the weak fairness of the drain engine, the one assumption about progress. -/
def EngineFair (m : Nat → Moves) (r : Nat → State) : Prop :=
  ∀ n, (r n).eBusy = true → ∃ k, n ≤ k ∧ movesNext (supply (m k) (r k)) = some .engine

/-- The next step is a load of cursor `c` by context `a`. -/
def loadsCursor (a : Ctx) (c : Cursor) (s : State) : Prop :=
  match a, c with
  | .producer, .rcur => movesNext s = some .producer ∧ s.inflight = none ∧
      ∃ w rest, s.pIn = w :: rest ∧ decode .pPort w = .command .rcld
  | .producer, .wcur => movesNext s = some .producer ∧ s.inflight = none ∧
      ∃ w rest, s.pIn = w :: rest ∧ decode .pPort w = .command .wcld
  | .consumer, .rcur => movesNext s = some .engine ∧ s.eBusy = true ∧ s.ePhase = .l
  | .consumer, .wcur => False

/-- R59 (d), R63: the visibility of cursors as a fairness condition: a context that loads a cursor again and again
eventually chooses the last position. DESIGN CHOICE, where R63 does not say at which moment the last position is taken: for
each moment of the run, the context's view eventually reaches the position that is last at that moment, by a load or by a
store of its own. See notes/assumptions/12.md. -/
def CursorsVisible (m : Nat → Moves) (r : Nat → State) : Prop :=
  ∀ n a c, (∀ i, ∃ k, i ≤ k ∧ loadsCursor a c (supply (m k) (r k))) →
    ∃ k, n ≤ k ∧ ((r n).ordering.history c).last ≤ ((r k).ordering.view a).cursor c

end Sys2Proof.Machine
end

