-- ==== Sys2Proof/Certificates/Slice0/Obligations.lean ====
section
/-! DEFINITION. The statements about the model, from the rules of spec/. -/

open Sys2Proof Sys2Proof.Machine

/-! ### Encoding -/

/-- R81, R84, R85: the decoder reads back every encoded command on the port that admits it, every operand at every value,
and rejects it by name on the other. -/
def Obligations.DecodeOfEncode : Prop :=
  ∀ (i : Instr) (p : Port),
    decode p (encode i) = if p = i.port then .command i else .rejected (.wrongPort i.opcode)

/-- R81, R83, R87: a word that decodes to a command is the encoded command but for the fields its format does not use. -/
def Obligations.EncodeOfDecode : Prop :=
  ∀ (p : Port) (w : Command) (i : Instr),
    decode p w = .command i → p = i.port ∧ encode i = w &&& usedBits i.format

/-- R87: the fields a format does not use have no effect, and the encoder writes zeros there. -/
def Obligations.UnusedFieldsAreIgnored : Prop :=
  (∀ (p : Port) (v w : Command) (i : Instr),
    decode p v = .command i → v &&& usedBits i.format = w &&& usedBits i.format → decode p w = .command i) ∧
  ∀ i : Instr, encode i &&& usedBits i.format = encode i

/-- R85: what each port admits. -/
def Obligations.PortsAdmitExactlyTheirOpcodes : Prop :=
  ∀ (w : Command),
    ((∃ i, decode .pPort w = .command i) ↔ 0x01 ≤ (Command.op w).toNat ∧ (Command.op w).toNat ≤ 0x06) ∧
    ((∃ i, decode .sPort w = .command i) ↔ (Command.op w).toNat = 0x10 ∨ (Command.op w).toNat = 0x11)

/-- R86: an illegal opcode, or an opcode of the other port, is answered `(0, 0)`; the word is consumed and nothing else
changes. -/
def Obligations.IllegalWordsAreRejected : Prop :=
  ∀ (s : State) (w : Command) (rest : List Command) (agents : List Agent), s.constructed = true →
    (s.sched = .producer :: agents → s.inflight = none → s.pIn = w :: rest →
      ¬(0x01 ≤ (Command.op w).toNat ∧ (Command.op w).toNat ≤ 0x06) →
      step s = .next { s with sched := agents, pIn := rest, pOut := { ok := false, data := 0 } :: s.pOut }) ∧
    (s.sched = .scheduler :: agents → s.eBusy = false → s.sIn = w :: rest →
      ¬((Command.op w).toNat = 0x10 ∨ (Command.op w).toNat = 0x11) →
      step s = .next { s with sched := agents, sIn := rest, sOut := { ok := false, data := 0 } :: s.sOut })

/-- Words written out in spec/95_test_vectors.md section 2 (E1, E2, E3, E4, E5, E6, E7, E9, X1, X5). -/
def Obligations.WordsOfTheSpecDecode : Prop :=
  decode .pPort 0x010000000000000000 = .command .rcld ∧
  decode .pPort 0x02000007D000000000 = .command (.rcst 2000) ∧
  decode .pPort 0x030000000000000000 = .command .wcld ∧
  decode .pPort 0x040000000000000000 = .command (.wcst 0) ∧
  decode .pPort 0x050000000500000000 = .command (.sld 5) ∧
  decode .pPort 0x06000000053F800000 = .command (.sst 5 0x3F800000) ∧
  decode .sPort 0x100000000000000000 = .command .drain ∧
  decode .sPort 0x110000007F00000000 = .command (.outld 127) ∧
  decode .pPort 0x000000000000000000 = .rejected (.illegalOpcode 0x00) ∧
  decode .sPort 0x010000000000000000 = .rejected (.wrongPort 0x01)

/-! ### The step and the commands -/

/-- R80, R89: a step in which an agent issues a word that decodes to a command is `exec` of that command, from the state
with the agent's choice made and the word consumed. -/
def Obligations.StepRunsTheDecodedCommand : Prop :=
  ∀ (s s' : State) (w : Command) (rest : List Command) (i : Instr), s.constructed = true →
    (nextAgent s = some (.producer, s') → s.inflight = none → s.pIn = w :: rest → decode .pPort w = .command i →
      step s = exec i { s' with pIn := rest }) ∧
    (nextAgent s = some (.scheduler, s') → s.eBusy = false → s.sIn = w :: rest → decode .sPort w = .command i →
      step s = exec i { s' with sIn := rest })

/-- The model's own (notes/assumptions/13.md): the step after `withFetchWord` performs the command placed, on its idle
port. -/
def Obligations.FetchWordIsPerformedNext : Prop :=
  ∀ (s : State) (i : Instr),
    step (s.withFetchWord 72 (encode i).toNat) =
      exec i (match i.port with
        | .pPort => { s with constructed := true, inflight := none }
        | .sPort => { s with constructed := true, eBusy := false })

/-- R17 and R32 leave the schedule free: with none listed, only an agent that has a step moves, and each that has one can.
That a listed schedule is followed, and that the state stays where no agent has a step, are DESIGN CHOICES of the model
(notes/assumptions/12.md). -/
def Obligations.EveryInterleavingIsAdmitted : Prop :=
  ∀ (s : State),
    (∀ a rest, s.sched = a :: rest → nextAgent s = some (a, { s with sched := rest })) ∧
    (s.sched = [] →
      (∀ a s', nextAgent s = some (a, s') → a ∈ enabledAgents s) ∧
      (∀ a, a ∈ enabledAgents s → ∃ n s', nextAgent { s with choices := n :: s.choices } = some (a, s')) ∧
      (enabledAgents s = [] → step s = .next s))

/-- R112, R60: `RCLD` under `sc` answers `RCUR` and changes nothing else. -/
def Obligations.RcldLoadsTheReadCursor : Prop :=
  ∀ (s : State), s.accepts .pPort = true → s.cfg.memOrder = .sc →
    exec .rcld s = .next { s with pOut := { ok := true, data := s.rcur } :: s.pOut }

/-- R113, R60: `RCST` under `sc` replaces `RCUR`, whatever it held, and changes nothing else. -/
def Obligations.RcstStoresTheReadCursor : Prop :=
  ∀ (s : State) (index : Word), s.accepts .pPort = true → s.cfg.memOrder = .sc → index.toNat < Config.C →
    exec (.rcst index) s = .next { s with rcur := index, pOut := { ok := true, data := 0 } :: s.pOut }

/-- R114, R60: `WCLD` under `sc` answers `WCUR` and changes nothing else. -/
def Obligations.WcldLoadsTheWriteCursor : Prop :=
  ∀ (s : State), s.accepts .pPort = true → s.cfg.memOrder = .sc →
    exec .wcld s = .next { s with pOut := { ok := true, data := s.wcur } :: s.pOut }

/-- R115, R60: `WCST` under `sc` replaces `WCUR`, whatever it held, and changes nothing else. -/
def Obligations.WcstStoresTheWriteCursor : Prop :=
  ∀ (s : State) (index : Word), s.accepts .pPort = true → s.cfg.memOrder = .sc → index.toNat < Config.C →
    exec (.wcst index) s = .next { s with wcur := index, pOut := { ok := true, data := 0 } :: s.pOut }

/-- R116, R60: `SLD` under `sc` answers the slot's 32 bits and changes nothing else. (A slot is in flight only while the
P-port is busy, so an accepted `SLD` never reads a marked slot.) -/
def Obligations.SldReadsTheSlot : Prop :=
  ∀ (s : State) (index : Word), s.accepts .pPort = true → s.cfg.memOrder = .sc → index.toNat < Config.C →
    exec (.sld index) s = .next { s with pOut := { ok := true, data := s.sampleCell index.toNat } :: s.pOut }

/-- R117, R60: `SST` in one step under `sc`: the slot reads as the data, every other slot as before, and nothing else
changes. -/
def Obligations.SstWritesTheSlot : Prop :=
  ∀ (s : State) (index data : Word), s.accepts .pPort = true → s.cfg.memOrder = .sc →
    s.cfg.sampleTearing = false → memWf (sampleErased s.cfg) Config.C s.sample = true → index.toNat < Config.C →
    ∃ m, exec (.sst index data) s = .next { s with sample := m, pOut := { ok := true, data := 0 } :: s.pOut } ∧
      ∀ k, ({ s with sample := m } : State).sampleCell k = if k = index.toNat then data else s.sampleCell k

/-- R58: with `SAMPLE_TEARING = true` an `SST` marks the slot in its first step and writes nothing, and its second step,
from whatever state the other agents have made of it, writes the slot, clears the mark and responds. -/
def Obligations.SstTakesTwoStepsWhenTearing : Prop :=
  ∀ (s : State) (index data : Word), s.cfg.sampleTearing = true → index.toNat < Config.C →
    (s.accepts .pPort = true → exec (.sst index data) s = .next { s with inflight := some (index, data) }) ∧
    (s.constructed = true → s.inflight = some (index, data) → s.cfg.memOrder = .sc →
      memWf (sampleErased s.cfg) Config.C s.sample = true →
      ∃ m, turn .producer s =
          .next { s with inflight := none, sample := m, pOut := { ok := true, data := 0 } :: s.pOut } ∧
        ∀ k, ({ s with sample := m } : State).sampleCell k = if k = index.toNat then data else s.sampleCell k)

/-- R140: an accepted `DRAIN` starts the engine and changes nothing else; it does not respond yet. -/
def Obligations.DrainStartsTheEngine : Prop :=
  ∀ (s : State), s.accepts .sPort = true →
    exec .drain s = .next { s with eBusy := true, eI := 0, ePhase := .l }

/-- R148: `OUTLD` answers the output slot, or rejects an index that names none, and changes nothing else, under every value
of the parameters. It is accepted only outside a drain (R151). -/
def Obligations.OutldReadsTheOutputSlot : Prop :=
  ∀ (s : State) (index : Word), s.accepts .sPort = true →
    (index.toNat < Config.Q →
      exec (.outld index) s = .next { s with sOut := { ok := true, data := s.outCell index.toNat } :: s.sOut }) ∧
    (Config.Q ≤ index.toNat →
      exec (.outld index) s = .next { s with sOut := { ok := false, data := 0 } :: s.sOut })

/-- R118: an operand `>= C` of `RCST`, `WCST`, `SLD`, `SST` is rejected, under every value of the parameters: `(0, 0)`, and
no state changes. -/
def Obligations.OperandsOutOfRangeAreRejected : Prop :=
  ∀ (s : State) (index data : Word), Config.C ≤ index.toNat → s.accepts .pPort = true →
    exec (.rcst index) s = .next { s with pOut := { ok := false, data := 0 } :: s.pOut } ∧
    exec (.wcst index) s = .next { s with pOut := { ok := false, data := 0 } :: s.pOut } ∧
    exec (.sld index) s = .next { s with pOut := { ok := false, data := 0 } :: s.pOut } ∧
    exec (.sst index data) s = .next { s with pOut := { ok := false, data := 0 } :: s.pOut }

/-- R80, R151: while a command of a port is in flight the port accepts no other. The Scheduler's turn passes during a
drain, the Producer's turn ends its `SST`, and a command performed all the same is refused: that a
turn passes, and this refusal, are the model's DESIGN CHOICES (notes/assumptions/12.md, 8.md). -/
def Obligations.BusyPortsAcceptNoCommand : Prop :=
  ∀ (s : State) (i : Instr), s.constructed = true →
    (s.eBusy = true → turn .scheduler s = .next s ∧ (i.port = .sPort → exec i s = .refused (.portBusy .sPort))) ∧
    (∀ index data, s.inflight = some (index, data) →
      turn .producer s = .next (endSst index data s) ∧
      (i.port = .pPort → exec i s = .refused (.portBusy .pPort)))

/-! ### The drain engine -/

/-- R141 under `sc`: the three micro-steps, each enabled exactly when `E.busy = 1` and `E.phase` names it, each with all it
changes; `R` reads a slot that is not in flight. That the engine's turn passes where none is enabled is the model's DESIGN
CHOICE (notes/assumptions/12.md). -/
def Obligations.EngineTakesTheThreeMicroSteps : Prop :=
  ∀ (s : State), s.constructed = true → s.cfg.memOrder = .sc →
    (s.eBusy = false → turn .engine s = .next s) ∧
    (s.eBusy = true → s.ePhase = .l → turn .engine s = .next { s with eIdx := s.rcur, ePhase := .r }) ∧
    (s.eBusy = true → s.ePhase = .r → s.eIdx.toNat < Config.C → s.eI < Config.Q → s.marked s.eIdx.toNat = false →
      turn .engine s =
        .next { s with out := memSet none s.eI (s.sampleCell s.eIdx.toNat) s.out, ePhase := .s }) ∧
    (s.eBusy = true → s.ePhase = .s → s.eI + 1 ≠ Config.Q →
      turn .engine s = .next { s with rcur := nextIndex s.eIdx, eI := s.eI + 1, ePhase := .l }) ∧
    (s.eBusy = true → s.ePhase = .s → s.eI + 1 = Config.Q →
      turn .engine s =
        .next { s with rcur := nextIndex s.eIdx, eI := s.eI + 1, eBusy := false,
                       sOut := { ok := true, data := 1 } :: s.sOut })

/-- R149, R38, R146: under every value of the parameters a micro-step leaves `WCUR`, every sample slot, every output slot
but the one of its iteration, the other agents' moves and the Producer's bookkeeping as they were, and the one response it
can give is `(1, 1)`, when the drain ends. -/
def Obligations.EngineWritesOnlyItsOwn : Prop :=
  ∀ (s t : State), turn .engine s = .next t →
    t.cfg = s.cfg ∧ t.constructed = s.constructed ∧ t.wcur = s.wcur ∧ t.sample = s.sample ∧ t.inflight = s.inflight ∧
    t.pIn = s.pIn ∧ t.sIn = s.sIn ∧ t.pOut = s.pOut ∧ t.sched = s.sched ∧
    t.ordering.wcur = s.ordering.wcur ∧ t.ordering.sample = s.ordering.sample ∧
    t.ordering.producerView = s.ordering.producerView ∧
    (∀ k, k ≠ s.eI → t.outCell k = s.outCell k) ∧
    (t.sOut = if s.eBusy = true ∧ t.eBusy = false then { ok := true, data := 1 } :: s.sOut else s.sOut)

/-- R147, R142: a drain has `3 * Q` micro-steps to take when it is accepted; each is enabled in every state in which it is
the engine's next step, whatever the other agents have done, and leaves one fewer; no other agent's turn changes how many
are left; and the drain is over exactly when none is left. -/
def Obligations.DrainTakesExactlyItsMicroSteps : Prop :=
  (∀ s t : State, s.accepts .sPort = true → exec .drain s = .next t → microStepsLeft t = 3 * Config.Q) ∧
  (∀ s : State, Inv s → s.eBusy = true →
    (∃ t, turn .engine s = .next t ∧ microStepsLeft t + 1 = microStepsLeft s) ∧
    (∀ a t, a ≠ .engine → turn a s = .next t → microStepsLeft t = microStepsLeft s) ∧
    0 < microStepsLeft s)

/-- R140, R145, R147, R152, R153 with the other agents silent: from an idle block with a `DRAIN` to come, one step accepts
it and exactly 384 more complete it, busy all the while; then every output slot holds the sample of its slot, in order and
wrapping, `RCUR` has advanced by `Q`, the response is `(1, 1)`, and `WCUR`, the samples, the P-port and the other commands
of the S-port are as before. -/
def Obligations.DrainCompletesAfterItsMicroSteps : Prop :=
  ∀ (s : State) (w : Command) (rest : List Command), Inv s → s.cfg.memOrder = .sc → s.sched = [] → s.pIn = [] →
    s.inflight = none → s.eBusy = false → s.sIn = w :: rest → decode .sPort w = .command .drain →
    (∀ n, n < 3 * Config.Q → ∃ u, Host.Core.run Sys2Proof.core (n + 1) s = .next u ∧ u.eBusy = true) ∧
    ∃ t, Host.Core.run Sys2Proof.core (3 * Config.Q + 1) s = .next t ∧
      t.eBusy = false ∧ t.rcur.toNat = (s.rcur.toNat + Config.Q) % Config.C ∧
      (∀ k, k < Config.Q → t.outCell k = s.sampleCell ((s.rcur.toNat + k) % Config.C)) ∧
      t.wcur = s.wcur ∧ t.sample = s.sample ∧ t.pIn = [] ∧ t.pOut = s.pOut ∧ t.sIn = rest ∧
      t.sOut = { ok := true, data := 1 } :: s.sOut

/-- R145, R152 with the other agents interleaved in any way: every step keeps `DrainFrom`, the progress of a drain accepted
at `RCUR = r0`, or brings the response with all `Q` outputs copied and `RCUR` advanced by `Q`. Commands that the
environment adds keep it too, if none is `RCST` or an `SST` to a slot the drain reads (R195). An accepted `DRAIN`
establishes it. -/
def Obligations.DrainProgressIsKeptByEveryStep : Prop :=
  (∀ (s t : State) (r0 : Nat) (f : Nat → Word), Inv s → DrainFrom r0 f s → step s = .next t →
    DrainFrom r0 f t ∨ (DrainDone r0 f t ∧ t.sOut = { ok := true, data := 1 } :: s.sOut)) ∧
  (∀ (s : State) (m : Moves) (r0 : Nat) (f : Nat → Word), DrainFrom r0 f s →
    (∀ w ∈ m.pMore, decodesTo .pPort Instr.isRcst w = false ∧ decodesTo .pPort (Instr.storesInDrain r0) w = false) →
    DrainFrom r0 f (supply m s)) ∧
  (∀ (s t : State), Inv s → s.cfg.memOrder = .sc → SingleWriter s → s.inflight = none →
    (∀ w ∈ s.pIn, decodesTo .pPort (Instr.storesInDrain s.rcur.toNat) w = false) →
    s.eBusy = false → exec .drain s = .next t → DrainFrom s.rcur.toNat s.sampleCell t)

/-! ### Reset and invariants -/

/-- R33, R34, R36, R37, R11: after reset, under every value of the parameters, both cursors are 0, with `SAMPLE_RESET = zero`
every sample slot is `0x00000000`, no drain is in progress and both ports accept a command; `State.reset` has the
parameters at their defaults. -/
def Obligations.ResetLeavesTheStatedValues : Prop :=
  State.reset = State.resetWith Config.defaults ∧ Config.defaults.sampleReset = .zero ∧
  ∀ cfg : Config.Params,
    (State.resetWith cfg).rcur = 0 ∧ (State.resetWith cfg).wcur = 0 ∧
    (cfg.sampleReset = .zero → ∀ k, k < Config.C → (State.resetWith cfg).sampleCell k = 0) ∧
    (State.resetWith cfg).eBusy = false ∧
    (∀ p, (State.resetWith cfg).accepts p = true)

/-- R33 to R36, R24: the reset state with any parameters, any commands, schedule and choices to come meets the
invariants. -/
def Obligations.ResetMeetsTheInvariants : Prop :=
  ∀ (cfg : Config.Params) (pIn sIn : List Command) (sched : List Agent) (choices : List Nat),
    Inv { State.resetWith cfg with pIn := pIn, sIn := sIn, sched := sched, choices := choices } ∧
    OrderingOk (State.resetWith cfg).ordering

/-- R24, R28, R141: every step keeps the invariant, under every value of the parameters. -/
def Obligations.StepKeepsTheInvariant : Prop :=
  ∀ s t : State, Inv s → step s = .next t → Inv t

/-- R63: every step keeps the bookkeeping of `ra` sound. -/
def Obligations.StepKeepsTheOrderingSound : Prop :=
  ∀ s t : State, Inv s → OrderingOk s.ordering → step s = .next t → OrderingOk t.ordering

/-- R180, R64: no step faults, and unless a second reset is scheduled (R201) every step answers a next state: no agent is
ever stuck. That a step answers a next state where no agent has one to take, and that an agent without one lets its turn
pass, are the model's DESIGN CHOICE (notes/assumptions/12.md). -/
def Obligations.NoStepFaultsOrSticks : Prop :=
  ∀ s : State, Inv s →
    (∀ f, step s ≠ .fault f) ∧ ((∀ rest, s.sched ≠ .reset :: rest) → ∃ t, step s = .next t)

/-- R111: `CONSTRUCT` from any contents establishes the reset values of R33, R34 and R36, and the invariants. That an output
slot then reads as the free value `Config.outInit` is the model's choice for R35 (notes/assumptions/5.md); that the other
agents' moves, the schedule and the responses given are kept is the model's choice too (notes/assumptions/9.md). -/
def Obligations.ConstructEstablishesTheResetState : Prop :=
  ∀ s : State, s.constructed = false →
    ∃ t, turn .reset s = .next t ∧ Inv t ∧ OrderingOk t.ordering ∧
      t.rcur = 0 ∧ t.wcur = 0 ∧ t.eBusy = false ∧
      (∀ k, t.sampleCell k = sampleResetValue s.cfg k) ∧ (∀ k, t.outCell k = Config.outInit k) ∧
      t.cfg = s.cfg ∧ t.pIn = s.pIn ∧ t.sIn = s.sIn ∧ t.sched = s.sched ∧ t.pOut = s.pOut ∧ t.sOut = s.sOut

/-- R201: a reset of a constructed block is refused. That any other agent's turn before `CONSTRUCT`, which R111 and R195 give
no meaning, is refused as `notConstructed`, and that a second reset is refused before any command too, are DESIGN CHOICES of
the model (notes/assumptions/9.md). -/
def Obligations.ResetHappensOnceAndFirst : Prop :=
  ∀ (s : State) (a : Agent) (rest : List Agent), s.sched = a :: rest →
    (s.constructed = true → a = .reset → step s = .refused .secondReset) ∧
    (s.constructed = false → a ≠ .reset → step s = .refused .notConstructed)

/-- R24: in every run from reset, under every value of the parameters and whatever commands, turns and choices the
environment adds between the steps (R195), both cursors are in `[0, C)`, and so is every value a cursor load can return. -/
def Obligations.CursorsStayInRangeInEveryRun : Prop :=
  ∀ (cfg : Config.Params) (pIn sIn : List Command) (sched : List Agent) (choices : List Nat) (t : State),
    Reaches { State.resetWith cfg with pIn := pIn, sIn := sIn, sched := sched, choices := choices } t →
    t.rcur.toNat < Config.C ∧ t.wcur.toNat < Config.C ∧
    ∀ a c, (atomicLoad a c t).1.toNat < Config.C

/-! ### Who writes what -/

/-- R23, R38: a step that changes `WCUR` of a constructed block is the Producer's `WCST` of the new value. -/
def Obligations.OnlyWcstWritesTheWriteCursor : Prop :=
  ∀ s t : State, s.constructed = true → step s = .next t → t.wcur ≠ s.wcur →
    movesNext s = some .producer ∧ ∃ w rest, s.pIn = w :: rest ∧ decode .pPort w = .command (.wcst t.wcur)

/-- R22, R38: a step that changes `RCUR` of a constructed block is the engine's micro-step `S`, which stores the advance of
the latched index, or the Producer's `RCST` of the new value. -/
def Obligations.OnlyTheEngineOrRcstWritesTheReadCursor : Prop :=
  ∀ s t : State, s.constructed = true → step s = .next t → t.rcur ≠ s.rcur →
    (movesNext s = some .engine ∧ s.eBusy = true ∧ s.ePhase = .s ∧ t.rcur = nextIndex s.eIdx) ∨
    (movesNext s = some .producer ∧ ∃ w rest, s.pIn = w :: rest ∧ decode .pPort w = .command (.rcst t.rcur))

/-- R38: a step that changes a sample slot is the Producer's `SST` to that slot of the value it then holds, in its one step
or in its second (R58). -/
def Obligations.OnlySstWritesASample : Prop :=
  ∀ (s t : State) (k : Nat), Inv s → step s = .next t → t.sampleCell k ≠ s.sampleCell k →
    movesNext s = some .producer ∧
    ∃ index, index.toNat = k ∧
      ((∃ w rest, s.pIn = w :: rest ∧ decode .pPort w = .command (.sst index (t.sampleCell k))) ∨
        s.inflight = some (index, t.sampleCell k))

/-- R29, R210: a step that changes an output slot is the engine's micro-step `R` of that slot's iteration. -/
def Obligations.OnlyMicroStepRWritesAnOutput : Prop :=
  ∀ (s t : State) (k : Nat), s.constructed = true → step s = .next t → t.outCell k ≠ s.outCell k →
    movesNext s = some .engine ∧ s.eBusy = true ∧ s.ePhase = .r ∧ k = s.eI

/-- R32: no step changes a parameter, and no step undoes `CONSTRUCT`. -/
def Obligations.ParametersAreFixed : Prop :=
  ∀ s t : State, step s = .next t → t.cfg = s.cfg ∧ (s.constructed = true → t.constructed = true)

/-- R23 under `sc`: `WCUR` influences no output but the responses to `WCLD`. Two states that differ in `WCUR` and in the
P-port's responses given so far step to two states that differ in these alone again: every step keeps `WcurTwin`. Both give
as many responses, with the same `ok`, and they give the same responses unless the step is a `WCLD`. -/
def Obligations.WriteCursorInfluencesOnlyWcld : Prop :=
  ∀ s s' t : State, WcurTwin s t → step s = .next s' →
    ∃ t', step t = .next t' ∧ WcurTwin s' t' ∧
      ∃ rs rs', s'.pOut = rs ++ s.pOut ∧ t'.pOut = rs' ++ t.pOut ∧ rs.map Response.ok = rs'.map Response.ok ∧
        (¬loadsCursor .producer .wcur s → rs' = rs)

/-- R36: `E.i`, `E.phase` and `E.idx` are written before they are read. With no drain in progress two states that differ in
them alone step to states that differ in them alone, and agree on `E.i` and `E.phase` if a drain was accepted; and
micro-step `L` does not depend on `E.idx`. -/
def Obligations.SequencerResidueIsNeverRead : Prop :=
  (∀ (s t : State) (i : Nat) (p : Phase) (x : Word), s.eBusy = false → step s = .next t →
    ∃ t', step { s with eI := i, ePhase := p, eIdx := x } = .next t' ∧
      t' = { t with eI := t'.eI, ePhase := t'.ePhase, eIdx := t'.eIdx } ∧
      (t.eBusy = true → t'.eI = t.eI ∧ t'.ePhase = t.ePhase)) ∧
  (∀ (s : State) (x : Word), s.constructed = true → s.eBusy = true → s.ePhase = .l →
    turn .engine { s with eIdx := x } = turn .engine s)

/-- R194, R216: in the final state no agent has a step, no other constructed state has none, and the block then holds its
state: with nothing scheduled the step leaves it as it is, and once a run has ended, whatever idle turns the environment
still schedules, the state differs from the final state in the schedule and the choices alone. Steps and idle turns after
the end are the model's DESIGN CHOICE (notes/assumptions/12.md). -/
def Obligations.FinalStatesHold : Prop :=
  (∀ s : State, (Final s ↔ s.constructed = true ∧ enabledAgents s = []) ∧ (Final s → s.sched = [] → step s = .next s)) ∧
  ∀ (m : Nat → Moves) (r : Nat → State) (n : Nat), InfiniteRun m r → EndsAt m r n →
    ∀ k, n ≤ k → r k = { r n with sched := (r k).sched, choices := (r k).choices, drawn := (r k).drawn }

/-! ### Arithmetic, memory and words -/

/-- R119, R120: `next` stays in range and wraps at `C - 1`; applied `n` times it adds `n` modulo `C`; `C` times is the
identity and no smaller positive count is. -/
def Obligations.NextIsACyclicShift : Prop :=
  ∀ v : Word, v.toNat < Config.C →
    (nextIndex v).toNat < Config.C ∧
    (nextIndex v).toNat = (if v.toNat = Config.C - 1 then 0 else v.toNat + 1) ∧
    (∀ n, (nextIndex^[n] v).toNat = (v.toNat + n) % Config.C) ∧
    nextIndex^[Config.C] v = v ∧
    (∀ n, 0 < n → n < Config.C → nextIndex^[n] v ≠ v)

/-- R193: the estimate an outside agent computes is `(WCUR - RCUR) mod C` over the integers. -/
def Obligations.OccupancyEstimateIsTheDifferenceModC : Prop :=
  ∀ w r : Word, w.toNat < Config.C → r.toNat < Config.C →
    (occupancyEstimate w r : Int) = ((w.toNat : Int) - (r.toNat : Int)) % (Config.C : Int) ∧
    occupancyEstimate w r < Config.C

/-- R51: under `little` byte 0 is bits 7:0, and the bytes a platform lays out give the word back. The second order, `big`, for
which the same is said, is the model's PRESUMED value of `BYTE_ORDER` (notes/assumptions/17.md). -/
def Obligations.PlatformBytesGiveTheWordBack : Prop :=
  (∀ (order : Config.ByteOrder) (v : Word), platformWord order (platformBytes order v) = some v) ∧
  (∀ v : Word, (platformBytes .little v)[0]? = some (v.extractLsb' 0 8))

/-- R60 and the canonical form (notes/assumptions/1.md): a sample write is read back, leaves every other slot alone and
keeps the form, and with `SAMPLE_RESET = zero` two sample arrays that read alike are the same data. -/
def Obligations.SampleArrayReadsAfterWrites : Prop :=
  (∀ (s : State) (a : Ctx) (k : Nat) (v : Word), memWf (sampleErased s.cfg) Config.C s.sample = true → k < Config.C →
    memWf (sampleErased s.cfg) Config.C (sampleWrite a k v s).sample = true ∧
    ∀ j, (sampleWrite a k v s).sampleCell j = if j = k then v else s.sampleCell j) ∧
  (∀ s t : State, s.cfg.sampleReset = .zero → t.cfg.sampleReset = .zero →
    memWf (sampleErased s.cfg) Config.C s.sample = true → memWf (sampleErased t.cfg) Config.C t.sample = true →
    (∀ k, k < Config.C → s.sampleCell k = t.sampleCell k) → s.sample = t.sample)

/-! ### The open parameters -/

/-- R63: a cursor load under `ra` answers an entry of the cursor's history no older than the loading context's view of it,
moves that view to it, raises it to the entry's message, and changes nothing else. `RCLD`, `WCLD` and micro-step `L`. -/
def Obligations.RaCursorLoadsReadAVisibleEntry : Prop :=
  ∀ s : State, s.constructed = true → s.cfg.memOrder = .ra → OrderingOk s.ordering →
    (s.inflight = none → ∃ j cs d, s.ordering.producerView.rcur ≤ j ∧ j ≤ s.ordering.rcur.last ∧
      exec .rcld s = .next { s with
        choices := cs
        drawn := d
        pOut := { ok := true, data := (s.ordering.rcur.entry s.rcur j).1 } :: s.pOut
        ordering := { s.ordering with
          producerView := (s.ordering.producerView.setCursor .rcur j).raise (s.ordering.rcur.entry s.rcur j).2 } }) ∧
    (s.inflight = none → ∃ j cs d, s.ordering.producerView.wcur ≤ j ∧ j ≤ s.ordering.wcur.last ∧
      exec .wcld s = .next { s with
        choices := cs
        drawn := d
        pOut := { ok := true, data := (s.ordering.wcur.entry s.wcur j).1 } :: s.pOut
        ordering := { s.ordering with
          producerView := (s.ordering.producerView.setCursor .wcur j).raise (s.ordering.wcur.entry s.wcur j).2 } }) ∧
    (s.eBusy = true → s.ePhase = .l → ∃ j cs d, s.ordering.consumerView.rcur ≤ j ∧ j ≤ s.ordering.rcur.last ∧
      turn .engine s = .next { s with
        choices := cs
        drawn := d
        eIdx := (s.ordering.rcur.entry s.rcur j).1
        ePhase := .r
        ordering := { s.ordering with
          consumerView := (s.ordering.consumerView.setCursor .rcur j).raise (s.ordering.rcur.entry s.rcur j).2 } })

/-- R63: a cursor store under `ra` adds one entry to the cursor's history, moves the storing context's view to it, records
that view as the entry's message, and changes nothing else but the response. `RCST`, `WCST` and micro-step `S`. That the
message is that view alone, where R65 asks more of a store after one by the other context, is the model's DESIGN CHOICE
(notes/assumptions/23.md). -/
def Obligations.RaCursorStoresAddAnEntry : Prop :=
  ∀ (s : State) (index : Word), s.constructed = true → s.cfg.memOrder = .ra →
    (s.inflight = none → index.toNat < Config.C →
      exec (.rcst index) s = .next { s with
        rcur := index
        pOut := { ok := true, data := 0 } :: s.pOut
        ordering := { s.ordering with
          rcur := { older := s.ordering.rcur.older ++ [(s.rcur, s.ordering.rcur.msg)]
                    msg := s.ordering.producerView.setCursor .rcur (s.ordering.rcur.last + 1) }
          producerView := s.ordering.producerView.setCursor .rcur (s.ordering.rcur.last + 1) } } ∧
      exec (.wcst index) s = .next { s with
        wcur := index
        pOut := { ok := true, data := 0 } :: s.pOut
        ordering := { s.ordering with
          wcur := { older := s.ordering.wcur.older ++ [(s.wcur, s.ordering.wcur.msg)]
                    msg := s.ordering.producerView.setCursor .wcur (s.ordering.wcur.last + 1) }
          producerView := s.ordering.producerView.setCursor .wcur (s.ordering.wcur.last + 1) } }) ∧
    (s.eBusy = true → s.ePhase = .s →
      ∃ t, turn .engine s = .next t ∧
        t.eBusy = decide (s.eI + 1 ≠ Config.Q) ∧
        t.ePhase = (if s.eI + 1 = Config.Q then .s else .l) ∧
        t.sOut = (if s.eI + 1 = Config.Q then { ok := true, data := 1 } :: s.sOut else s.sOut) ∧
        t = { s with
          rcur := nextIndex s.eIdx
          eI := s.eI + 1
          eBusy := t.eBusy
          ePhase := t.ePhase
          sOut := t.sOut
          ordering := { s.ordering with
            rcur := { older := s.ordering.rcur.older ++ [(s.rcur, s.ordering.rcur.msg)]
                      msg := s.ordering.consumerView.setCursor .rcur (s.ordering.rcur.last + 1) }
            consumerView := s.ordering.consumerView.setCursor .rcur (s.ordering.rcur.last + 1) } })

/-- R63: a sample read under `ra` of a slot not in flight answers a value the slot has held that is no older than the
reading context's view of it, moves that view to it, and changes nothing else. `SLD` and micro-step `R`. -/
def Obligations.RaSampleReadsAVisibleValue : Prop :=
  ∀ (s : State) (index : Word), s.constructed = true → s.cfg.memOrder = .ra → OrderingOk s.ordering →
    (s.inflight = none → index.toNat < Config.C →
      ∃ j cs d, s.ordering.producerView.slot index.toNat ≤ j ∧ j ≤ (s.ordering.olderSamples index.toNat).length ∧
        exec (.sld index) s = .next { s with
          choices := cs
          drawn := d
          pOut := { ok := true,
                    data := sampleEntry (s.ordering.olderSamples index.toNat) (s.sampleCell index.toNat) j } :: s.pOut
          ordering := { s.ordering with producerView := s.ordering.producerView.setSlot index.toNat j } }) ∧
    (s.eBusy = true → s.ePhase = .r → s.eIdx = index → index.toNat < Config.C → s.eI < Config.Q →
      s.marked index.toNat = false →
      ∃ j cs d, s.ordering.consumerView.slot index.toNat ≤ j ∧ j ≤ (s.ordering.olderSamples index.toNat).length ∧
        turn .engine s = .next { s with
          choices := cs
          drawn := d
          out := memSet none s.eI
            (sampleEntry (s.ordering.olderSamples index.toNat) (s.sampleCell index.toNat) j) s.out
          ePhase := .s
          ordering := { s.ordering with consumerView := s.ordering.consumerView.setSlot index.toNat j } })

/-- R63, R58: a sample store under `ra` adds one value to the slot's history and moves the Producer's view of the slot to
it; it records no message, and nothing else changes but the response, so the Consumer's view stays. `SST` in its one step,
and in its second. -/
def Obligations.RaSampleStoresAddAValue : Prop :=
  ∀ (s : State) (index data : Word), Inv s → OrderingOk s.ordering → s.cfg.memOrder = .ra → index.toNat < Config.C →
    (s.cfg.sampleTearing = false →
      ∃ t, exec (.sst index data) s = .next t ∧ RaSampleStored s t index.toNat data) ∧
    (s.inflight = some (index, data) → ∃ t, turn .producer s = .next t ∧ RaSampleStored s t index.toNat data)

/-- R63, R32: every entry from the loading context's view to the newest can be the one read, by either context, of either
cursor and of every slot not in flight: the choice is free. -/
def Obligations.RaAdmitsEveryVisibleEntry : Prop :=
  ∀ (s : State) (a : Ctx) (j : Nat) (rest : List Nat), s.cfg.memOrder = .ra →
    (∀ c, (s.ordering.view a).cursor c ≤ j → j ≤ (s.ordering.history c).last →
      (atomicLoad a c { s with choices := (j - (s.ordering.view a).cursor c) :: rest }).1 =
        ((s.ordering.history c).entry (s.cursor c) j).1) ∧
    (∀ k, s.marked k = false → (s.ordering.view a).slot k ≤ j → j ≤ (s.ordering.olderSamples k).length →
      (sampleRead a k { s with choices := (j - (s.ordering.view a).slot k) :: rest }).1 =
        sampleEntry (s.ordering.olderSamples k) (s.sampleCell k) j)

/-- R63, and R65 as far as R63 goes (notes/assumptions/23.md): what a load acquires: the view it leaves is,
location by location, the later of the view before it (moved to the entry read) and the entry's message. -/
def Obligations.AcquireRaisesEveryLocation : Prop :=
  ∀ (o : RaState) (a : Ctx) (c : Cursor) (cell : Word) (j : Nat), OrderingOk o →
    let e := (o.history c).entry cell j
    let v := ((o.view a).setCursor c j).raise e.2
    (∀ k, v.slot k = max ((o.view a).slot k) (e.2.slot k)) ∧
    (∀ c', v.cursor c' = max (if c' = c then j else (o.view a).cursor c') (e.2.cursor c'))

/-- R59 (c), R63: no step moves a context's view of any location backwards, so no context reads a store older than one it
has read. -/
def Obligations.ViewsNeverGoBack : Prop :=
  ∀ (s t : State) (a : Ctx), Inv s → OrderingOk s.ordering → step s = .next t →
    (s.ordering.view a).le (t.ordering.view a)

/-- R63: every `sc` execution is an `ra` execution. A step under `sc` is matched, from any sound bookkeeping, by a step
under `ra` with suitable choices, and the two states still agree on everything but bookkeeping and choices. -/
def Obligations.EveryScStepIsAnRaStep : Prop :=
  ∀ s s' t : State, s.cfg.memOrder = .sc → Inv s → RaTwin s t → OrderingOk t.ordering → step s = .next s' →
    ∃ cs t', step { t with choices := cs } = .next t' ∧ RaTwin s' t' ∧ OrderingOk t'.ordering

/-- R58, U1: with `SAMPLE_TEARING = true` the engine's read of a slot in flight can return any word, under either memory
order, and micro-step `R` goes on as R141 says. That such a read leaves the Consumer's view as it was under `ra`, which R58
and R63 do not say, is the model's DESIGN CHOICE (notes/assumptions/10.md). -/
def Obligations.TornReadsReturnAnyWord : Prop :=
  ∀ (s : State) (x data : Word) (rest : List Nat), s.constructed = true → s.eBusy = true → s.ePhase = .r →
    s.eIdx.toNat < Config.C → s.eI < Config.Q → s.inflight = some (s.eIdx, data) →
    turn .engine { s with choices := x.toNat :: rest } =
      .next { s with choices := rest, out := memSet none s.eI x s.out, ePhase := .s }

/-- R56, R61, V50: a sample store and the engine's read of the same slot, unordered: the read returns the old value when
the schedule puts it first and the new one when it does not, and the slot ends with the new value both times. -/
def Obligations.SlotRacesAdmitBothOrders : Prop :=
  ∀ (s : State) (v : Word), Inv s → s.cfg.memOrder = .sc → s.cfg.sampleTearing = false → s.inflight = none →
    s.eBusy = true → s.ePhase = .r → s.pIn = [encode (.sst s.eIdx v)] →
    ∃ t u, Host.Core.run Sys2Proof.core 2 { s with sched := [.engine, .producer] } = .next t ∧
      Host.Core.run Sys2Proof.core 2 { s with sched := [.producer, .engine] } = .next u ∧
      t.outCell s.eI = s.sampleCell s.eIdx.toNat ∧ u.outCell s.eI = v ∧
      t.sampleCell s.eIdx.toNat = v ∧ u.sampleCell s.eIdx.toNat = v

/-! ### The Producer -/

/-- R161: the three commands of a push, one after another, write the sample at `WCUR` and advance `WCUR` by one; none is
rejected, and nothing else changes. -/
def Obligations.PushWritesThenAdvances : Prop :=
  ∀ (s : State) (v : Word) (rest : List Command) (agents : List Agent), Inv s → s.cfg.memOrder = .sc →
    s.cfg.sampleTearing = false → s.inflight = none →
    s.pIn = (pushCommands s.wcur v).map encode ++ rest → s.sched = .producer :: .producer :: .producer :: agents →
    Host.Core.run Sys2Proof.core 3 s = .next { s with
      sample := memSet (sampleErased s.cfg) s.wcur.toNat v s.sample
      wcur := nextIndex s.wcur
      pOut := { ok := true, data := 0 } :: { ok := true, data := 0 } :: { ok := true, data := s.wcur } :: s.pOut
      pIn := rest
      sched := agents }

/-- R165: after `n` pushes of the values `vs` from `WCUR = w0`, `WCUR` is `(w0 + n) mod C` and the slots hold them in
order, later pushes overwriting earlier ones where `n > C` (the last `C` values stand); no command is rejected, and nothing
else changes. The last clause, that such a sequence conforms, is about `producerConforms`, the model's DEDUCED reading of
R161 to R165 (notes/assumptions/14.md). -/
def Obligations.PushesFillTheRing : Prop :=
  ∀ (s : State) (vs : List Word) (rest : List Command) (agents : List Agent), Inv s → s.cfg.memOrder = .sc →
    s.cfg.sampleTearing = false → s.inflight = none →
    s.pIn = (pushAll s.wcur vs).map encode ++ rest →
    s.sched = List.replicate (3 * vs.length) .producer ++ agents →
    (∃ t rs, Host.Core.run Sys2Proof.core (3 * vs.length) s = .next t ∧
      t.wcur.toNat = (s.wcur.toNat + vs.length) % Config.C ∧
      (∀ j (h : j < vs.length), vs.length ≤ j + Config.C →
        t.sampleCell ((s.wcur.toNat + j) % Config.C) = vs[j]) ∧
      (∀ k, (∀ j, j < vs.length → k ≠ (s.wcur.toNat + j) % Config.C) → t.sampleCell k = s.sampleCell k) ∧
      t = { s with sample := t.sample, wcur := t.wcur, pOut := rs ++ s.pOut, pIn := rest, sched := agents } ∧
      rs.length = 3 * vs.length ∧ ∀ r ∈ rs, r.ok = true) ∧
    producerConforms s.wcur (pushAll s.wcur vs) = true

/-- R92: the pseudo-instruction `PUSH` expands to the three commands, once the name `w` is bound to the loaded cursor. -/
def Obligations.PushExpandsToThreeCommands : Prop :=
  ∀ (names : AsmNames) (w v : Word), w.toNat < Config.C → lookupName "w" names = some w →
    (expandLine { port := .pPort, op := .push (.lit v.toNat), bind := none }).map (fun l => l.op.instr names) =
      [some .wcld, some (.sst w v), some (.wcst (nextIndex w))]

/-! ### Progress -/

/-- R147, R214: in every infinite run that is fair to the engine, whatever the environment adds (R195), a drain in progress
responds `(1, 1)`. -/
def Obligations.FairRunsCompleteEveryDrain : Prop :=
  ∀ (m : Nat → Moves) (r : Nat → State), InfiniteRun m r → Inv (r 0) → EngineFair m r → ∀ n, (r n).eBusy = true →
    ∃ k, n ≤ k ∧ (r k).eBusy = true ∧ (r (k + 1)).eBusy = false ∧
      (r (k + 1)).sOut = { ok := true, data := 1 } :: (r k).sOut

/-- R64, R195, R216: whatever commands, turns and choices the environment adds before each step, at any rate and for ever
(Reset's turn apart, R201), the machine has an infinite run in it, from every state that meets the invariant. That idle
turns, and steps where no agent has one to take, count as steps of such a run is the model's DESIGN CHOICE
(notes/assumptions/12.md). -/
def Obligations.EveryEnvironmentHasARun : Prop :=
  ∀ (s : State) (m : Nat → Moves), Inv s → .reset ∉ s.sched → (∀ n, .reset ∉ (m n).sched) →
    ∃ r, r 0 = s ∧ InfiniteRun m r
end

