-- ==== Sys2Proof/Laws/Assembly.lean ====
section
/-! SUPPORT. Operands of the assembler as fields of the command word. -/

namespace Sys2Proof.Machine

/-- An operand whose value is a `u32` is the field with that value (R83, R91). -/
theorem word_of_eval {names : AsmNames} {e : AsmExpr} {x : Nat} (hx : x < 2 ^ 32) (h : e.eval names = some (x : Int)) :
    e.word names = some (BitVec.ofNat 32 x) := by
  have bounds : (0 : Int) ≤ (x : Int) ∧ (x : Int) < 2 ^ 32 := by
    refine ⟨Int.natCast_nonneg x, ?_⟩
    have : ((2 : Nat) ^ 32 : Nat) = (2 ^ 32 : Int) := by norm_num
    rw [← this]
    exact_mod_cast hx
  unfold AsmExpr.word
  rw [h]
  dsimp only
  rw [if_pos bounds, Int.toNat_natCast]

end Sys2Proof.Machine
end

