-- ==== Sys2Proof/Laws/PerInstr.lean ====
section
/-! SUPPORT. The family EncodesOpcode: what the encoder writes for each command (R81, R84), one lemma a constructor. -/

namespace Sys2Proof.Laws.EncodesOpcode

/-- The three fields of the encoded word are the command's opcode and its two operand fields. -/
def Statement (i : Instr) : Prop :=
  Command.op (encode i) = i.opcode ∧ Command.index (encode i) = i.fields.1 ∧ Command.data (encode i) = i.fields.2

/-- The fields of a word put together from its three parts. -/
theorem fields_of_append (op : BitVec 8) (index data : Word) :
    Command.op (op ++ index ++ data) = op ∧ Command.index (op ++ index ++ data) = index ∧
      Command.data (op ++ index ++ data) = data := by
  unfold Command.op Command.index Command.data
  refine ⟨?_, ?_, ?_⟩
  · ext k hk
    simp
    grind
  · ext k hk
    simp
    grind
  · ext k hk
    simp
    grind

theorem rcld : Statement .rcld := fields_of_append _ _ _
theorem rcst (index : Word) : Statement (.rcst index) := fields_of_append _ _ _
theorem wcld : Statement .wcld := fields_of_append _ _ _
theorem wcst (index : Word) : Statement (.wcst index) := fields_of_append _ _ _
theorem sld (index : Word) : Statement (.sld index) := fields_of_append _ _ _
theorem sst (index data : Word) : Statement (.sst index data) := fields_of_append _ _ _
theorem drain : Statement .drain := fields_of_append _ _ _
theorem outld (index : Word) : Statement (.outld index) := fields_of_append _ _ _

end Sys2Proof.Laws.EncodesOpcode
end

