-- ==== Sys2Proof/Laws/Decode.lean ====
section
/-! SUPPORT. The inversion of the decoder, and words as their three fields. -/

namespace Sys2Proof

/-- A command word is its three fields put together (R81). -/
theorem command_eq_fields (w : Command) : w = Command.op w ++ Command.index w ++ Command.data w := by
  ext k hk
  simp [Command.op, Command.index, Command.data]
  grind

/-- What the opcode map selects: the command's own opcode, with the fields its format uses. -/
theorem selectInstr_some {op index data : Nat} {i : Instr} (h : selectInstr op index data = some i) :
    i.opcode.toNat = op ∧ i.fields = match i.format with
      | .z => (0, 0)
      | .x => (BitVec.ofNat 32 index, 0)
      | .xd => (BitVec.ofNat 32 index, BitVec.ofNat 32 data) := by
  unfold selectInstr at h
  split at h <;> first | cases h; simp [Instr.opcode, Instr.fields, Instr.format] | cases h

/-- The opcode map selects something exactly for its eight opcodes. -/
theorem selectInstr_opcode (i : Instr) (index data : Nat) :
    ∃ j, selectInstr i.opcode.toNat index data = some j ∧ j.port = i.port := by
  cases i <;> exact ⟨_, rfl, rfl⟩

/-- The inversion of the decoder (R89). -/
theorem decode_command {p : Port} {w : Command} {i : Instr} (h : decode p w = .command i) :
    p = i.port ∧ selectInstr (Command.op w).toNat (Command.index w).toNat (Command.data w).toNat = some i := by
  unfold decode at h
  split at h
  · cases h
  · split at h
    · next hs hp => cases h; exact ⟨hp.symm, hs⟩
    · cases h

/-- The used bits of a format, field by field (R81). -/
theorem usedBits_eq_fields (f : Format) :
    usedBits f = (match f with
      | .z => BitVec.allOnes 8 ++ (0 : Word) ++ (0 : Word)
      | .x => BitVec.allOnes 8 ++ BitVec.allOnes 32 ++ (0 : Word)
      | .xd => BitVec.allOnes 8 ++ BitVec.allOnes 32 ++ BitVec.allOnes 32 : Command) := by
  cases f <;> decide

/-- A bitwise `and` of command words goes field by field. -/
theorem command_and (a b : BitVec 8) (c d e f : Word) :
    (a ++ c ++ e) &&& (b ++ d ++ f) = (a &&& b) ++ (c &&& d) ++ (e &&& f) := by
  ext k hk
  simp
  grind

/-- The used bits of a word: its opcode and the fields its format uses, zeros elsewhere (R87). -/
theorem command_and_usedBits (f : Format) (w : Command) :
    w &&& usedBits f = match f with
      | .z => Command.op w ++ (0 : Word) ++ (0 : Word)
      | .x => Command.op w ++ Command.index w ++ (0 : Word)
      | .xd => Command.op w ++ Command.index w ++ Command.data w := by
  have h0 : ∀ x : Word, x &&& (0 : Word) = 0 := fun x => by simp
  conv => lhs; rw [command_eq_fields w, usedBits_eq_fields]
  cases f <;> dsimp only <;>
    rw [command_and] <;> simp only [BitVec.and_allOnes, h0]

end Sys2Proof
end

