-- ==== Sys2Proof/Laws/State.lean ====
section
/-! SUPPORT. What each state update leaves as it is: one lemma a field and update, so that no later proof unfolds one. -/

namespace Sys2Proof.Machine

variable (s : State)

/-! ### A response -/

@[simp] theorem respond_cfg (p : Port) (r : Response) : (respond p r s).cfg = s.cfg := by cases p <;> rfl
@[simp] theorem respond_constructed (p : Port) (r : Response) : (respond p r s).constructed = s.constructed := by cases p <;> rfl
@[simp] theorem respond_sample (p : Port) (r : Response) : (respond p r s).sample = s.sample := by cases p <;> rfl
@[simp] theorem respond_rcur (p : Port) (r : Response) : (respond p r s).rcur = s.rcur := by cases p <;> rfl
@[simp] theorem respond_wcur (p : Port) (r : Response) : (respond p r s).wcur = s.wcur := by cases p <;> rfl
@[simp] theorem respond_out (p : Port) (r : Response) : (respond p r s).out = s.out := by cases p <;> rfl
@[simp] theorem respond_eBusy (p : Port) (r : Response) : (respond p r s).eBusy = s.eBusy := by cases p <;> rfl
@[simp] theorem respond_eI (p : Port) (r : Response) : (respond p r s).eI = s.eI := by cases p <;> rfl
@[simp] theorem respond_ePhase (p : Port) (r : Response) : (respond p r s).ePhase = s.ePhase := by cases p <;> rfl
@[simp] theorem respond_eIdx (p : Port) (r : Response) : (respond p r s).eIdx = s.eIdx := by cases p <;> rfl
@[simp] theorem respond_inflight (p : Port) (r : Response) : (respond p r s).inflight = s.inflight := by cases p <;> rfl
@[simp] theorem respond_ordering (p : Port) (r : Response) : (respond p r s).ordering = s.ordering := by cases p <;> rfl
@[simp] theorem respond_pIn (p : Port) (r : Response) : (respond p r s).pIn = s.pIn := by cases p <;> rfl
@[simp] theorem respond_sIn (p : Port) (r : Response) : (respond p r s).sIn = s.sIn := by cases p <;> rfl
@[simp] theorem respond_sched (p : Port) (r : Response) : (respond p r s).sched = s.sched := by cases p <;> rfl
@[simp] theorem respond_choices (p : Port) (r : Response) : (respond p r s).choices = s.choices := by cases p <;> rfl
@[simp] theorem respond_drawn (p : Port) (r : Response) : (respond p r s).drawn = s.drawn := by cases p <;> rfl
@[simp] theorem respond_pPort_pOut (r : Response) : (respond .pPort r s).pOut = r :: s.pOut := rfl
@[simp] theorem respond_pPort_sOut (r : Response) : (respond .pPort r s).sOut = s.sOut := rfl
@[simp] theorem respond_sPort_sOut (r : Response) : (respond .sPort r s).sOut = r :: s.sOut := rfl
@[simp] theorem respond_sPort_pOut (r : Response) : (respond .sPort r s).pOut = s.pOut := rfl

/-! ### A cursor's storage cell -/

@[simp] theorem setCursor_cfg (c : Cursor) (v : Word) : (s.setCursor c v).cfg = s.cfg := by cases c <;> rfl
@[simp] theorem setCursor_constructed (c : Cursor) (v : Word) : (s.setCursor c v).constructed = s.constructed := by cases c <;> rfl
@[simp] theorem setCursor_sample (c : Cursor) (v : Word) : (s.setCursor c v).sample = s.sample := by cases c <;> rfl
@[simp] theorem setCursor_out (c : Cursor) (v : Word) : (s.setCursor c v).out = s.out := by cases c <;> rfl
@[simp] theorem setCursor_eBusy (c : Cursor) (v : Word) : (s.setCursor c v).eBusy = s.eBusy := by cases c <;> rfl
@[simp] theorem setCursor_eI (c : Cursor) (v : Word) : (s.setCursor c v).eI = s.eI := by cases c <;> rfl
@[simp] theorem setCursor_ePhase (c : Cursor) (v : Word) : (s.setCursor c v).ePhase = s.ePhase := by cases c <;> rfl
@[simp] theorem setCursor_eIdx (c : Cursor) (v : Word) : (s.setCursor c v).eIdx = s.eIdx := by cases c <;> rfl
@[simp] theorem setCursor_inflight (c : Cursor) (v : Word) : (s.setCursor c v).inflight = s.inflight := by cases c <;> rfl
@[simp] theorem setCursor_ordering (c : Cursor) (v : Word) : (s.setCursor c v).ordering = s.ordering := by cases c <;> rfl
@[simp] theorem setCursor_pIn (c : Cursor) (v : Word) : (s.setCursor c v).pIn = s.pIn := by cases c <;> rfl
@[simp] theorem setCursor_sIn (c : Cursor) (v : Word) : (s.setCursor c v).sIn = s.sIn := by cases c <;> rfl
@[simp] theorem setCursor_pOut (c : Cursor) (v : Word) : (s.setCursor c v).pOut = s.pOut := by cases c <;> rfl
@[simp] theorem setCursor_sOut (c : Cursor) (v : Word) : (s.setCursor c v).sOut = s.sOut := by cases c <;> rfl
@[simp] theorem setCursor_sched (c : Cursor) (v : Word) : (s.setCursor c v).sched = s.sched := by cases c <;> rfl
@[simp] theorem setCursor_choices (c : Cursor) (v : Word) : (s.setCursor c v).choices = s.choices := by cases c <;> rfl
@[simp] theorem setCursor_drawn (c : Cursor) (v : Word) : (s.setCursor c v).drawn = s.drawn := by cases c <;> rfl
@[simp] theorem setCursor_rcur_rcur (v : Word) : (s.setCursor .rcur v).rcur = v := rfl
@[simp] theorem setCursor_rcur_wcur (v : Word) : (s.setCursor .rcur v).wcur = s.wcur := rfl
@[simp] theorem setCursor_wcur_wcur (v : Word) : (s.setCursor .wcur v).wcur = v := rfl
@[simp] theorem setCursor_wcur_rcur (v : Word) : (s.setCursor .wcur v).rcur = s.rcur := rfl

/-! ### An output slot -/

@[simp] theorem outWrite_cfg (k : Nat) (v : Word) : (outWrite k v s).cfg = s.cfg := rfl
@[simp] theorem outWrite_constructed (k : Nat) (v : Word) : (outWrite k v s).constructed = s.constructed := rfl
@[simp] theorem outWrite_sample (k : Nat) (v : Word) : (outWrite k v s).sample = s.sample := rfl
@[simp] theorem outWrite_rcur (k : Nat) (v : Word) : (outWrite k v s).rcur = s.rcur := rfl
@[simp] theorem outWrite_wcur (k : Nat) (v : Word) : (outWrite k v s).wcur = s.wcur := rfl
@[simp] theorem outWrite_eBusy (k : Nat) (v : Word) : (outWrite k v s).eBusy = s.eBusy := rfl
@[simp] theorem outWrite_eI (k : Nat) (v : Word) : (outWrite k v s).eI = s.eI := rfl
@[simp] theorem outWrite_ePhase (k : Nat) (v : Word) : (outWrite k v s).ePhase = s.ePhase := rfl
@[simp] theorem outWrite_eIdx (k : Nat) (v : Word) : (outWrite k v s).eIdx = s.eIdx := rfl
@[simp] theorem outWrite_inflight (k : Nat) (v : Word) : (outWrite k v s).inflight = s.inflight := rfl
@[simp] theorem outWrite_ordering (k : Nat) (v : Word) : (outWrite k v s).ordering = s.ordering := rfl
@[simp] theorem outWrite_pIn (k : Nat) (v : Word) : (outWrite k v s).pIn = s.pIn := rfl
@[simp] theorem outWrite_sIn (k : Nat) (v : Word) : (outWrite k v s).sIn = s.sIn := rfl
@[simp] theorem outWrite_pOut (k : Nat) (v : Word) : (outWrite k v s).pOut = s.pOut := rfl
@[simp] theorem outWrite_sOut (k : Nat) (v : Word) : (outWrite k v s).sOut = s.sOut := rfl
@[simp] theorem outWrite_sched (k : Nat) (v : Word) : (outWrite k v s).sched = s.sched := rfl
@[simp] theorem outWrite_choices (k : Nat) (v : Word) : (outWrite k v s).choices = s.choices := rfl
@[simp] theorem outWrite_drawn (k : Nat) (v : Word) : (outWrite k v s).drawn = s.drawn := rfl
@[simp] theorem outWrite_out (k : Nat) (v : Word) : (outWrite k v s).out = memSet none k v s.out := rfl

/-! ### A free choice -/

@[simp] theorem draw_cfg : (draw s).2.cfg = s.cfg := by unfold draw; split <;> rfl
@[simp] theorem draw_constructed : (draw s).2.constructed = s.constructed := by unfold draw; split <;> rfl
@[simp] theorem draw_sample : (draw s).2.sample = s.sample := by unfold draw; split <;> rfl
@[simp] theorem draw_rcur : (draw s).2.rcur = s.rcur := by unfold draw; split <;> rfl
@[simp] theorem draw_wcur : (draw s).2.wcur = s.wcur := by unfold draw; split <;> rfl
@[simp] theorem draw_out : (draw s).2.out = s.out := by unfold draw; split <;> rfl
@[simp] theorem draw_eBusy : (draw s).2.eBusy = s.eBusy := by unfold draw; split <;> rfl
@[simp] theorem draw_eI : (draw s).2.eI = s.eI := by unfold draw; split <;> rfl
@[simp] theorem draw_ePhase : (draw s).2.ePhase = s.ePhase := by unfold draw; split <;> rfl
@[simp] theorem draw_eIdx : (draw s).2.eIdx = s.eIdx := by unfold draw; split <;> rfl
@[simp] theorem draw_inflight : (draw s).2.inflight = s.inflight := by unfold draw; split <;> rfl
@[simp] theorem draw_ordering : (draw s).2.ordering = s.ordering := by unfold draw; split <;> rfl
@[simp] theorem draw_pIn : (draw s).2.pIn = s.pIn := by unfold draw; split <;> rfl
@[simp] theorem draw_sIn : (draw s).2.sIn = s.sIn := by unfold draw; split <;> rfl
@[simp] theorem draw_pOut : (draw s).2.pOut = s.pOut := by unfold draw; split <;> rfl
@[simp] theorem draw_sOut : (draw s).2.sOut = s.sOut := by unfold draw; split <;> rfl
@[simp] theorem draw_sched : (draw s).2.sched = s.sched := by unfold draw; split <;> rfl

@[simp] theorem drawBetween_cfg (lo hi : Nat) : (drawBetween lo hi s).2.cfg = s.cfg := by
  unfold drawBetween; split <;> simp
@[simp] theorem drawBetween_constructed (lo hi : Nat) : (drawBetween lo hi s).2.constructed = s.constructed := by
  unfold drawBetween; split <;> simp
@[simp] theorem drawBetween_sample (lo hi : Nat) : (drawBetween lo hi s).2.sample = s.sample := by
  unfold drawBetween; split <;> simp
@[simp] theorem drawBetween_rcur (lo hi : Nat) : (drawBetween lo hi s).2.rcur = s.rcur := by
  unfold drawBetween; split <;> simp
@[simp] theorem drawBetween_wcur (lo hi : Nat) : (drawBetween lo hi s).2.wcur = s.wcur := by
  unfold drawBetween; split <;> simp
@[simp] theorem drawBetween_out (lo hi : Nat) : (drawBetween lo hi s).2.out = s.out := by
  unfold drawBetween; split <;> simp
@[simp] theorem drawBetween_eBusy (lo hi : Nat) : (drawBetween lo hi s).2.eBusy = s.eBusy := by
  unfold drawBetween; split <;> simp
@[simp] theorem drawBetween_eI (lo hi : Nat) : (drawBetween lo hi s).2.eI = s.eI := by
  unfold drawBetween; split <;> simp
@[simp] theorem drawBetween_ePhase (lo hi : Nat) : (drawBetween lo hi s).2.ePhase = s.ePhase := by
  unfold drawBetween; split <;> simp
@[simp] theorem drawBetween_eIdx (lo hi : Nat) : (drawBetween lo hi s).2.eIdx = s.eIdx := by
  unfold drawBetween; split <;> simp
@[simp] theorem drawBetween_inflight (lo hi : Nat) : (drawBetween lo hi s).2.inflight = s.inflight := by
  unfold drawBetween; split <;> simp
@[simp] theorem drawBetween_ordering (lo hi : Nat) : (drawBetween lo hi s).2.ordering = s.ordering := by
  unfold drawBetween; split <;> simp
@[simp] theorem drawBetween_pIn (lo hi : Nat) : (drawBetween lo hi s).2.pIn = s.pIn := by
  unfold drawBetween; split <;> simp
@[simp] theorem drawBetween_sIn (lo hi : Nat) : (drawBetween lo hi s).2.sIn = s.sIn := by
  unfold drawBetween; split <;> simp
@[simp] theorem drawBetween_pOut (lo hi : Nat) : (drawBetween lo hi s).2.pOut = s.pOut := by
  unfold drawBetween; split <;> simp
@[simp] theorem drawBetween_sOut (lo hi : Nat) : (drawBetween lo hi s).2.sOut = s.sOut := by
  unfold drawBetween; split <;> simp
@[simp] theorem drawBetween_sched (lo hi : Nat) : (drawBetween lo hi s).2.sched = s.sched := by
  unfold drawBetween; split <;> simp

/-! ### An atomic load -/

@[simp] theorem atomicLoad_cfg (a : Ctx) (c : Cursor) : (atomicLoad a c s).2.cfg = s.cfg := by
  unfold atomicLoad; split <;> simp
@[simp] theorem atomicLoad_constructed (a : Ctx) (c : Cursor) : (atomicLoad a c s).2.constructed = s.constructed := by
  unfold atomicLoad; split <;> simp
@[simp] theorem atomicLoad_sample (a : Ctx) (c : Cursor) : (atomicLoad a c s).2.sample = s.sample := by
  unfold atomicLoad; split <;> simp
@[simp] theorem atomicLoad_rcur (a : Ctx) (c : Cursor) : (atomicLoad a c s).2.rcur = s.rcur := by
  unfold atomicLoad; split <;> simp
@[simp] theorem atomicLoad_wcur (a : Ctx) (c : Cursor) : (atomicLoad a c s).2.wcur = s.wcur := by
  unfold atomicLoad; split <;> simp
@[simp] theorem atomicLoad_out (a : Ctx) (c : Cursor) : (atomicLoad a c s).2.out = s.out := by
  unfold atomicLoad; split <;> simp
@[simp] theorem atomicLoad_eBusy (a : Ctx) (c : Cursor) : (atomicLoad a c s).2.eBusy = s.eBusy := by
  unfold atomicLoad; split <;> simp
@[simp] theorem atomicLoad_eI (a : Ctx) (c : Cursor) : (atomicLoad a c s).2.eI = s.eI := by
  unfold atomicLoad; split <;> simp
@[simp] theorem atomicLoad_ePhase (a : Ctx) (c : Cursor) : (atomicLoad a c s).2.ePhase = s.ePhase := by
  unfold atomicLoad; split <;> simp
@[simp] theorem atomicLoad_eIdx (a : Ctx) (c : Cursor) : (atomicLoad a c s).2.eIdx = s.eIdx := by
  unfold atomicLoad; split <;> simp
@[simp] theorem atomicLoad_inflight (a : Ctx) (c : Cursor) : (atomicLoad a c s).2.inflight = s.inflight := by
  unfold atomicLoad; split <;> simp
@[simp] theorem atomicLoad_pIn (a : Ctx) (c : Cursor) : (atomicLoad a c s).2.pIn = s.pIn := by
  unfold atomicLoad; split <;> simp
@[simp] theorem atomicLoad_sIn (a : Ctx) (c : Cursor) : (atomicLoad a c s).2.sIn = s.sIn := by
  unfold atomicLoad; split <;> simp
@[simp] theorem atomicLoad_pOut (a : Ctx) (c : Cursor) : (atomicLoad a c s).2.pOut = s.pOut := by
  unfold atomicLoad; split <;> simp
@[simp] theorem atomicLoad_sOut (a : Ctx) (c : Cursor) : (atomicLoad a c s).2.sOut = s.sOut := by
  unfold atomicLoad; split <;> simp
@[simp] theorem atomicLoad_sched (a : Ctx) (c : Cursor) : (atomicLoad a c s).2.sched = s.sched := by
  unfold atomicLoad; split <;> simp

/-! ### A sample read -/

@[simp] theorem sampleRead_cfg (a : Ctx) (k : Nat) : (sampleRead a k s).2.cfg = s.cfg := by
  unfold sampleRead; split <;> [simp; (split <;> simp)]
@[simp] theorem sampleRead_constructed (a : Ctx) (k : Nat) : (sampleRead a k s).2.constructed = s.constructed := by
  unfold sampleRead; split <;> [simp; (split <;> simp)]
@[simp] theorem sampleRead_sample (a : Ctx) (k : Nat) : (sampleRead a k s).2.sample = s.sample := by
  unfold sampleRead; split <;> [simp; (split <;> simp)]
@[simp] theorem sampleRead_rcur (a : Ctx) (k : Nat) : (sampleRead a k s).2.rcur = s.rcur := by
  unfold sampleRead; split <;> [simp; (split <;> simp)]
@[simp] theorem sampleRead_wcur (a : Ctx) (k : Nat) : (sampleRead a k s).2.wcur = s.wcur := by
  unfold sampleRead; split <;> [simp; (split <;> simp)]
@[simp] theorem sampleRead_out (a : Ctx) (k : Nat) : (sampleRead a k s).2.out = s.out := by
  unfold sampleRead; split <;> [simp; (split <;> simp)]
@[simp] theorem sampleRead_eBusy (a : Ctx) (k : Nat) : (sampleRead a k s).2.eBusy = s.eBusy := by
  unfold sampleRead; split <;> [simp; (split <;> simp)]
@[simp] theorem sampleRead_eI (a : Ctx) (k : Nat) : (sampleRead a k s).2.eI = s.eI := by
  unfold sampleRead; split <;> [simp; (split <;> simp)]
@[simp] theorem sampleRead_ePhase (a : Ctx) (k : Nat) : (sampleRead a k s).2.ePhase = s.ePhase := by
  unfold sampleRead; split <;> [simp; (split <;> simp)]
@[simp] theorem sampleRead_eIdx (a : Ctx) (k : Nat) : (sampleRead a k s).2.eIdx = s.eIdx := by
  unfold sampleRead; split <;> [simp; (split <;> simp)]
@[simp] theorem sampleRead_inflight (a : Ctx) (k : Nat) : (sampleRead a k s).2.inflight = s.inflight := by
  unfold sampleRead; split <;> [simp; (split <;> simp)]
@[simp] theorem sampleRead_pIn (a : Ctx) (k : Nat) : (sampleRead a k s).2.pIn = s.pIn := by
  unfold sampleRead; split <;> [simp; (split <;> simp)]
@[simp] theorem sampleRead_sIn (a : Ctx) (k : Nat) : (sampleRead a k s).2.sIn = s.sIn := by
  unfold sampleRead; split <;> [simp; (split <;> simp)]
@[simp] theorem sampleRead_pOut (a : Ctx) (k : Nat) : (sampleRead a k s).2.pOut = s.pOut := by
  unfold sampleRead; split <;> [simp; (split <;> simp)]
@[simp] theorem sampleRead_sOut (a : Ctx) (k : Nat) : (sampleRead a k s).2.sOut = s.sOut := by
  unfold sampleRead; split <;> [simp; (split <;> simp)]
@[simp] theorem sampleRead_sched (a : Ctx) (k : Nat) : (sampleRead a k s).2.sched = s.sched := by
  unfold sampleRead; split <;> [simp; (split <;> simp)]

/-! ### An atomic store -/

@[simp] theorem atomicStore_cfg (a : Ctx) (c : Cursor) (v : Word) : (atomicStore a c v s).cfg = s.cfg := by
  unfold atomicStore; split <;> simp
@[simp] theorem atomicStore_constructed (a : Ctx) (c : Cursor) (v : Word) : (atomicStore a c v s).constructed = s.constructed := by
  unfold atomicStore; split <;> simp
@[simp] theorem atomicStore_sample (a : Ctx) (c : Cursor) (v : Word) : (atomicStore a c v s).sample = s.sample := by
  unfold atomicStore; split <;> simp
@[simp] theorem atomicStore_out (a : Ctx) (c : Cursor) (v : Word) : (atomicStore a c v s).out = s.out := by
  unfold atomicStore; split <;> simp
@[simp] theorem atomicStore_eBusy (a : Ctx) (c : Cursor) (v : Word) : (atomicStore a c v s).eBusy = s.eBusy := by
  unfold atomicStore; split <;> simp
@[simp] theorem atomicStore_eI (a : Ctx) (c : Cursor) (v : Word) : (atomicStore a c v s).eI = s.eI := by
  unfold atomicStore; split <;> simp
@[simp] theorem atomicStore_ePhase (a : Ctx) (c : Cursor) (v : Word) : (atomicStore a c v s).ePhase = s.ePhase := by
  unfold atomicStore; split <;> simp
@[simp] theorem atomicStore_eIdx (a : Ctx) (c : Cursor) (v : Word) : (atomicStore a c v s).eIdx = s.eIdx := by
  unfold atomicStore; split <;> simp
@[simp] theorem atomicStore_inflight (a : Ctx) (c : Cursor) (v : Word) : (atomicStore a c v s).inflight = s.inflight := by
  unfold atomicStore; split <;> simp
@[simp] theorem atomicStore_pIn (a : Ctx) (c : Cursor) (v : Word) : (atomicStore a c v s).pIn = s.pIn := by
  unfold atomicStore; split <;> simp
@[simp] theorem atomicStore_sIn (a : Ctx) (c : Cursor) (v : Word) : (atomicStore a c v s).sIn = s.sIn := by
  unfold atomicStore; split <;> simp
@[simp] theorem atomicStore_pOut (a : Ctx) (c : Cursor) (v : Word) : (atomicStore a c v s).pOut = s.pOut := by
  unfold atomicStore; split <;> simp
@[simp] theorem atomicStore_sOut (a : Ctx) (c : Cursor) (v : Word) : (atomicStore a c v s).sOut = s.sOut := by
  unfold atomicStore; split <;> simp
@[simp] theorem atomicStore_sched (a : Ctx) (c : Cursor) (v : Word) : (atomicStore a c v s).sched = s.sched := by
  unfold atomicStore; split <;> simp
@[simp] theorem atomicStore_choices (a : Ctx) (c : Cursor) (v : Word) : (atomicStore a c v s).choices = s.choices := by
  unfold atomicStore; split <;> simp
@[simp] theorem atomicStore_drawn (a : Ctx) (c : Cursor) (v : Word) : (atomicStore a c v s).drawn = s.drawn := by
  unfold atomicStore; split <;> simp
@[simp] theorem atomicStore_rcur_rcur (a : Ctx) (v : Word) : (atomicStore a .rcur v s).rcur = v := by
  unfold atomicStore; split <;> simp
@[simp] theorem atomicStore_rcur_wcur (a : Ctx) (v : Word) : (atomicStore a .rcur v s).wcur = s.wcur := by
  unfold atomicStore; split <;> simp
@[simp] theorem atomicStore_wcur_wcur (a : Ctx) (v : Word) : (atomicStore a .wcur v s).wcur = v := by
  unfold atomicStore; split <;> simp
@[simp] theorem atomicStore_wcur_rcur (a : Ctx) (v : Word) : (atomicStore a .wcur v s).rcur = s.rcur := by
  unfold atomicStore; split <;> simp

/-! ### A sample write -/

@[simp] theorem sampleWrite_cfg (a : Ctx) (k : Nat) (v : Word) : (sampleWrite a k v s).cfg = s.cfg := by
  unfold sampleWrite; split <;> rfl
@[simp] theorem sampleWrite_constructed (a : Ctx) (k : Nat) (v : Word) : (sampleWrite a k v s).constructed = s.constructed := by
  unfold sampleWrite; split <;> rfl
@[simp] theorem sampleWrite_rcur (a : Ctx) (k : Nat) (v : Word) : (sampleWrite a k v s).rcur = s.rcur := by
  unfold sampleWrite; split <;> rfl
@[simp] theorem sampleWrite_wcur (a : Ctx) (k : Nat) (v : Word) : (sampleWrite a k v s).wcur = s.wcur := by
  unfold sampleWrite; split <;> rfl
@[simp] theorem sampleWrite_out (a : Ctx) (k : Nat) (v : Word) : (sampleWrite a k v s).out = s.out := by
  unfold sampleWrite; split <;> rfl
@[simp] theorem sampleWrite_eBusy (a : Ctx) (k : Nat) (v : Word) : (sampleWrite a k v s).eBusy = s.eBusy := by
  unfold sampleWrite; split <;> rfl
@[simp] theorem sampleWrite_eI (a : Ctx) (k : Nat) (v : Word) : (sampleWrite a k v s).eI = s.eI := by
  unfold sampleWrite; split <;> rfl
@[simp] theorem sampleWrite_ePhase (a : Ctx) (k : Nat) (v : Word) : (sampleWrite a k v s).ePhase = s.ePhase := by
  unfold sampleWrite; split <;> rfl
@[simp] theorem sampleWrite_eIdx (a : Ctx) (k : Nat) (v : Word) : (sampleWrite a k v s).eIdx = s.eIdx := by
  unfold sampleWrite; split <;> rfl
@[simp] theorem sampleWrite_inflight (a : Ctx) (k : Nat) (v : Word) : (sampleWrite a k v s).inflight = s.inflight := by
  unfold sampleWrite; split <;> rfl
@[simp] theorem sampleWrite_pIn (a : Ctx) (k : Nat) (v : Word) : (sampleWrite a k v s).pIn = s.pIn := by
  unfold sampleWrite; split <;> rfl
@[simp] theorem sampleWrite_sIn (a : Ctx) (k : Nat) (v : Word) : (sampleWrite a k v s).sIn = s.sIn := by
  unfold sampleWrite; split <;> rfl
@[simp] theorem sampleWrite_pOut (a : Ctx) (k : Nat) (v : Word) : (sampleWrite a k v s).pOut = s.pOut := by
  unfold sampleWrite; split <;> rfl
@[simp] theorem sampleWrite_sOut (a : Ctx) (k : Nat) (v : Word) : (sampleWrite a k v s).sOut = s.sOut := by
  unfold sampleWrite; split <;> rfl
@[simp] theorem sampleWrite_sched (a : Ctx) (k : Nat) (v : Word) : (sampleWrite a k v s).sched = s.sched := by
  unfold sampleWrite; split <;> rfl
@[simp] theorem sampleWrite_choices (a : Ctx) (k : Nat) (v : Word) : (sampleWrite a k v s).choices = s.choices := by
  unfold sampleWrite; split <;> rfl
@[simp] theorem sampleWrite_drawn (a : Ctx) (k : Nat) (v : Word) : (sampleWrite a k v s).drawn = s.drawn := by
  unfold sampleWrite; split <;> rfl
@[simp] theorem sampleWrite_sample (a : Ctx) (k : Nat) (v : Word) :
    (sampleWrite a k v s).sample = memSet (sampleErased s.cfg) k v s.sample := by
  unfold sampleWrite; split <;> rfl

/-! ### What the environment adds -/

@[simp] theorem supply_cfg (m : Moves) : (supply m s).cfg = s.cfg := rfl
@[simp] theorem supply_constructed (m : Moves) : (supply m s).constructed = s.constructed := rfl
@[simp] theorem supply_sample (m : Moves) : (supply m s).sample = s.sample := rfl
@[simp] theorem supply_rcur (m : Moves) : (supply m s).rcur = s.rcur := rfl
@[simp] theorem supply_wcur (m : Moves) : (supply m s).wcur = s.wcur := rfl
@[simp] theorem supply_out (m : Moves) : (supply m s).out = s.out := rfl
@[simp] theorem supply_eBusy (m : Moves) : (supply m s).eBusy = s.eBusy := rfl
@[simp] theorem supply_eI (m : Moves) : (supply m s).eI = s.eI := rfl
@[simp] theorem supply_ePhase (m : Moves) : (supply m s).ePhase = s.ePhase := rfl
@[simp] theorem supply_eIdx (m : Moves) : (supply m s).eIdx = s.eIdx := rfl
@[simp] theorem supply_inflight (m : Moves) : (supply m s).inflight = s.inflight := rfl
@[simp] theorem supply_ordering (m : Moves) : (supply m s).ordering = s.ordering := rfl
@[simp] theorem supply_pOut (m : Moves) : (supply m s).pOut = s.pOut := rfl
@[simp] theorem supply_sOut (m : Moves) : (supply m s).sOut = s.sOut := rfl
@[simp] theorem supply_drawn (m : Moves) : (supply m s).drawn = s.drawn := rfl
@[simp] theorem supply_pIn (m : Moves) : (supply m s).pIn = s.pIn ++ m.pMore := rfl
@[simp] theorem supply_sIn (m : Moves) : (supply m s).sIn = s.sIn ++ m.sMore := rfl
@[simp] theorem supply_sched (m : Moves) : (supply m s).sched = s.sched ++ m.sched := rfl
@[simp] theorem supply_choices (m : Moves) : (supply m s).choices = s.choices ++ m.choices := rfl
@[simp] theorem supply_none : supply Moves.none s = s := by simp [supply, Moves.none]

/-! ### The response words -/

@[simp] theorem performed_ok (v : Word) : (performed v).ok = true := rfl
@[simp] theorem performed_data (v : Word) : (performed v).data = v := rfl
@[simp] theorem rejected_ok : rejected.ok = false := rfl
@[simp] theorem rejected_data : rejected.data = 0 := rfl

end Sys2Proof.Machine
end

