-- ==== Sys2Proof/Laws/Mem.lean ====
section
/-! SUPPORT. The laws of sparse data: read after write, the canonical form kept, and equal reads give equal data. -/

namespace Sys2Proof.Machine

variable {α : Type}

/-- Every listed key is above `j`. -/
abbrev memAbove (j : Nat) (m : List (Nat × α)) : Prop := ∀ e ∈ m, j < e.1

theorem memGet?_above {j k : Nat} {m : List (Nat × α)} (h : memAbove j m) (hk : k ≤ j) : memGet? k m = none := by
  induction m with
  | nil => rfl
  | cons e m ih =>
    have he := h e (by simp)
    have : e.1 ≠ k := by omega
    simp only [memGet?, if_neg this]
    exact ih fun x hx => h x (by simp [hx])

theorem memGet?_insert_same (k : Nat) (v : α) (m : List (Nat × α)) : memGet? k (memInsert k v m) = some v := by
  induction m with
  | nil => simp [memInsert, memGet?]
  | cons e m ih =>
    simp only [memInsert]
    split
    · simp [memGet?]
    · split
      · simp [memGet?]
      · next h1 h2 => rw [memGet?, if_neg (Ne.symm h2)]; exact ih

theorem memGet?_insert_other {j k : Nat} (h : j ≠ k) (v : α) (m : List (Nat × α)) :
    memGet? j (memInsert k v m) = memGet? j m := by
  induction m with
  | nil => simp [memInsert, memGet?, Ne.symm h]
  | cons e m ih =>
    simp only [memInsert]
    split
    · simp [memGet?, Ne.symm h]
    · split
      · next h2 => subst h2; simp [memGet?, Ne.symm h]
      · simp only [memGet?, ih]

theorem memGet?_erase_other {j k : Nat} (h : j ≠ k) (m : List (Nat × α)) :
    memGet? j (memErase k m) = memGet? j m := by
  induction m with
  | nil => rfl
  | cons e m ih =>
    simp only [memErase]
    split
    · next h2 => subst h2; simp [memGet?, Ne.symm h]
    · simp only [memGet?, ih]

theorem memAbove_insert {j k : Nat} (hk : j < k) (v : α) {m : List (Nat × α)} (h : memAbove j m) :
    memAbove j (memInsert k v m) := by
  induction m with
  | nil => intro e he; simp [memInsert] at he; simp [he, hk]
  | cons e m ih =>
    have ih := ih fun x hx => h x (by simp [hx])
    simp only [memInsert]
    split
    · intro x hx
      rcases List.mem_cons.1 hx with rfl | hx
      · exact hk
      · exact h x hx
    · split
      · intro x hx
        rcases List.mem_cons.1 hx with rfl | hx
        · exact hk
        · exact h x (by simp [hx])
      · intro x hx
        rcases List.mem_cons.1 hx with rfl | hx
        · exact h _ (by simp)
        · exact ih x hx

theorem memAbove_erase {j k : Nat} {m : List (Nat × α)} (h : memAbove j m) : memAbove j (memErase k m) := by
  induction m with
  | nil => exact h
  | cons e m ih =>
    have ih := ih fun x hx => h x (by simp [hx])
    simp only [memErase]
    split
    · exact fun x hx => h x (by simp [hx])
    · intro x hx
      rcases List.mem_cons.1 hx with rfl | hx
      · exact h _ (by simp)
      · exact ih x hx

variable [DecidableEq α] {erased : Option α} {bound : Nat}

/-- The canonical form of a list with a first entry, as a proposition. -/
theorem memWf_cons {k : Nat} {v : α} {m : List (Nat × α)} :
    memWf erased bound ((k, v) :: m) = true ↔
      k < bound ∧ some v ≠ erased ∧ memAbove k m ∧ memWf erased bound m = true := by
  simp [memWf, memAbove, and_assoc]

theorem memGet?_erase_same {k : Nat} {m : List (Nat × α)} (h : memWf erased bound m = true) :
    memGet? k (memErase k m) = none := by
  induction m with
  | nil => rfl
  | cons e m ih =>
    obtain ⟨_, _, ha, hw⟩ := memWf_cons.1 h
    simp only [memErase]
    split
    · next h2 => subst h2; exact memGet?_above ha (Nat.le_refl _)
    · next h2 => rw [memGet?, if_neg (Ne.symm h2)]; exact ih hw

/-- A read of the written key: the value, or no entry where the value is the erased one. -/
theorem memGet?_set_same {k : Nat} {v : α} {m : List (Nat × α)} (h : memWf erased bound m = true) :
    memGet? k (memSet erased k v m) = if some v = erased then none else some v := by
  unfold memSet
  split
  · exact memGet?_erase_same h
  · exact memGet?_insert_same k v m

/-- A read of another key. -/
theorem memGet?_set_other {j k : Nat} (h : j ≠ k) (v : α) (m : List (Nat × α)) :
    memGet? j (memSet erased k v m) = memGet? j m := by
  unfold memSet
  split
  · exact memGet?_erase_other h m
  · exact memGet?_insert_other h v m

/-- Every write of a key below the bound keeps the canonical form. -/
theorem memWf_set {k : Nat} {v : α} {m : List (Nat × α)} (hk : k < bound) (h : memWf erased bound m = true) :
    memWf erased bound (memSet erased k v m) = true := by
  unfold memSet
  split
  · induction m with
    | nil => rfl
    | cons e m ih =>
      obtain ⟨h1, h2, ha, hw⟩ := memWf_cons.1 h
      simp only [memErase]
      split
      · exact hw
      · exact memWf_cons.2 ⟨h1, h2, memAbove_erase ha, ih hw⟩
  · next hv =>
    induction m with
    | nil => exact memWf_cons.2 ⟨hk, hv, by simp [memAbove], rfl⟩
    | cons e m ih =>
      obtain ⟨h1, h2, ha, hw⟩ := memWf_cons.1 h
      simp only [memInsert]
      split
      · next hlt =>
        refine memWf_cons.2 ⟨hk, hv, ?_, h⟩
        intro x hx
        rcases List.mem_cons.1 hx with rfl | hx
        · exact hlt
        · exact Nat.lt_trans hlt (ha x hx)
      · split
        · next he => subst he; exact memWf_cons.2 ⟨hk, hv, ha, hw⟩
        · exact memWf_cons.2 ⟨h1, h2, memAbove_insert (by omega) v ha, ih hw⟩

theorem memGet?_ne_erased {k : Nat} {v : α} {m : List (Nat × α)} (h : memWf erased bound m = true)
    (hg : memGet? k m = some v) : some v ≠ erased ∧ k < bound := by
  induction m with
  | nil => simp [memGet?] at hg
  | cons e m ih =>
    obtain ⟨h1, h2, _, hw⟩ := memWf_cons.1 h
    simp only [memGet?] at hg
    split at hg
    · next he => subst he; simp only [Option.some.injEq] at hg; subst hg; exact ⟨h2, h1⟩
    · exact ih hw hg

/-- A read of a canonical list after a write, as a value with a default: `d` is what a key not listed stands for. -/
theorem memGetD_set {j k : Nat} {v d : α} {m : List (Nat × α)} (h : memWf erased bound m = true)
    (hd : some v = erased → v = d) :
    (memGet? j (memSet erased k v m)).getD d = if j = k then v else (memGet? j m).getD d := by
  by_cases hjk : j = k
  · subst hjk
    rw [memGet?_set_same h]
    split
    · next hv => simp [hd hv]
    · simp
  · rw [memGet?_set_other hjk, if_neg hjk]

/-- Two lists in canonical form with the same entry at every key are the same list. -/
theorem memWf_ext {m m' : List (Nat × α)} (h : memWf erased bound m = true) (h' : memWf erased bound m' = true)
    (hg : ∀ k, memGet? k m = memGet? k m') : m = m' := by
  induction m generalizing m' with
  | nil =>
    cases m' with
    | nil => rfl
    | cons e m' => simpa [memGet?] using hg e.1
  | cons e m ih =>
    obtain ⟨_, _, ha, hw⟩ := memWf_cons.1 h
    cases m' with
    | nil => simpa [memGet?] using hg e.1
    | cons e' m' =>
      obtain ⟨_, _, ha', hw'⟩ := memWf_cons.1 h'
      have hk : e.1 = e'.1 := by
        rcases Nat.lt_trichotomy e.1 e'.1 with hlt | heq | hgt
        · have := hg e.1
          rw [memGet?, if_pos rfl, memGet?, if_neg (by omega), memGet?_above ha' (by omega)] at this
          cases this
        · exact heq
        · have := hg e'.1
          rw [memGet?, if_neg (by omega), memGet?_above ha (by omega), memGet?, if_pos rfl] at this
          cases this
      obtain ⟨k, v⟩ := e
      obtain ⟨k', v'⟩ := e'
      simp only at hk
      subst hk
      have hv : v = v' := by simpa [memGet?] using hg k
      subst hv
      congr 1
      refine ih hw hw' fun j => ?_
      by_cases hj : j = k
      · subst hj; rw [memGet?_above ha (Nat.le_refl _), memGet?_above ha' (Nat.le_refl _)]
      · have := hg j
        rwa [memGet?, if_neg (Ne.symm hj), memGet?, if_neg (Ne.symm hj)] at this

end Sys2Proof.Machine
end

