-- ==== Sys2Proof/Laws/Views.lean ====
section
/-! SUPPORT. The laws of views and histories (R63). -/

namespace Sys2Proof.Machine

@[simp] theorem view_start_cursor (c : Cursor) : View.start.cursor c = 0 := by cases c <;> rfl
@[simp] theorem view_start_slot (k : Nat) : View.start.slot k = 0 := rfl

@[simp] theorem setCursor_cursor_same (v : View) (c : Cursor) (j : Nat) : (v.setCursor c j).cursor c = j := by
  cases c <;> rfl

theorem setCursor_cursor_other {c c' : Cursor} (h : c' ≠ c) (v : View) (j : Nat) :
    (v.setCursor c j).cursor c' = v.cursor c' := by
  cases c <;> cases c' <;> first | rfl | exact absurd rfl h

@[simp] theorem setCursor_sampleList (v : View) (c : Cursor) (j : Nat) : (v.setCursor c j).sample = v.sample := by
  cases c <;> rfl

@[simp] theorem setCursor_slot (v : View) (c : Cursor) (j k : Nat) : (v.setCursor c j).slot k = v.slot k := by
  simp [View.slot]

@[simp] theorem setSlot_cursor (v : View) (k j : Nat) (c : Cursor) : (v.setSlot k j).cursor c = v.cursor c := by
  cases c <;> rfl

/-- The positions of a view after one is replaced. -/
theorem setSlot_slot {v : View} {bound : Nat} (h : memWf (some 0) bound v.sample = true) (k j i : Nat) :
    (v.setSlot k j).slot i = if i = k then j else v.slot i :=
  memGetD_set h fun hj => Option.some.inj hj

theorem raiseSlots_wf {bound : Nat} {msg m : List (Nat × Nat)} (hmsg : memWf (some 0) bound msg = true)
    (hm : memWf (some 0) bound m = true) : memWf (some 0) bound (raiseSlots msg m) = true := by
  induction msg generalizing m with
  | nil => exact hm
  | cons e msg ih =>
    obtain ⟨h1, _, _, hw⟩ := memWf_cons.1 hmsg
    exact ih hw (memWf_set h1 hm)

/-- Raising takes the later of two positions, slot by slot. -/
theorem raiseSlots_get {bound : Nat} {msg m : List (Nat × Nat)} (hmsg : memWf (some 0) bound msg = true)
    (hm : memWf (some 0) bound m = true) (i : Nat) :
    (memGet? i (raiseSlots msg m)).getD 0 = max ((memGet? i m).getD 0) ((memGet? i msg).getD 0) := by
  induction msg generalizing m with
  | nil => simp [raiseSlots, memGet?]
  | cons e msg ih =>
    obtain ⟨k, j⟩ := e
    obtain ⟨h1, _, ha, hw⟩ := memWf_cons.1 hmsg
    have hset : ∀ x, (memGet? i (memSet (some 0) k x m)).getD 0 = if i = k then x else (memGet? i m).getD 0 :=
      fun x => memGetD_set hm fun hx => Option.some.inj hx
    rw [raiseSlots, ih hw (memWf_set h1 hm), hset]
    by_cases hik : i = k
    · subst hik
      rw [memGet?_above ha (Nat.le_refl _)]
      simp [memGet?]
    · simp [memGet?, hik, Ne.symm hik]

@[simp] theorem raise_cursor (v msg : View) (c : Cursor) : (v.raise msg).cursor c = max (v.cursor c) (msg.cursor c) := by
  cases c <;> rfl

/-- R63: a raised view is at the later of the two positions of every slot. -/
theorem raise_slot {bound : Nat} {v msg : View} (hv : memWf (some 0) bound v.sample = true)
    (hmsg : memWf (some 0) bound msg.sample = true) (k : Nat) :
    (v.raise msg).slot k = max (v.slot k) (msg.slot k) :=
  raiseSlots_get hmsg hv k

@[simp] theorem setView_view_same (o : RaState) (a : Ctx) (v : View) : (o.setView a v).view a = v := by cases a <;> rfl

theorem setView_view_other {a b : Ctx} (h : b ≠ a) (o : RaState) (v : View) : (o.setView a v).view b = o.view b := by
  cases a <;> cases b <;> first | rfl | exact absurd rfl h

@[simp] theorem setView_rcur (o : RaState) (a : Ctx) (v : View) : (o.setView a v).rcur = o.rcur := by cases a <;> rfl
@[simp] theorem setView_wcur (o : RaState) (a : Ctx) (v : View) : (o.setView a v).wcur = o.wcur := by cases a <;> rfl
@[simp] theorem setView_sample (o : RaState) (a : Ctx) (v : View) : (o.setView a v).sample = o.sample := by
  cases a <;> rfl
@[simp] theorem setView_history (o : RaState) (a : Ctx) (v : View) (c : Cursor) :
    (o.setView a v).history c = o.history c := by cases a <;> cases c <;> rfl
@[simp] theorem setView_olderSamples (o : RaState) (a : Ctx) (v : View) (k : Nat) :
    (o.setView a v).olderSamples k = o.olderSamples k := by simp [RaState.olderSamples]

@[simp] theorem setHistory_history_same (o : RaState) (c : Cursor) (h : CursorHistory) :
    (o.setHistory c h).history c = h := by cases c <;> rfl
@[simp] theorem setHistory_view (o : RaState) (c : Cursor) (h : CursorHistory) (a : Ctx) :
    (o.setHistory c h).view a = o.view a := by cases c <;> cases a <;> rfl
@[simp] theorem setHistory_sample (o : RaState) (c : Cursor) (h : CursorHistory) :
    (o.setHistory c h).sample = o.sample := by cases c <;> rfl
@[simp] theorem setHistory_olderSamples (o : RaState) (c : Cursor) (h : CursorHistory) (k : Nat) :
    (o.setHistory c h).olderSamples k = o.olderSamples k := by simp [RaState.olderSamples]

/-- The newest entry of a history is the register's value with the newest message. -/
@[simp] theorem entry_last (h : CursorHistory) (cell : Word) : h.entry cell h.last = (cell, h.msg) := by
  simp [CursorHistory.entry, CursorHistory.last]

/-- Every entry is an older one or the newest. -/
theorem entry_cases (h : CursorHistory) (cell : Word) (j : Nat) :
    h.entry cell j ∈ h.older ∨ h.entry cell j = (cell, h.msg) := by
  unfold CursorHistory.entry
  split
  · next e he => exact .inl (List.mem_of_getElem? he)
  · exact .inr rfl

@[simp] theorem sampleEntry_last (older : List Word) (cell : Word) : sampleEntry older cell older.length = cell := by
  simp [sampleEntry]

end Sys2Proof.Machine
end

