-- ==== Sys2Proof/Laws/Ops.lean ====
section
/-! SUPPORT. One spec lemma a shared operation: everything it can answer, said once. -/

namespace Sys2Proof.Machine

/-! ### Free choices -/

@[simp] theorem draw_listed (s : State) (n : Nat) (rest : List Nat) :
    draw { s with choices := n :: rest } = (n, { s with choices := rest }) := rfl

/-- A draw changes the record of choices alone. -/
theorem draw_frame (s : State) : ∃ cs d, (draw s).2 = { s with choices := cs, drawn := d } := by
  unfold draw
  split
  · exact ⟨_, _, rfl⟩
  · exact ⟨_, _, rfl⟩

theorem drawBetween_frame (lo hi : Nat) (s : State) :
    ∃ cs d, (drawBetween lo hi s).2 = { s with choices := cs, drawn := d } := by
  unfold drawBetween
  split
  · exact draw_frame s
  · exact ⟨_, _, rfl⟩

/-- What is drawn lies between the bounds. -/
theorem drawBetween_mem {lo hi : Nat} (h : lo ≤ hi) (s : State) :
    lo ≤ (drawBetween lo hi s).1 ∧ (drawBetween lo hi s).1 ≤ hi := by
  unfold drawBetween
  split
  · have := Nat.mod_lt (draw s).1 (show 0 < hi - lo + 1 by omega)
    dsimp only
    omega
  · dsimp only; omega

@[simp] theorem drawBetween_single (j : Nat) (s : State) : drawBetween j j s = (j, s) := by simp [drawBetween]

/-- Every number between the bounds can be drawn: the choice `j - lo` yields `j`. -/
theorem drawBetween_admits {lo hi j : Nat} (h1 : lo ≤ j) (h2 : j ≤ hi) (s : State) (rest : List Nat) :
    (drawBetween lo hi { s with choices := (j - lo) :: rest }).1 = j := by
  have hm : (j - lo) % (hi - lo + 1) = j - lo := Nat.mod_eq_of_lt (by omega)
  unfold drawBetween
  split
  · simp only [draw, hm]
    omega
  · dsimp only; omega

/-! ### Admission to a port -/

/-- A port accepts a command exactly when `CONSTRUCT` is done and no command of the port is in flight. -/
theorem accepts_iff (s : State) (p : Port) : s.accepts p = true ↔ s.constructed = true ∧ s.portBusy p = false := by
  simp [State.accepts]

/-- The P-port accepts a command when no `SST` is in flight. -/
theorem accepts_pPort_iff (s : State) :
    s.accepts .pPort = true ↔ s.constructed = true ∧ s.inflight = none := by
  simp [State.accepts, State.portBusy]

/-- The S-port accepts a command when no drain is in progress. -/
theorem accepts_sPort_iff (s : State) :
    s.accepts .sPort = true ↔ s.constructed = true ∧ s.eBusy = false := by
  simp [State.accepts, State.portBusy]

theorem onPort_accepts {p : Port} {s : State} (h : s.accepts p = true) (k : Result) : onPort p s k = k := by
  obtain ⟨h1, h2⟩ := (accepts_iff s p).1 h
  simp [onPort, h1, h2]

/-- What a meaning can answer: the command's own result on a port that accepts it, a refusal elsewhere. -/
theorem onPort_next {p : Port} {s t : State} {k : Result} (h : onPort p s k = .next t) :
    s.accepts p = true ∧ k = .next t := by
  unfold onPort at h
  split at h
  · cases h
  · split at h
    · cases h
    · next h1 h2 => exact ⟨by simp_all [State.accepts], h⟩

/-! ### Loads and stores -/

theorem atomicLoad_sc {s : State} (h : s.cfg.memOrder = .sc) (a : Ctx) (c : Cursor) :
    atomicLoad a c s = (s.cursor c, s) := by
  simp [atomicLoad, h]

/-- Under `ra` a cursor load reads a visible entry and raises the loading context's view to it and its message. -/
theorem atomicLoad_ra {s : State} (h : s.cfg.memOrder = .ra) (a : Ctx) (c : Cursor) :
    ∃ j cs d, j = (drawBetween ((s.ordering.view a).cursor c) (s.ordering.history c).last s).1 ∧
      atomicLoad a c s =
        (((s.ordering.history c).entry (s.cursor c) j).1,
          { s with
            choices := cs
            drawn := d
            ordering := s.ordering.setView a
              (((s.ordering.view a).setCursor c j).raise ((s.ordering.history c).entry (s.cursor c) j).2) }) := by
  obtain ⟨cs, d, hf⟩ := drawBetween_frame ((s.ordering.view a).cursor c) (s.ordering.history c).last s
  refine ⟨_, cs, d, rfl, ?_⟩
  simp only [atomicLoad, h, hf]

theorem atomicStore_sc {s : State} (h : s.cfg.memOrder = .sc) (a : Ctx) (c : Cursor) (v : Word) :
    atomicStore a c v s = s.setCursor c v := by
  simp [atomicStore, h]

theorem atomicStore_ra {s : State} (h : s.cfg.memOrder = .ra) (a : Ctx) (c : Cursor) (v : Word) :
    atomicStore a c v s = { s.setCursor c v with ordering := cursorStoreOrdering a c (s.cursor c) s.ordering } := by
  simp [atomicStore, h]

/-- With no `SST` in flight no slot is marked. -/
theorem marked_of_none {s : State} (h : s.inflight = none) (k : Nat) : s.marked k = false := by
  simp [State.marked, h]

theorem sampleRead_sc {s : State} {k : Nat} (h : s.cfg.memOrder = .sc) (hm : s.marked k = false) (a : Ctx) :
    sampleRead a k s = (s.sampleCell k, s) := by
  simp [sampleRead, h, hm]

/-- A read of a marked slot answers a draw and touches nothing else (R58). -/
theorem sampleRead_marked {s : State} {k : Nat} (hm : s.marked k = true) (a : Ctx) :
    sampleRead a k s = (BitVec.ofNat 32 (draw s).1, (draw s).2) := by
  simp [sampleRead, hm]

/-- Under `ra` a sample read takes a visible entry and moves the reading context's view to it. -/
theorem sampleRead_ra {s : State} {k : Nat} (h : s.cfg.memOrder = .ra) (hm : s.marked k = false) (a : Ctx) :
    ∃ j cs d, j = (drawBetween ((s.ordering.view a).slot k) (s.ordering.olderSamples k).length s).1 ∧
      sampleRead a k s =
        (sampleEntry (s.ordering.olderSamples k) (s.sampleCell k) j,
          { s with
            choices := cs
            drawn := d
            ordering := s.ordering.setView a ((s.ordering.view a).setSlot k j) }) := by
  obtain ⟨cs, d, hf⟩ := drawBetween_frame ((s.ordering.view a).slot k) (s.ordering.olderSamples k).length s
  refine ⟨_, cs, d, rfl, ?_⟩
  simp [sampleRead, hm, h, hf]

theorem sampleWrite_sc {s : State} (h : s.cfg.memOrder = .sc) (a : Ctx) (k : Nat) (v : Word) :
    sampleWrite a k v s = { s with sample := memSet (sampleErased s.cfg) k v s.sample } := by
  simp [sampleWrite, h]

theorem sampleWrite_ra {s : State} (h : s.cfg.memOrder = .ra) (a : Ctx) (k : Nat) (v : Word) :
    sampleWrite a k v s =
      { s with
        sample := memSet (sampleErased s.cfg) k v s.sample
        ordering := sampleStoreOrdering a k (s.sampleCell k) s.ordering } := by
  simp [sampleWrite, h]

/-- A load leaves everything but the choices and the bookkeeping of `ra` as it was. -/
theorem atomicLoad_frame (a : Ctx) (c : Cursor) (s : State) :
    ∃ o cs d, (atomicLoad a c s).2 = { s with ordering := o, choices := cs, drawn := d } := by
  cases h : s.cfg.memOrder with
  | sc => rw [atomicLoad_sc h]; exact ⟨_, _, _, rfl⟩
  | ra =>
    obtain ⟨j, cs, d, _, he⟩ := atomicLoad_ra h a c
    rw [he]
    exact ⟨_, cs, d, rfl⟩

theorem sampleRead_frame (a : Ctx) (k : Nat) (s : State) :
    ∃ o cs d, (sampleRead a k s).2 = { s with ordering := o, choices := cs, drawn := d } := by
  cases hm : s.marked k with
  | true =>
    rw [sampleRead_marked hm]
    obtain ⟨cs, d, he⟩ := draw_frame s
    exact ⟨_, cs, d, he⟩
  | false =>
    cases h : s.cfg.memOrder with
    | sc => rw [sampleRead_sc h hm]; exact ⟨_, _, _, rfl⟩
    | ra =>
      obtain ⟨j, cs, d, _, he⟩ := sampleRead_ra h hm a
      rw [he]
      exact ⟨_, cs, d, rfl⟩

/-! ### Storage cells -/

theorem sampleErased_reset {cfg : Config.Params} {v : Word} {k : Nat} (h : some v = sampleErased cfg) :
    v = sampleResetValue cfg k := by
  cases hz : cfg.sampleReset with
  | zero => simpa [sampleErased, sampleResetValue, hz] using h
  | unspecified => simp [sampleErased, hz] at h

/-- A sample read after a sample write: the written slot holds the value, every other slot what it held. -/
theorem sampleCell_write {s : State} (hwf : memWf (sampleErased s.cfg) Config.C s.sample = true)
    (a : Ctx) (k : Nat) (v : Word) (j : Nat) :
    (sampleWrite a k v s).sampleCell j = if j = k then v else s.sampleCell j := by
  unfold State.sampleCell
  rw [sampleWrite_sample, sampleWrite_cfg]
  by_cases hjk : j = k
  · subst hjk
    exact memGetD_set hwf sampleErased_reset |>.trans (by simp)
  · rw [memGet?_set_other hjk, if_neg hjk]

/-- An output read after an output write. -/
theorem outCell_write {s : State} (hwf : memWf none Config.Q s.out = true) (k : Nat) (v : Word) (j : Nat) :
    (outWrite k v s).outCell j = if j = k then v else s.outCell j := by
  unfold State.outCell
  rw [outWrite_out]
  by_cases hjk : j = k
  · subst hjk
    rw [memGet?_set_same hwf]
    simp
  · rw [memGet?_set_other hjk, if_neg hjk]

/-! ### Arithmetic and operands -/

/-- R119, R144: the advance stays in range. -/
theorem nextIndex_lt (v : Word) : (nextIndex v).toNat < Config.C := by
  have : (v.toNat + 1) % Config.C < Config.C := Nat.mod_lt _ (by decide)
  simp only [nextIndex, BitVec.toNat_ofNat]
  exact Nat.lt_of_le_of_lt (Nat.mod_le _ _) this

theorem nextIndex_toNat (v : Word) : (nextIndex v).toNat = (v.toNat + 1) % Config.C := by
  have : (v.toNat + 1) % Config.C < Config.C := Nat.mod_lt _ (by decide)
  simp only [nextIndex, BitVec.toNat_ofNat]
  exact Nat.mod_eq_of_lt (Nat.lt_trans this (by decide))

/-- R118: a range test that fails. -/
theorem outOfRange_of_le {index : Word} {bound : Nat} (h : bound ≤ index.toNat) : outOfRange index bound = true := by
  simpa [outOfRange] using h

/-- R118: a range test that passes. -/
theorem outOfRange_of_lt {index : Word} {bound : Nat} (h : index.toNat < bound) : outOfRange index bound = false := by
  simpa [outOfRange] using h

theorem sampleSlot?_some {index : Word} (h : index.toNat < Config.C) : sampleSlot? index = some index.toNat := by
  simp [sampleSlot?, outOfRange_of_lt h]

theorem sampleSlot?_none {index : Word} (h : Config.C ≤ index.toNat) : sampleSlot? index = none := by
  simp [sampleSlot?, outOfRange_of_le h]

theorem sampleSlot?_eq {index : Word} {k : Nat} (h : sampleSlot? index = some k) :
    k = index.toNat ∧ index.toNat < Config.C := by
  by_cases hlt : index.toNat < Config.C
  · rw [sampleSlot?_some hlt] at h
    exact ⟨(Option.some.inj h).symm, hlt⟩
  · rw [sampleSlot?_none (by omega)] at h
    cases h

theorem outSlot?_some {index : Word} (h : index.toNat < Config.Q) : outSlot? index = some index.toNat := by
  simp [outSlot?, outOfRange_of_lt h]

theorem outSlot?_none {index : Word} (h : Config.Q ≤ index.toNat) : outSlot? index = none := by
  simp [outSlot?, outOfRange_of_le h]

end Sys2Proof.Machine
end

