-- ==== Sys2Proof/Laws/Exec.lean ====
section
/-! SUPPORT. What each meaning answers on a port that accepts it, and the inversion of exec. -/

namespace Sys2Proof.Machine

variable {s t : State}

theorem execRcld_accepts (h : s.accepts .pPort = true) :
    execRcld s = .next (respond .pPort (performed (atomicLoad .producer .rcur s).1) (atomicLoad .producer .rcur s).2) :=
  onPort_accepts h _

theorem execWcld_accepts (h : s.accepts .pPort = true) :
    execWcld s = .next (respond .pPort (performed (atomicLoad .producer .wcur s).1) (atomicLoad .producer .wcur s).2) :=
  onPort_accepts h _

theorem execRcst_accepts (h : s.accepts .pPort = true) (index : Word) :
    execRcst index s = .next (if outOfRange index Config.C then reject .pPort s
      else respond .pPort (performed 0) (atomicStore .producer .rcur index s)) := by
  rw [execRcst, onPort_accepts h]; split <;> rfl

theorem execWcst_accepts (h : s.accepts .pPort = true) (index : Word) :
    execWcst index s = .next (if outOfRange index Config.C then reject .pPort s
      else respond .pPort (performed 0) (atomicStore .producer .wcur index s)) := by
  rw [execWcst, onPort_accepts h]; split <;> rfl

theorem execSld_inRange (h : s.accepts .pPort = true) {index : Word} (hi : index.toNat < Config.C) :
    execSld index s = .next (respond .pPort (performed (sampleRead .producer index.toNat s).1)
      (sampleRead .producer index.toNat s).2) := by
  rw [execSld, onPort_accepts h, sampleSlot?_some hi]

theorem execSld_outOfRange (h : s.accepts .pPort = true) {index : Word} (hi : Config.C ≤ index.toNat) :
    execSld index s = .next (reject .pPort s) := by
  rw [execSld, onPort_accepts h, sampleSlot?_none hi]

theorem execSst_inRange (h : s.accepts .pPort = true) {index : Word} (hi : index.toNat < Config.C) (data : Word) :
    execSst index data s = .next (if s.cfg.sampleTearing then { s with inflight := some (index, data) }
      else storeSample index.toNat data s) := by
  rw [execSst, onPort_accepts h, sampleSlot?_some hi]
  dsimp only
  split <;> rfl

theorem execSst_outOfRange (h : s.accepts .pPort = true) {index : Word} (hi : Config.C ≤ index.toNat) (data : Word) :
    execSst index data s = .next (reject .pPort s) := by
  rw [execSst, onPort_accepts h, sampleSlot?_none hi]

theorem execDrain_accepts (h : s.accepts .sPort = true) :
    execDrain s = .next { s with eBusy := true, eI := 0, ePhase := .l } :=
  onPort_accepts h _

theorem execOutld_inRange (h : s.accepts .sPort = true) {index : Word} (hi : index.toNat < Config.Q) :
    execOutld index s = .next (respond .sPort (performed (s.outCell index.toNat)) s) := by
  rw [execOutld, onPort_accepts h, outSlot?_some hi]

theorem execOutld_outOfRange (h : s.accepts .sPort = true) {index : Word} (hi : Config.Q ≤ index.toNat) :
    execOutld index s = .next (reject .sPort s) := by
  rw [execOutld, onPort_accepts h, outSlot?_none hi]

/-- R64, R110: a command on a port that accepts it always answers a next state. -/
theorem exec_completes (i : Instr) (h : s.accepts i.port = true) : ∃ t, exec i s = .next t := by
  cases i with
  | rcld => exact ⟨_, execRcld_accepts h⟩
  | rcst index => exact ⟨_, execRcst_accepts h index⟩
  | wcld => exact ⟨_, execWcld_accepts h⟩
  | wcst index => exact ⟨_, execWcst_accepts h index⟩
  | sld index =>
    by_cases hi : index.toNat < Config.C
    · exact ⟨_, execSld_inRange h hi⟩
    · exact ⟨_, execSld_outOfRange h (Nat.le_of_not_lt hi)⟩
  | sst index data =>
    by_cases hi : index.toNat < Config.C
    · exact ⟨_, execSst_inRange h hi data⟩
    · exact ⟨_, execSst_outOfRange h (Nat.le_of_not_lt hi) data⟩
  | drain => exact ⟨_, execDrain_accepts h⟩
  | outld index =>
    by_cases hi : index.toNat < Config.Q
    · exact ⟨_, execOutld_inRange h hi⟩
    · exact ⟨_, execOutld_outOfRange h (Nat.le_of_not_lt hi)⟩

/-- A command that answers a next state was accepted. -/
theorem exec_next_accepts {i : Instr} (h : exec i s = .next t) : s.accepts i.port = true := by
  cases i <;> exact (onPort_next h).1

/-- Everything a command can answer: its result, or the rejection of an operand out of range (R118, R148). -/
inductive ExecResult (s : State) : Instr → State → Prop where
  | rcld : ExecResult s .rcld (respond .pPort (performed (atomicLoad .producer .rcur s).1) (atomicLoad .producer .rcur s).2)
  | wcld : ExecResult s .wcld (respond .pPort (performed (atomicLoad .producer .wcur s).1) (atomicLoad .producer .wcur s).2)
  | rcst {index : Word} (hi : index.toNat < Config.C) :
      ExecResult s (.rcst index) (respond .pPort (performed 0) (atomicStore .producer .rcur index s))
  | wcst {index : Word} (hi : index.toNat < Config.C) :
      ExecResult s (.wcst index) (respond .pPort (performed 0) (atomicStore .producer .wcur index s))
  | sld {index : Word} (hi : index.toNat < Config.C) :
      ExecResult s (.sld index) (respond .pPort (performed (sampleRead .producer index.toNat s).1)
        (sampleRead .producer index.toNat s).2)
  | sstBegin {index data : Word} (hi : index.toNat < Config.C) (ht : s.cfg.sampleTearing = true) :
      ExecResult s (.sst index data) { s with inflight := some (index, data) }
  | sst {index data : Word} (hi : index.toNat < Config.C) (ht : s.cfg.sampleTearing = false) :
      ExecResult s (.sst index data) (storeSample index.toNat data s)
  | drain : ExecResult s .drain { s with eBusy := true, eI := 0, ePhase := .l }
  | outld {index : Word} (hi : index.toNat < Config.Q) :
      ExecResult s (.outld index) (respond .sPort (performed (s.outCell index.toNat)) s)
  | rejected {i : Instr} (hi : i.wellFormed = false) : ExecResult s i (reject i.port s)

/-- The inversion of exec. -/
theorem exec_cases {i : Instr} (h : exec i s = .next t) : s.accepts i.port = true ∧ ExecResult s i t := by
  have ha := exec_next_accepts h
  refine ⟨ha, ?_⟩
  cases i with
  | rcld => rw [exec, execRcld_accepts ha] at h; cases h; exact .rcld
  | wcld => rw [exec, execWcld_accepts ha] at h; cases h; exact .wcld
  | rcst index =>
    rw [exec, execRcst_accepts ha] at h
    cases h
    by_cases hi : index.toNat < Config.C
    · rw [outOfRange_of_lt hi]; exact .rcst hi
    · rw [outOfRange_of_le (Nat.le_of_not_lt hi)]; exact .rejected (by simpa [Instr.wellFormed] using hi)
  | wcst index =>
    rw [exec, execWcst_accepts ha] at h
    cases h
    by_cases hi : index.toNat < Config.C
    · rw [outOfRange_of_lt hi]; exact .wcst hi
    · rw [outOfRange_of_le (Nat.le_of_not_lt hi)]; exact .rejected (by simpa [Instr.wellFormed] using hi)
  | sld index =>
    by_cases hi : index.toNat < Config.C
    · rw [exec, execSld_inRange ha hi] at h; cases h; exact .sld hi
    · rw [exec, execSld_outOfRange ha (Nat.le_of_not_lt hi)] at h
      cases h; exact .rejected (by simpa [Instr.wellFormed] using hi)
  | sst index data =>
    by_cases hi : index.toNat < Config.C
    · rw [exec, execSst_inRange ha hi] at h
      cases h
      cases ht : s.cfg.sampleTearing with
      | true => exact .sstBegin hi ht
      | false => exact .sst hi ht
    · rw [exec, execSst_outOfRange ha (Nat.le_of_not_lt hi)] at h
      cases h; exact .rejected (by simpa [Instr.wellFormed] using hi)
  | drain => rw [exec, execDrain_accepts ha] at h; cases h; exact .drain
  | outld index =>
    by_cases hi : index.toNat < Config.Q
    · rw [exec, execOutld_inRange ha hi] at h; cases h; exact .outld hi
    · rw [exec, execOutld_outOfRange ha (Nat.le_of_not_lt hi)] at h
      cases h; exact .rejected (by simpa [Instr.wellFormed] using hi)

end Sys2Proof.Machine
end

