-- ==== Sys2Proof/Laws/Step.lean ====
section
/-! SUPPORT. The inversion of step: everything one step can do, said once. -/

namespace Sys2Proof.Machine

variable {s t : State}

/-- Choosing the agent changes the schedule and the record of choices alone. -/
theorem nextAgent_frame {a : Agent} {s' : State} (h : nextAgent s = some (a, s')) :
    ∃ sc cs d, s' = { s with sched := sc, choices := cs, drawn := d } := by
  unfold nextAgent at h
  split at h
  · cases h; exact ⟨_, _, _, rfl⟩
  · split at h
    · cases h
    · next b more _ =>
      simp only [Option.some.injEq, Prod.mk.injEq] at h
      obtain ⟨_, rfl⟩ := h
      obtain ⟨cs, d, he⟩ := drawBetween_frame 0 more.length s
      exact ⟨s.sched, cs, d, by rw [he]⟩

/-- A listed schedule says who moves next. -/
theorem nextAgent_listed {a : Agent} {rest : List Agent} (h : s.sched = a :: rest) :
    nextAgent s = some (a, { s with sched := rest }) := by
  simp [nextAgent, h]

/-- With nothing scheduled and one agent enabled, that agent moves next and nothing is drawn. -/
theorem nextAgent_single {a : Agent} (h : s.sched = []) (he : enabledAgents s = [a]) : nextAgent s = some (a, s) := by
  simp [nextAgent, h, he]

theorem step_of_nextAgent {a : Agent} {s' : State} (h : nextAgent s = some (a, s')) : step s = turn a s' := by
  simp [step, h]

theorem movesNext_some {a : Agent} (h : movesNext s = some a) : ∃ s', nextAgent s = some (a, s') := by
  unfold movesNext at h
  cases hn : nextAgent s with
  | none => rw [hn] at h; cases h
  | some p =>
    rw [hn] at h
    obtain ⟨b, s'⟩ := p
    cases h
    exact ⟨s', rfl⟩

theorem microR_next (h : microR s = .next t) :
    s.eIdx.toNat < Config.C ∧ s.eI < Config.Q ∧
      t = { outWrite s.eI (sampleRead .consumer s.eIdx.toNat s).1 (sampleRead .consumer s.eIdx.toNat s).2 with
        ePhase := .s } := by
  unfold microR at h
  split at h
  · cases h
  · next k hk =>
    obtain ⟨rfl, hlt⟩ := sampleSlot?_eq hk
    split at h
    · cases h
    · next hq => cases h; exact ⟨hlt, Nat.lt_of_not_le hq, rfl⟩

theorem microR_inRange (h1 : s.eIdx.toNat < Config.C) (h2 : s.eI < Config.Q) :
    microR s = .next { outWrite s.eI (sampleRead .consumer s.eIdx.toNat s).1 (sampleRead .consumer s.eIdx.toNat s).2 with
        ePhase := .s } := by
  unfold microR
  rw [sampleSlot?_some h1]
  dsimp only
  rw [if_neg (Nat.not_le_of_lt h2)]

/-- Everything one agent's turn can answer as a next state. -/
inductive TurnResult (s : State) : Agent → State → Prop where
  /-- The turn passes: the agent has no step. -/
  | pass {a : Agent} (hc : s.constructed = true) : TurnResult s a s
  /-- The step `end` of an `SST` (R58). -/
  | sstEnd {index data : Word} (hc : s.constructed = true) (hf : s.inflight = some (index, data)) :
      TurnResult s .producer (endSst index data s)
  /-- A P-port word that the decoder rejects. -/
  | pRejected {w : Command} {rest : List Command} {e : DecodeError} (hc : s.constructed = true)
      (hf : s.inflight = none) (hp : s.pIn = w :: rest) (hd : decode .pPort w = .rejected e) :
      TurnResult s .producer (reject .pPort { s with pIn := rest })
  /-- A P-port command. -/
  | pCommand {w : Command} {rest : List Command} {i : Instr} {t : State} (hc : s.constructed = true)
      (hf : s.inflight = none) (hp : s.pIn = w :: rest) (hd : decode .pPort w = .command i)
      (hx : ExecResult { s with pIn := rest } i t) : TurnResult s .producer t
  /-- An S-port word that the decoder rejects. -/
  | sRejected {w : Command} {rest : List Command} {e : DecodeError} (hc : s.constructed = true)
      (hb : s.eBusy = false) (hp : s.sIn = w :: rest) (hd : decode .sPort w = .rejected e) :
      TurnResult s .scheduler (reject .sPort { s with sIn := rest })
  /-- An S-port command. -/
  | sCommand {w : Command} {rest : List Command} {i : Instr} {t : State} (hc : s.constructed = true)
      (hb : s.eBusy = false) (hp : s.sIn = w :: rest) (hd : decode .sPort w = .command i)
      (hx : ExecResult { s with sIn := rest } i t) : TurnResult s .scheduler t
  /-- Micro-step `L` (R141). -/
  | microL (hc : s.constructed = true) (hb : s.eBusy = true) (hp : s.ePhase = .l) : TurnResult s .engine (microL s)
  /-- Micro-step `R` (R141). -/
  | microR (hc : s.constructed = true) (hb : s.eBusy = true) (hp : s.ePhase = .r)
      (hx : s.eIdx.toNat < Config.C) (hi : s.eI < Config.Q) :
      TurnResult s .engine
        { outWrite s.eI (sampleRead .consumer s.eIdx.toNat s).1 (sampleRead .consumer s.eIdx.toNat s).2 with
          ePhase := .s }
  /-- Micro-step `S` (R141). -/
  | microS (hc : s.constructed = true) (hb : s.eBusy = true) (hp : s.ePhase = .s) : TurnResult s .engine (microS s)
  /-- `CONSTRUCT` (R111). -/
  | construct (hc : s.constructed = false) : TurnResult s .reset (construct s)

theorem producerTurn_cases (hc : s.constructed = true) (h : producerTurn s = .next t) :
    TurnResult s .producer t := by
  unfold producerTurn at h
  split at h
  · next hf => cases h; exact .sstEnd hc hf
  · next hf =>
    split at h
    · cases h; exact .pass hc
    · next w rest hp =>
      unfold issue at h
      split at h
      · next hd => cases h; exact .pRejected hc hf hp hd
      · next hd => exact .pCommand hc hf hp hd (exec_cases h).2

theorem schedulerTurn_cases (hc : s.constructed = true) (h : schedulerTurn s = .next t) :
    TurnResult s .scheduler t := by
  unfold schedulerTurn at h
  by_cases hb : s.eBusy = true
  · rw [if_pos hb] at h; cases h; exact .pass hc
  · rw [if_neg hb] at h
    have hb : s.eBusy = false := Bool.eq_false_of_not_eq_true hb
    split at h
    · cases h; exact .pass hc
    · next w rest hp =>
      unfold issue at h
      split at h
      · next hd => cases h; exact .sRejected hc hb hp hd
      · next hd => exact .sCommand hc hb hp hd (exec_cases h).2

theorem engineTurn_cases (hc : s.constructed = true) (h : engineTurn s = .next t) : TurnResult s .engine t := by
  unfold engineTurn at h
  split at h
  · next hb =>
    unfold microStep at h
    split at h
    · next hp => cases h; exact .microL hc hb hp
    · next hp =>
      obtain ⟨hx, hi, rfl⟩ := microR_next h
      exact .microR hc hb hp hx hi
    · next hp => cases h; exact .microS hc hb hp
  · cases h; exact .pass hc

theorem turn_cases {a : Agent} (h : turn a s = .next t) : TurnResult s a t := by
  cases hc : s.constructed with
  | true =>
    cases a with
    | producer => exact producerTurn_cases hc (by simpa [turn, hc] using h)
    | scheduler => exact schedulerTurn_cases hc (by simpa [turn, hc] using h)
    | engine => exact engineTurn_cases hc (by simpa [turn, hc] using h)
    | reset => simp [turn, hc] at h
  | false =>
    cases a with
    | reset =>
      have : construct s = t := by simpa [turn, hc] using h
      exact this ▸ .construct hc
    | producer => simp [turn, hc] at h
    | scheduler => simp [turn, hc] at h
    | engine => simp [turn, hc] at h

/-- The inversion of step: no agent has a step and the state stays, or one agent takes its turn from the state with the
schedule and the choices moved on. -/
theorem step_cases (h : step s = .next t) :
    (nextAgent s = none ∧ t = s) ∨
      ∃ a sc cs d, movesNext s = some a ∧ TurnResult { s with sched := sc, choices := cs, drawn := d } a t := by
  unfold step at h
  split at h
  · next hn => cases h; exact .inl ⟨hn, rfl⟩
  · next a s' hn =>
    obtain ⟨sc, cs, d, rfl⟩ := nextAgent_frame hn
    exact .inr ⟨a, sc, cs, d, by simp [movesNext, hn], turn_cases h⟩

/-! ### Runs -/

/-- A run's first step. -/
theorem run_next {n : Nat} (h : step s = .next t) :
    Host.Core.run Sys2Proof.core (n + 1) s = Host.Core.run Sys2Proof.core n t := by
  have hs : core.step s = .next t := h
  simp only [Host.Core.run, hs]

theorem run_fault {n : Nat} {f : Fault} (h : step s = .fault f) :
    Host.Core.run Sys2Proof.core (n + 1) s = .fault f := by
  have hs : core.step s = .fault f := h
  simp only [Host.Core.run, hs]

theorem run_refused {n : Nat} {r : Refusal} (h : step s = .refused r) :
    Host.Core.run Sys2Proof.core (n + 1) s = .refused r := by
  have hs : core.step s = .refused r := h
  simp only [Host.Core.run, hs]

/-- A run continued. -/
theorem run_add {n m : Nat} (h : Host.Core.run Sys2Proof.core n s = .next t) :
    Host.Core.run Sys2Proof.core (n + m) s = Host.Core.run Sys2Proof.core m t := by
  induction n generalizing s with
  | zero => cases h; rw [Nat.zero_add]
  | succ n ih =>
    rw [Nat.add_right_comm]
    cases hs : step s with
    | next u => rw [run_next hs] at h ⊢; exact ih h
    | fault f => rw [run_fault hs] at h; cases h
    | refused r => rw [run_refused hs] at h; cases h

end Sys2Proof.Machine
end

