-- ==== Sys2Proof/Laws/Invariant.lean ====
section
/-! SUPPORT. What each shared operation keeps: the invariant, the soundness of the bookkeeping of `ra`, and the order of
views. One lemma an operation, for the proofs about steps to cite. -/

namespace Sys2Proof.Machine

/-! ### The invariant -/

/-- A cursor load leaves every history as it is. -/
theorem atomicLoad_histories (a c) (s : State) :
    (atomicLoad a c s).2.ordering.rcur = s.ordering.rcur ∧ (atomicLoad a c s).2.ordering.wcur = s.ordering.wcur
   ∧ (atomicLoad a c s).2.ordering.sample = s.ordering.sample := by
  cases h : s.cfg.memOrder with
  | sc => rw [atomicLoad_sc h]; simp
  | ra => obtain ⟨j,cs,d,_,he⟩ := atomicLoad_ra h a c; rw [he]; simp

/-- A sample read leaves every history as it is. -/
theorem sampleRead_histories (a k) (s : State) :
    (sampleRead a k s).2.ordering.rcur = s.ordering.rcur ∧ (sampleRead a k s).2.ordering.wcur = s.ordering.wcur
   ∧ (sampleRead a k s).2.ordering.sample = s.ordering.sample := by
  cases hm : s.marked k with
  | true => rw [sampleRead_marked hm]; simp
  | false =>
  cases h : s.cfg.memOrder with
  | sc => rw [sampleRead_sc h hm]; simp
  | ra => obtain ⟨j,cs,d,_,he⟩ := sampleRead_ra h hm a; rw [he]; simp

/-- A sample write leaves the histories of the cursors as they are. -/
theorem sampleWrite_histories (a k v) (s : State) :
    (sampleWrite a k v s).ordering.rcur = s.ordering.rcur ∧ (sampleWrite a k v s).ordering.wcur = s.ordering.wcur := by
  cases h : s.cfg.memOrder with
  | sc => rw [sampleWrite_sc h]; simp
  | ra => rw [sampleWrite_ra h]; simp [sampleStoreOrdering]

/-- What a cursor store adds to a history is the value the register held. -/
theorem atomicStore_older (a c v) (s : State) :
   (∀ e ∈ (atomicStore a c v s).ordering.rcur.older, e ∈ s.ordering.rcur.older ∨ e.1 = s.rcur) ∧
   (∀ e ∈ (atomicStore a c v s).ordering.wcur.older, e ∈ s.ordering.wcur.older ∨ e.1 = s.wcur) := by
  cases h : s.cfg.memOrder with
  | sc => rw [atomicStore_sc h]; simp; exact ⟨fun a b h => .inl h, fun a b h => .inl h⟩
  | ra =>
    rw [atomicStore_ra h]
    cases c <;> simp [cursorStoreOrdering, RaState.setHistory, RaState.history, State.cursor] <;> constructor <;>
        rintro a b h <;> first | exact .inl h | (rcases h with h|⟨rfl, rfl⟩ <;> simp_all)

/-- Under `sc` no access touches the bookkeeping of `ra`. -/
theorem sc_ordering_unchanged (s : State) (h : s.cfg.memOrder = .sc) :
    (∀ a c, (atomicLoad a c s).2.ordering = s.ordering) ∧ (∀ a k, (sampleRead a k s).2.ordering = s.ordering)
  ∧ (∀ a c v, (atomicStore a c v s).ordering = s.ordering) ∧ (∀ a k v,
      (sampleWrite a k v s).ordering = s.ordering) := by
  refine ⟨fun a c => by rw [atomicLoad_sc h], fun a k => ?_, fun a c v => by rw [atomicStore_sc h]; simp,
      fun a k v => by rw [sampleWrite_sc h]⟩
  cases hm : s.marked k with
  | true => rw [sampleRead_marked hm]; simp
  | false => rw [sampleRead_sc h hm]

/-- R24, R55: every value a cursor load can return is in range. -/
theorem atomicLoad_value_lt {s : State} (h : Inv s) (a c) : (atomicLoad a c s).1.toNat < Config.C := by
  cases hm : s.cfg.memOrder with
  | sc => rw [atomicLoad_sc hm]; cases c; exact h.rcur_lt; exact h.wcur_lt
  | ra =>
    obtain ⟨j,cs,d,_,he⟩ := atomicLoad_ra hm a c; rw [he]
    rcases entry_cases (s.ordering.history c) (s.cursor c) j with h1 | h1
    · cases c
      · exact h.rcur_older_lt _ h1
      · exact h.wcur_older_lt _ h1
    · rw [h1]; cases c; exact h.rcur_lt; exact h.wcur_lt

/-- The invariant carries over to a state that agrees on what it speaks of. -/

    theorem inv_congr {s t : State} (h : Inv s) (h1 : t.constructed = s.constructed) (h2 : t.rcur = s.rcur) (h3 :
      t.wcur = s.wcur)
  (h4 : t.ordering.rcur = s.ordering.rcur) (h5 : t.ordering.wcur = s.ordering.wcur) (h6 : t.eBusy = s.eBusy) (h7 :
      t.eI = s.eI) (h8 : t.ePhase = s.ePhase)
  (h9 : t.eIdx = s.eIdx) (h10 : t.sample = s.sample) (h11 : t.out = s.out) (h12 : t.inflight = s.inflight) (h13 :
      t.cfg = s.cfg)
  (h14 : s.cfg.memOrder = .sc → t.ordering = s.ordering) : Inv t := by
  obtain ⟨a,b,c,d,e,f,g,i,j,k,l⟩ := h
  constructor
  all_goals simp only [h1,h2,h3,h4,h5,h6,h7,h8,h9,h10,h11,h12,h13]
  all_goals try assumption
  exact fun h => (h14 h).trans (l h)

theorem inv_respond {s : State} (h : Inv s) (p r) : Inv (respond p r s) := by
  apply inv_congr h <;> simp

theorem inv_reject {s : State} (h : Inv s) (p) : Inv (reject p s) := inv_respond h _ _

theorem inv_atomicLoad {s : State} (h : Inv s) (a c) : Inv (atomicLoad a c s).2 := by
  apply inv_congr h <;> first | simp | simp only [atomicLoad_histories] |
    exact fun hs => (sc_ordering_unchanged s hs).1 a c

theorem inv_sampleRead {s : State} (h : Inv s) (a k) : Inv (sampleRead a k s).2 := by
  apply inv_congr h <;> first | simp | simp only [sampleRead_histories] |
    exact fun hs => (sc_ordering_unchanged s hs).2.1 a k

theorem inv_atomicStore {s : State} (h : Inv s) (a c) {v : Word} (hv : v.toNat < Config.C) :
    Inv (atomicStore a c v s) := by
  have h1 := (atomicStore_older a c v s)
  constructor
  case constructed => simpa only [atomicStore_constructed] using h.constructed
  case rcur_lt => cases c; simpa; simpa using h.rcur_lt
  case wcur_lt => cases c; simpa using h.wcur_lt; simpa
  case rcur_older_lt =>
    intro e he; rcases h1.1 _ he with h2 | h2
    · exact h.rcur_older_lt _ h2
    · rw [h2]; exact h.rcur_lt
  case wcur_older_lt =>
    intro e he; rcases h1.2 _ he with h2 | h2
    · exact h.wcur_older_lt _ h2
    · rw [h2]; exact h.wcur_lt
  case busy_iter => simpa only [atomicStore_eBusy, atomicStore_eI] using h.busy_iter
  case busy_idx => simpa only [atomicStore_eBusy, atomicStore_ePhase, atomicStore_eIdx] using h.busy_idx
  case sample_wf => simpa only [atomicStore_sample, atomicStore_cfg] using h.sample_wf
  case out_wf => simpa only [atomicStore_out] using h.out_wf
  case inflight_ok => simpa only [atomicStore_inflight, atomicStore_cfg] using h.inflight_ok
  case sc_ordering =>
    intro hs
    rw [atomicStore_cfg] at hs
    rw [(sc_ordering_unchanged s hs).2.2.1, h.sc_ordering hs]

theorem inv_sampleWrite {s : State} (h : Inv s) (a) {k} (v : Word) (hv : k < Config.C) : Inv (sampleWrite a k v s) := by
  have hh := sampleWrite_histories a k v s
  constructor
  case constructed => simpa only [sampleWrite_constructed] using h.constructed
  case rcur_lt => simpa using h.rcur_lt
  case wcur_lt => simpa using h.wcur_lt
  case rcur_older_lt => rw [hh.1]; exact h.rcur_older_lt
  case wcur_older_lt => rw [hh.2]; exact h.wcur_older_lt
  case busy_iter => simpa only [sampleWrite_eBusy, sampleWrite_eI] using h.busy_iter
  case busy_idx => simpa only [sampleWrite_eBusy, sampleWrite_ePhase, sampleWrite_eIdx] using h.busy_idx
  case sample_wf => rw [sampleWrite_sample, sampleWrite_cfg]; exact memWf_set hv h.sample_wf
  case out_wf => simpa only [sampleWrite_out] using h.out_wf
  case inflight_ok => simpa only [sampleWrite_inflight, sampleWrite_cfg] using h.inflight_ok
  case sc_ordering =>
    intro hs
    rw [sampleWrite_cfg] at hs
    rw [(sc_ordering_unchanged s hs).2.2.2, h.sc_ordering hs]

/-- The invariant says nothing of the moves to come and the responses given. -/
theorem inv_environment {s : State} (h : Inv s) (a b c d e f g) :
    Inv { s with pIn := a, sIn := b, pOut := c, sOut := d, sched := e, choices := f, drawn := g } :=
  { h with }

theorem inv_supply {s : State} (h : Inv s) (m : Moves) : Inv (supply m s) :=
  inv_environment h _ _ _ _ _ _ _

/-! ### The bookkeeping of `ra` -/

/-- Every message of a cursor's history is a view of positions that exist. -/
theorem entry_viewOk (o : RaState) (ok : OrderingOk o) (c) (cell j) : ViewOk o ((o.history c).entry cell j).2 := by
  rcases entry_cases (o.history c) cell j with h | h
  · cases c; exact ok.rcur_older_ok _ h; exact ok.wcur_older_ok _ h
  · rw [h]; cases c; exact ok.rcur_msg_ok; exact ok.wcur_msg_ok

theorem view_viewOk (o : RaState) (ok : OrderingOk o) (a) :
    ViewOk o (o.view a) := by cases a; exact ok.producer_ok; exact ok.consumer_ok

/-- Positions that exist still do when histories have grown. -/
theorem ViewOk.mono {o o' : RaState} {v} (h : ViewOk o v) (h1 : o.rcur.last ≤ o'.rcur.last) (h2 :
    o.wcur.last ≤ o'.wcur.last) (h3 : ∀ k, (o.olderSamples k).length ≤ (o'.olderSamples k).length) :
    ViewOk o' v :=
  ⟨h.rcur_le.trans h1, h.wcur_le.trans h2, h.sample_wf, fun k => (h.slot_le k).trans (h3 k)⟩

theorem setCursor_viewOk {o : RaState} {v c j} (h : ViewOk o v) (hj : j ≤ (o.history c).last) :
    ViewOk o (v.setCursor c j) := by
  cases c
  · exact ⟨hj, h.wcur_le, h.sample_wf, h.slot_le⟩
  · exact ⟨h.rcur_le, hj, h.sample_wf, h.slot_le⟩

theorem raise_viewOk {o : RaState} {v m} (h : ViewOk o v) (hm : ViewOk o m) : ViewOk o (v.raise m) := by
  refine ⟨Nat.max_le.2 ⟨h.rcur_le, hm.rcur_le⟩, Nat.max_le.2 ⟨h.wcur_le, hm.wcur_le⟩,
      raiseSlots_wf hm.sample_wf h.sample_wf, fun k => ?_⟩
  rw [raise_slot h.sample_wf hm.sample_wf]
  exact Nat.max_le.2 ⟨h.slot_le k, hm.slot_le k⟩

theorem setSlot_viewOk {o : RaState} {v k j} (h : ViewOk o v) (hk : k < Config.C) (hj : j ≤ (o.olderSamples k).length) :
    ViewOk o (v.setSlot k j) := by
  refine ⟨h.rcur_le, h.wcur_le, memWf_set hk h.sample_wf, fun i => ?_⟩
  rw [setSlot_slot h.sample_wf]; split
  · next e => rw [e]; exact hj
  · exact h.slot_le i

theorem setView_orderingOk {o : RaState} (ok : OrderingOk o) {a v} (hv : ViewOk o v) : OrderingOk (o.setView a v) := by
  have m : ∀ {w}, ViewOk o w → ViewOk (o.setView a v) w := fun h => h.mono (by simp) (by simp) (by simp)
  refine ⟨?_, ?_, ?_, ?_, ?_, ?_, ?_⟩
  · cases a; exact m hv; exact m ok.producer_ok
  · cases a; exact m ok.consumer_ok; exact m hv
  · rw [setView_rcur]; exact m ok.rcur_msg_ok
  · rw [setView_wcur]; exact m ok.wcur_msg_ok
  · rw [setView_rcur]; exact fun e he => m (ok.rcur_older_ok e he)
  · rw [setView_wcur]; exact fun e he => m (ok.wcur_older_ok e he)
  · rw [setView_sample]; exact ok.sample_wf

theorem atomicLoad_orderingOk {s : State} (ok : OrderingOk s.ordering) (a c) :
    OrderingOk (atomicLoad a c s).2.ordering := by
  cases h : s.cfg.memOrder with
  | sc => rw [atomicLoad_sc h]; exact ok
  | ra =>
    obtain ⟨j,cs,d,hj,he⟩ := atomicLoad_ra h a c; rw [he]
    have hv := view_viewOk _ ok a
    have hle : (s.ordering.view a).cursor c ≤ (s.ordering.history c).last :=
        by cases c; exact hv.rcur_le; exact hv.wcur_le
    have := (drawBetween_mem hle s).2
    rw [← hj] at this
    exact setView_orderingOk ok (raise_viewOk (setCursor_viewOk hv this) (entry_viewOk _ ok _ _ _))

theorem sampleRead_orderingOk {s : State} (ok : OrderingOk s.ordering) (a) {k} (hk : k < Config.C) :
    OrderingOk (sampleRead a k s).2.ordering := by
  cases hm : s.marked k with
  | true => rw [sampleRead_marked hm]; simpa using ok
  | false =>
  cases h : s.cfg.memOrder with
  | sc => rw [sampleRead_sc h hm]; exact ok
  | ra =>
    obtain ⟨j,cs,d,hj,he⟩ := sampleRead_ra h hm a; rw [he]
    have hv := view_viewOk _ ok a
    have := (drawBetween_mem (hv.slot_le k) s).2
    rw [← hj] at this
    exact setView_orderingOk ok (setSlot_viewOk hv hk this)

theorem atomicStore_orderingOk {s : State} (ok : OrderingOk s.ordering) (a c v) :
    OrderingOk (atomicStore a c v s).ordering := by
  cases h : s.cfg.memOrder with
  | sc => rw [atomicStore_sc h]; simpa using ok
  | ra =>
    rw [atomicStore_ra h]
    show OrderingOk (cursorStoreOrdering a c (s.cursor c) s.ordering)
    unfold cursorStoreOrdering
    dsimp only
    have hv := view_viewOk _ ok a
    generalize hw : (s.ordering.view a).setCursor c ((s.ordering.history c).last + 1) = w
    generalize hh : ({ older := (s.ordering.history c).older ++ [(s.cursor c, (s.ordering.history c).msg)], msg :=
        w } : CursorHistory) = h'
    have m : ∀ {u}, ViewOk s.ordering u → ViewOk (s.ordering.setHistory c h') u := fun hu => hu.mono
      (by subst hh; cases c <;> simp [RaState.setHistory, CursorHistory.last, RaState.history])
          (by subst hh; cases c <;> simp [RaState.setHistory, CursorHistory.last, RaState.history]) (by simp)
    have hwok : ViewOk (s.ordering.setHistory c h') w := by
      rw [← hw]
      apply setCursor_viewOk (m hv)
      rw [setHistory_history_same, ← hh]
      simp [CursorHistory.last]
    apply setView_orderingOk _ hwok
    cases c
    · refine ⟨m ok.producer_ok, m ok.consumer_ok, ?_, m ok.wcur_msg_ok, ?_, fun e he => m (ok.wcur_older_ok e he),
        ok.sample_wf⟩
      · subst hh; exact hwok
      · subst hh; intro e he
        rcases List.mem_append.1 he with he | he
        · exact m (ok.rcur_older_ok e he)
        · simp at he; subst he; exact m ok.rcur_msg_ok
    · refine ⟨m ok.producer_ok, m ok.consumer_ok, m ok.rcur_msg_ok, ?_, fun e he => m (ok.rcur_older_ok e he), ?_,
        ok.sample_wf⟩
      · subst hh; exact hwok
      · subst hh; intro e he
        rcases List.mem_append.1 he with he | he
        · exact m (ok.wcur_older_ok e he)
        · simp at he; subst he; exact m ok.wcur_msg_ok

/-- A sample store adds the value the slot held to that slot's history alone. -/
theorem olderSamples_store {o : RaState} (ok : OrderingOk o) (a k cell j) :
    (sampleStoreOrdering a k cell o).olderSamples j = if j = k then o.olderSamples k ++ [cell] else
      o.olderSamples j := by
  unfold sampleStoreOrdering
  simp only [setView_olderSamples]
  exact memGetD_set ok.sample_wf (fun h => Option.some.inj h)

theorem sampleWrite_orderingOk {s : State} (ok : OrderingOk s.ordering) (a) {k} (v) (hk : k < Config.C) :
    OrderingOk (sampleWrite a k v s).ordering := by
  cases h : s.cfg.memOrder with
  | sc => rw [sampleWrite_sc h]; exact ok
  | ra =>
    rw [sampleWrite_ra h]
    have ho := fun j => olderSamples_store ok a k (s.sampleCell k) j
    show OrderingOk (sampleStoreOrdering a k (s.sampleCell k) s.ordering)
    have hv := view_viewOk _ ok a
    unfold sampleStoreOrdering at ho ⊢
    simp only [setView_olderSamples] at ho
    dsimp only at ho ⊢
    generalize hg : ({ s.ordering with
      sample := memSet (some []) k (s.ordering.olderSamples k ++ [s.sampleCell k]) s.ordering.sample } : RaState) = o' at ho ⊢
    have m : ∀ {u}, ViewOk s.ordering u → ViewOk o' u := fun hu => hu.mono (by rw [← hg]) (by rw [← hg])
        (by intro j; rw [ho]; split <;> [(next e => subst e; simp); exact le_rfl])
    have ok' : OrderingOk o' := by
      subst hg
      exact ⟨m ok.producer_ok, m ok.consumer_ok, m ok.rcur_msg_ok, m ok.wcur_msg_ok,
          fun e he => m (ok.rcur_older_ok e he), fun e he => m (ok.wcur_older_ok e he), memWf_set hk ok.sample_wf⟩
    apply setView_orderingOk ok'
    apply setSlot_viewOk (m hv) hk
    rw [ho]; simp

/-! ### Views only grow -/

theorem View.le_refl (v : View) : v.le v := ⟨le_rfl, le_rfl, fun _ => le_rfl⟩

theorem View.le_trans {u v w : View} (h : u.le v) (h' : v.le w) :
    u.le w := ⟨h.1.trans h'.1, h.2.1.trans h'.2.1, fun k => (h.2.2 k).trans (h'.2.2 k)⟩

theorem setView_le {o : RaState} {a v} (h : (o.view a).le v) (b) : (o.view b).le ((o.setView a v).view b) := by
  cases a <;> cases b <;> first | exact h | exact View.le_refl _

theorem setCursor_le {v : View} {c j} (h : v.cursor c ≤ j) : v.le (v.setCursor c j) := by
  cases c
  · exact ⟨h, le_rfl, fun _ => le_rfl⟩
  · exact ⟨le_rfl, h, fun _ => le_rfl⟩

theorem setSlot_le {v : View} (hw : memWf (some 0) Config.C v.sample = true) {k j} (h : v.slot k ≤ j) :
    v.le (v.setSlot k j) := by
  refine ⟨le_rfl, le_rfl, fun i => ?_⟩
  rw [setSlot_slot hw]; split
  · next e => rw [e]; exact h
  · exact le_rfl

theorem raise_le {v m : View} (hw : memWf (some 0) Config.C v.sample = true) (hm :
    memWf (some 0) Config.C m.sample = true) :
    v.le (v.raise m) := by
  refine ⟨Nat.le_max_left _ _, Nat.le_max_left _ _, fun i => ?_⟩
  rw [raise_slot hw hm]; exact Nat.le_max_left _ _

theorem cursor_le_last {o : RaState} {v} (hv : ViewOk o v) (c) :
    v.cursor c ≤ (o.history c).last := by cases c; exact hv.rcur_le; exact hv.wcur_le

theorem atomicLoad_view_le {s : State} (ok : OrderingOk s.ordering) (a c b) :
    (s.ordering.view b).le ((atomicLoad a c s).2.ordering.view b) := by
  cases h : s.cfg.memOrder with
  | sc => rw [atomicLoad_sc h]; exact View.le_refl _
  | ra =>
    obtain ⟨j,cs,d,hj,he⟩ := atomicLoad_ra h a c; rw [he]
    have hv := view_viewOk _ ok a
    have := (drawBetween_mem (cursor_le_last hv c) s)
    rw [← hj] at this
    exact setView_le (View.le_trans (setCursor_le this.1) (raise_le (by simpa using hv.sample_wf)
        (entry_viewOk _ ok _ _ _).sample_wf)) b

theorem sampleRead_view_le {s : State} (ok : OrderingOk s.ordering) (a k b) :
    (s.ordering.view b).le ((sampleRead a k s).2.ordering.view b) := by
  cases hm : s.marked k with
  | true => rw [sampleRead_marked hm]; simp; exact View.le_refl _
  | false =>
  cases h : s.cfg.memOrder with
  | sc => rw [sampleRead_sc h hm];  exact View.le_refl _
  | ra =>
    obtain ⟨j,cs,d,hj,he⟩ := sampleRead_ra h hm a; rw [he]
    have hv := view_viewOk _ ok a
    have := (drawBetween_mem (hv.slot_le k) s).1
    rw [← hj] at this
    exact setView_le (setSlot_le hv.sample_wf this) b

theorem atomicStore_view_le {s : State} (ok : OrderingOk s.ordering) (a c v b) :
    (s.ordering.view b).le ((atomicStore a c v s).ordering.view b) := by
  cases h : s.cfg.memOrder with
  | sc => rw [atomicStore_sc h]; simp; exact View.le_refl _
  | ra =>
    rw [atomicStore_ra h]
    show View.le _ ((cursorStoreOrdering a c (s.cursor c) s.ordering).view b)
    unfold cursorStoreOrdering
    dsimp only
    rw [← setHistory_view s.ordering c _ b]
    apply setView_le
    rw [setHistory_view]
    exact setCursor_le (Nat.le_succ_of_le (cursor_le_last (view_viewOk _ ok a) c))

theorem sampleWrite_view_le {s : State} (ok : OrderingOk s.ordering) (a k v b) :
    (s.ordering.view b).le ((sampleWrite a k v s).ordering.view b) := by
  cases h : s.cfg.memOrder with
  | sc => rw [sampleWrite_sc h]; exact View.le_refl _
  | ra =>
    rw [sampleWrite_ra h]
    show View.le _ ((sampleStoreOrdering a k (s.sampleCell k) s.ordering).view b)
    unfold sampleStoreOrdering
    dsimp only
    have hv := (view_viewOk _ ok a)
    have e : ∀ b, s.ordering.view b = ({ s.ordering with
      sample := memSet (some []) k (s.ordering.olderSamples k ++ [s.sampleCell k]) s.ordering.sample } : RaState).view b := by
      intro b; cases b <;> rfl
    rw [e b]
    apply setView_le
    rw [← e]
    exact setSlot_le hv.sample_wf (Nat.le_succ_of_le (hv.slot_le k))

end Sys2Proof.Machine
end

