-- ==== Sys2Proof/Laws/Producer.lean ====
section
/-! SUPPORT. The Producer's contract (R161 to R165): how sequences of commands compose, and what a conforming one gives. -/

namespace Sys2Proof.Machine

/-- A sequence of commands in two parts. -/
theorem paceRun_append (p : Pace) (is js : List Instr) : p.run (is ++ js) = (p.run is).bind (fun q => q.run js) := by
  induction is generalizing p with
  | nil => rfl
  | cons i is ih =>
    simp only [List.cons_append, Pace.run]
    cases p.after i with
    | none => rfl
    | some q => exact ih q

/-- The three commands of a push (R161), from a pace with nothing written ahead. -/
theorem paceRun_push (w v : Word) (loaded : Bool) (written : Nat) (hw : w.toNat < Config.C) :
    ({ content := w, loaded := loaded, written := written, ahead := [] } : Pace).run (pushCommands w v) =
      some { content := nextIndex w, loaded := true, written := written + 1, ahead := [] } := by
  simp [pushCommands, Pace.run, Pace.after, hw]

/-- The samples that `writeAhead` leaves to be advanced past: consecutive slots, numbered on from `number`. -/
def samplesAhead (w : Word) (number : Nat) : Nat → List (Word × Nat)
  | 0 => []
  | count + 1 => (w, number) :: samplesAhead (nextIndex w) (number + 1) count

/-- Writing ahead adds the samples written behind those already ahead (R162). -/
theorem paceRun_writeAhead (p : Pace) (w : Word) (hw : w.toNat < Config.C) (vs : List Word) :
    p.run (writeAhead w vs) =
      some { p with written := p.written + vs.length, ahead := p.ahead ++ samplesAhead w p.written vs.length } := by
  induction vs generalizing p w with
  | nil => simp [writeAhead, Pace.run, samplesAhead]
  | cons v vs ih =>
    simp only [writeAhead, Pace.run, Pace.after, hw, if_true]
    rw [ih _ _ (nextIndex_lt w)]
    simp [samplesAhead, Nat.add_assoc, Nat.add_comm 1]

/-- Advancing past consecutive samples written ahead is allowed exactly as often as there are such samples (R162), and
leaves none exactly when it is as often. -/
theorem paceRun_advanceBy (w : Word) (written number count times : Nat) :
    Pace.finished
        (({ content := w, loaded := true, written := written, ahead := samplesAhead w number count } : Pace).run
          (advanceBy w times)) = decide (times = count) := by
  induction times generalizing w number count with
  | zero => cases count <;> rfl
  | succ times ih =>
    cases count with
    | zero => simp [advanceBy, samplesAhead, Pace.run, Pace.after, Pace.finished]
    | succ count =>
      simp only [advanceBy, samplesAhead, Pace.run, Pace.after, Bool.true_and, decide_true, List.any_cons,
        Bool.true_or, if_true, List.eraseP_cons_of_pos]
      rw [ih]
      simp

/-- R162: samples written ahead, `WCUR` loaded, then a number of advances: that conforms exactly when each sample has its
advance, however many laps of the ring the samples fill. -/
theorem writeAhead_conforms_iff (w : Word) (hw : w.toNat < Config.C) (vs : List Word) (times : Nat) :
    producerConforms w (writeAhead w vs ++ .wcld :: advanceBy w times) = decide (times = vs.length) := by
  unfold producerConforms
  rw [paceRun_append, paceRun_writeAhead _ _ hw]
  exact paceRun_advanceBy w _ _ _ _

/-- No command the contract allows is `RCST` (R165). -/
theorem paceAfter_not_rcst {p q : Pace} {i : Instr} (h : p.after i = some q) : Instr.isRcst i = false := by
  cases i <;> first | rfl | cases h

theorem paceRun_no_rcst {p q : Pace} {is : List Instr} (h : p.run is = some q) : ∀ i ∈ is, Instr.isRcst i = false := by
  induction is generalizing p with
  | nil => exact fun _ hi => absurd hi List.not_mem_nil
  | cons i is ih =>
    unfold Pace.run at h
    split at h
    · next r hr =>
      intro j hj
      rcases List.mem_cons.1 hj with rfl | hj
      · exact paceAfter_not_rcst hr
      · exact ih h j hj
    · cases h

theorem isRcst_iff_opcode (i : Instr) : Instr.isRcst i = decide (i.opcode.toNat = 2) := by
  cases i <;> rfl

/-- The encoded word of a command that is no `RCST` decodes to none. -/
theorem decodesTo_isRcst_encode {i : Instr} (h : Instr.isRcst i = false) :
    decodesTo .pPort Instr.isRcst (encode i) = false := by
  unfold decodesTo
  split
  · next j hd =>
    have hop : Command.op (encode i) = i.opcode := (Laws.EncodesOpcode.fields_of_append _ _ _).1
    rw [isRcst_iff_opcode, (selectInstr_some (decode_command hd).2).1, hop, ← isRcst_iff_opcode]
    exact h
  · rfl

/-- R165 with R38: `ProducerConforms` gives the premise `SingleWriter`. -/
theorem producerConforms_singleWriter {s : State} {w : Word} {commands : List Instr}
    (hp : s.pIn = commands.map encode) (h : producerConforms w commands = true) : SingleWriter s := by
  unfold producerConforms at h
  cases hr : (Pace.start w).run commands with
  | some p =>
    intro c hc
    rw [hp] at hc
    obtain ⟨i, hi, rfl⟩ := List.mem_map.1 hc
    exact decodesTo_isRcst_encode (paceRun_no_rcst hr i hi)
  | none =>
    rw [hr] at h
    cases h

end Sys2Proof.Machine
end

