-- ==== Sys2Proof/Tests/Slice0.lean ====
section
/-! SUPPORT. Tests of one step each, their expected results from the vectors of spec/95_test_vectors.md, which each names;
the smoke tests of WellFormed; and for every statement with hypotheses a witness that meets them. -/

namespace Sys2Proof.Tests

open Sys2Proof Sys2Proof.Machine

/-! ### Small states -/

/-- One part of the state a step answers, if it answers one. -/
def resultOf {α : Type} (r : Result) (f : State → α) : Option α :=
  match r with
  | .next s => some (f s)
  | .fault _ => none
  | .refused _ => none

/-- The reset state with both cursors given. -/
def cursors (rcur wcur : Word) : State := { State.reset with rcur := rcur, wcur := wcur }

/-- The reset state with one sample slot given. -/
def oneSample (k : Nat) (v : Word) : State := { State.reset with sample := [(k, v)] }

/-- A drain in progress. -/
def draining (rcur : Word) (eI : Nat) (phase : Phase) (eIdx : Word) : State :=
  { State.reset with rcur := rcur, eBusy := true, eI := eI, ePhase := phase, eIdx := eIdx }

/-- The default parameters but for `MEM_ORDER = ra`. -/
def raParams : Config.Params := { Config.defaults with memOrder := .ra }

/-- The default parameters but for `SAMPLE_TEARING = true`. -/
def tearingParams : Config.Params := { Config.defaults with sampleTearing := true }

/-- Under `ra`, after the Producer's stores of slot 5 and of `WCUR`, neither seen by the Consumer. -/
def raState : State :=
  { State.resetWith raParams with
    sample := [(5, 0x3F800000)]
    wcur := 1
    ordering :=
      { rcur := { older := [], msg := View.start }
        wcur := { older := [(0, View.start)], msg := { rcur := 0, wcur := 1, sample := [(5, 1)] } }
        sample := [(5, [0])]
        producerView := { rcur := 0, wcur := 1, sample := [(5, 1)] }
        consumerView := View.start } }

/-! ### Well-formed commands: the nearest neighbours of X7 to X11 on either side -/

theorem test_wellFormed_rcst : Instr.wellFormed (.rcst 2048) = false ∧ Instr.wellFormed (.rcst 2047) = true := by decide
theorem test_wellFormed_wcst :
    Instr.wellFormed (.wcst 0xFFFFFFFF) = false ∧ Instr.wellFormed (.wcst 2048) = false ∧
    Instr.wellFormed (.wcst 2047) = true := by decide
theorem test_wellFormed_sld : Instr.wellFormed (.sld 2048) = false ∧ Instr.wellFormed (.sld 2047) = true := by decide
theorem test_wellFormed_sst :
    Instr.wellFormed (.sst 2048 1) = false ∧ Instr.wellFormed (.sst 2047 1) = true := by decide
theorem test_wellFormed_outld : Instr.wellFormed (.outld 128) = false ∧ Instr.wellFormed (.outld 127) = true := by decide
theorem test_wellFormed_noOperand :
    Instr.wellFormed .rcld = true ∧ Instr.wellFormed .wcld = true ∧ Instr.wellFormed .drain = true := by decide

/-! ### Decoding: the words of R84 and of 95_test_vectors.md section 2 -/

/-- E1. -/
theorem test_decode_rcld : decode .pPort 0x010000000000000000 = .command .rcld := by decide
/-- E2. -/
theorem test_decode_rcst : decode .pPort 0x02000007D000000000 = .command (.rcst 2000) := by decide
/-- E3. -/
theorem test_decode_wcld : decode .pPort 0x030000000000000000 = .command .wcld := by decide
/-- R115's example, the field written out in binary: `WCST 1365`, `op = 00000100`, `index = 0...010101010101`. -/
theorem test_decode_wcst :
    decode .pPort (0b00000100#8 ++ 0b00000000000000000000010101010101#32 ++ 0#32) = .command (.wcst 1365) := by decide
/-- E5. -/
theorem test_decode_sld : decode .pPort 0x050000000500000000 = .command (.sld 5) := by decide
/-- E10. -/
theorem test_decode_sst : decode .pPort 0x06000007FF7FA00001 = .command (.sst 2047 0x7FA00001) := by decide
/-- E7. -/
theorem test_decode_drain : decode .sPort 0x100000000000000000 = .command .drain := by decide
/-- E9. -/
theorem test_decode_outld : decode .sPort 0x110000007F00000000 = .command (.outld 127) := by decide
/-- R87 and section 2: the unused fields are ignored. -/
theorem test_decode_unusedFields : decode .pPort 0x01DEADBEEFCAFEF00D = .command .rcld := by decide
/-- X1 to X4, on both ports. -/
theorem test_decode_illegal :
    ∀ p ∈ [Port.pPort, Port.sPort], ∀ c ∈ [(0x00 : BitVec 8), 0x07, 0x12, 0xFF],
      decode p (c ++ (0#64)) = .rejected (.illegalOpcode c) := by decide
/-- X5 and X6. -/
theorem test_decode_wrongPort :
    decode .sPort 0x010000000000000000 = .rejected (.wrongPort 0x01) ∧
    decode .pPort 0x100000000000000000 = .rejected (.wrongPort 0x10) := by decide
/-- E6 and E8, as the opcode table numbers them; the table's match of an illegal opcode is no command. -/
theorem test_decodeTableWord :
    decodeTableWord 72 0x06000000053F800000 = some (.sst 5 0x3F800000) ∧
    decodeTableWord 72 0x110000000000000000 = some (.outld 0) ∧ decodeTableWord 72 0x120000000000000000 = none := by decide
/-- E4, E6, E11, the assembler's words. -/
theorem test_encode :
    encode (.wcst 0) = 0x040000000000000000 ∧ encode (.sst 5 0x3F800000) = 0x06000000053F800000 ∧
    encode (.sst 0 0x80000000) = 0x060000000080000000 := by decide

/-! ### Operands and words -/

/-- R119: the vectors of section 3.1. -/
theorem test_next :
    nextIndex 0 = 1 ∧ nextIndex 1023 = 1024 ∧ nextIndex 2046 = 2047 ∧ nextIndex 2047 = 0 := by decide
/-- S8. -/
theorem test_occupancyEstimate :
    occupancyEstimate 0 0 = 0 ∧ occupancyEstimate 0 5 = 2043 ∧ occupancyEstimate 100 2000 = 148 ∧
    occupancyEstimate 0 2047 = 1 := by decide
/-- R82: a performed `DRAIN` answers `RSP = {1, 0x00000001}`. -/
theorem test_responseWord : keepRunning.word = 0x100000001 ∧ rejected.word = 0 := by decide
/-- R123: `0x3F800000` is 1.0, sign 0, exponent 127, fraction 0. -/
theorem test_binary32Fields :
    binary32Sign 0x3F800000 = 0 ∧ binary32Exponent 0x3F800000 = 127 ∧ binary32Fraction 0x3F800000 = 0 ∧
    binary32Sign 0x80000000 = 1 := by decide
/-- S5: 0.1, 0.2, 0.3, 12.7, 12.8; and R122's `-0.0`. -/
theorem test_floatLiteral :
    binary32OfDecimal false 1 1 = 0x3DCCCCCD ∧ binary32OfDecimal false 2 1 = 0x3E4CCCCD ∧
    binary32OfDecimal false 3 1 = 0x3E99999A ∧ binary32OfDecimal false 127 1 = 0x414B3333 ∧
    binary32OfDecimal false 128 1 = 0x414CCCCD ∧ binary32OfDecimal true 0 0 = 0x80000000 := by decide
/-- R51: under `little` byte 0 is bits 7:0. -/
theorem test_platformBytes :
    platformBytes .little 0x11223344 = [0x44, 0x33, 0x22, 0x11] ∧
    platformBytes .big 0x11223344 = [0x11, 0x22, 0x33, 0x44] := by decide
/-- R91's examples. -/
theorem test_assemblyText :
    AsmLine.text { port := .pPort, op := .wcld, bind := some "w" } = "P: WCLD -> w" ∧
    AsmLine.text { port := .pPort, op := .wcst (.mod (.add (.name "w") (.lit 1)) .capacity), bind := none } =
      "P: WCST (w + 1) mod C" ∧
    AsmLine.text { port := .sPort, op := .outld (.lit 0), bind := some "y0" } = "S: OUTLD 0 -> y0" := by decide
/-- P1 line 9: `P: WCST (w + 1) mod C` with `w = 2` issues `0x040000000300000000`. -/
theorem test_assemblyIssue :
    (issueLine [("w", 2)]
      { port := .pPort, op := .wcst (.mod (.add (.name "w") (.lit 1)) .capacity), bind := none } State.reset).map
        State.pIn = some [0x040000000300000000] := by decide

/-! ### The commands, one step each -/

/-- R112's example. -/
theorem test_rcld :
    resultOf (exec .rcld (cursors 128 0)) (fun t => (t.pOut, t.rcur, t.wcur)) =
      some ([{ ok := true, data := 0x80 }], 128, 0) := by decide
/-- V13: performed though the cursor does not move by one. -/
theorem test_rcst :
    resultOf (exec (.rcst 2000) (cursors 5 7)) (fun t => (t.pOut, t.rcur, t.wcur)) =
      some ([{ ok := true, data := 0 }], 2000, 7) := by decide
/-- V14, X7. -/
theorem test_rcst_outOfRange :
    resultOf (exec (.rcst 0xFFFFFFFF) (cursors 5 7)) (fun t => (t.pOut, t.rcur)) =
      some ([{ ok := false, data := 0 }], 5) ∧
    resultOf (exec (.rcst 2048) (cursors 5 7)) (fun t => (t.pOut, t.rcur)) =
      some ([{ ok := false, data := 0 }], 5) := by decide
/-- V41's first response. -/
theorem test_wcld :
    resultOf (exec .wcld (cursors 3 2047)) (fun t => (t.pOut, t.rcur, t.wcur)) =
      some ([{ ok := true, data := 0x7FF }], 3, 2047) := by decide
/-- V15, V17. -/
theorem test_wcst :
    resultOf (exec (.wcst 10) (cursors 640 9)) (fun t => (t.pOut, t.rcur, t.wcur)) =
      some ([{ ok := true, data := 0 }], 640, 10) ∧
    resultOf (exec (.wcst 50) (cursors 0 100)) State.wcur = some 50 := by decide
/-- V12, X8. -/
theorem test_wcst_outOfRange :
    resultOf (exec (.wcst 0xFFFFFFFF) (cursors 5 7)) (fun t => (t.pOut, t.wcur)) =
      some ([{ ok := false, data := 0 }], 7) ∧
    resultOf (exec (.wcst 2048) (cursors 5 7)) (fun t => (t.pOut, t.wcur)) =
      some ([{ ok := false, data := 0 }], 7) := by decide
/-- V6, V7, V8: the slot as it is, a NaN pattern too; a slot not written holds 0. -/
theorem test_sld :
    resultOf (exec (.sld 5) (oneSample 5 0x3F800000)) State.pOut = some [{ ok := true, data := 0x3F800000 }] ∧
    resultOf (exec (.sld 4) (oneSample 5 0x3F800000)) State.pOut = some [{ ok := true, data := 0 }] ∧
    resultOf (exec (.sld 2047) (oneSample 2047 0x7FA00001)) State.pOut =
      some [{ ok := true, data := 0x7FA00001 }] := by decide
/-- X9. -/
theorem test_sld_outOfRange :
    resultOf (exec (.sld 2048) State.reset) State.pOut = some [{ ok := false, data := 0 }] := by decide
/-- V5, V16, and a zero written back leaves nothing listed. -/
theorem test_sst :
    resultOf (exec (.sst 5 0x3F800000) State.reset) (fun t => (t.pOut, t.sample, t.rcur, t.wcur)) =
      some ([{ ok := true, data := 0 }], [(5, 0x3F800000)], 0, 0) ∧
    resultOf (exec (.sst 3 0x41000000) (oneSample 3 0x41000000)) State.sample = some [(3, 0x41000000)] ∧
    resultOf (exec (.sst 3 0) (oneSample 3 0x41000000)) State.sample = some [] := by decide
/-- X10. -/
theorem test_sst_outOfRange :
    resultOf (exec (.sst 2048 1) State.reset) (fun t => (t.pOut, t.sample)) =
      some ([{ ok := false, data := 0 }], []) := by decide
/-- R140. -/
theorem test_drain :
    resultOf (exec .drain { cursors 7 9 with eI := 128, ePhase := .s }) (fun t => (t.eBusy, t.eI, t.ePhase)) =
      some (true, 0, .l) ∧
    resultOf (exec .drain { cursors 7 9 with eI := 128, ePhase := .s }) (fun t => (t.sOut, t.rcur, t.wcur)) =
      some ([], 7, 9) := by decide
/-- V26, X11. -/
theorem test_outld :
    resultOf (exec (.outld 127) { State.reset with out := [(127, 0x414CCCCD)] }) (fun t => (t.sOut, t.out)) =
      some ([{ ok := true, data := 0x414CCCCD }], [(127, 0x414CCCCD)]) ∧
    resultOf (exec (.outld 128) State.reset) State.sOut = some [{ ok := false, data := 0 }] := by decide

/-- E6, E7: a word placed from reset is performed by the next step, on its port. -/
theorem test_withFetchWord :
    resultOf (step (State.reset.withFetchWord 72 0x06000000053F800000)) (fun t => (t.sample, t.pOut)) =
      some ([(5, 0x3F800000)], [{ ok := true, data := 0 }]) ∧
    resultOf (step (State.reset.withFetchWord 72 0x100000000000000000)) (fun t => (t.eBusy, t.sOut)) =
      some (true, []) := by decide

/-! ### The drain engine, one micro-step each -/

/-- V32, V33: `L` latches `RCUR`. -/
theorem test_microL :
    resultOf (turn .engine (draining 1000 5 .l 4)) (fun t => (t.eIdx, t.ePhase, t.eI, t.rcur)) =
      some (1000, .r, 5, 1000) := by decide
/-- V33: `R` copies the slot of the latch, whatever `RCUR` holds. -/
theorem test_microR :
    resultOf (turn .engine { draining 1000 5 .r 5 with sample := [(5, 0x80000000), (1000, 1)] })
      (fun t => (t.out, t.ePhase, t.rcur)) = some ([(5, 0x80000000)], .s, 1000) := by decide
/-- V33: `S` stores the advance of the latch over the Producer's store. -/
theorem test_microS :
    resultOf (turn .engine (draining 1000 5 .s 5)) (fun t => (t.rcur, t.eI, t.ePhase, t.eBusy, t.sOut)) =
      some (6, 6, .l, true, []) := by decide
/-- V21: the last store wraps, and the drain responds `(1, 1)`. -/
theorem test_microS_last :
    resultOf (turn .engine (draining 2047 127 .s 2047)) (fun t => (t.rcur, t.eI, t.eBusy, t.sOut)) =
      some (0, 128, false, [{ ok := true, data := 1 }]) := by decide
/-- V51: `R` of a slot in flight returns the draw. -/
theorem test_tornRead :
    resultOf (turn .engine { draining 1 1 .r 1 with
        cfg := tearingParams, inflight := some (1, 7), choices := [0xDEADBEEF] }) (fun t => (t.out, t.choices)) =
      some ([(1, 0xDEADBEEF)], []) := by decide
/-- V53: under `ra` the drain's read of slot 5 may return the new or the old value. -/
theorem test_raRead :
    ∀ e ∈ [(1, (0x3F800000 : Word)), (0, 0)],
      resultOf (turn .engine { raState with eBusy := true, ePhase := .r, eIdx := 5, choices := [e.1] }) State.out =
        some [(0, e.2)] := by decide
/-- R163: a context that loads the new `WCUR` sees the sample written before it. -/
theorem test_raAcquire :
    ((atomicLoad .consumer .wcur { raState with choices := [1] }).1,
      ((atomicLoad .consumer .wcur { raState with choices := [1] }).2.ordering.consumerView.slot 5)) = (1, 1) := by decide

/-! ### The Producer's contract -/

/-- V43, R162: samples written ahead, then one `WCST` for each, with a `WCLD` before each or before the first alone; and
R161's pushes, across the wrap. -/
theorem test_producerConforms :
    producerConforms 0 [.sst 0 7, .sst 1 8, .sst 2 9, .wcld, .wcst 1, .wcld, .wcst 2, .wcld, .wcst 3] = true ∧
    producerConforms 0 [.sst 0 7, .sst 1 8, .sst 2 9, .wcld, .wcst 1, .wcst 2, .wcst 3] = true ∧
    producerConforms 2046 (pushAll 2046 [1, 2, 3]) = true ∧ producerConforms 0 [] = true := by decide
/-- R162 past a whole lap: `C + 1` samples written ahead take `C + 1` advances, and `C` are not enough. -/
theorem test_producerConforms_lap :
    producerConforms 0 (writeAhead 0 (List.replicate 2049 7) ++ .wcld :: advanceBy 0 2049) = true ∧
    producerConforms 0 (writeAhead 0 (List.replicate 2049 7) ++ .wcld :: advanceBy 0 2048) = false := by
  constructor <;> rw [writeAhead_conforms_iff 0 (by decide), List.length_replicate] <;> rfl
/-- The model's choice (notes/assumptions/14.md): a slot written twice takes two advances past it. -/
theorem test_producerConforms_rewritten : producerConforms 0 [.sst 0 7, .sst 0 8, .wcld, .wcst 1] = false := by decide
/-- R162: one `WCST` of `(w + n) mod C`; U16: a sample never advanced past; R165: `RCST`; R163: the advance before the
sample; R118: a rejected `SST`. -/
theorem test_producerConforms_not :
    producerConforms 0 [.sst 0 7, .sst 1 8, .wcld, .wcst 2] = false ∧
    producerConforms 0 [.wcld, .sst 0 7, .sst 1 8, .wcst 1] = false ∧ producerConforms 0 [.rcst 0] = false ∧
    producerConforms 0 [.wcld, .wcst 1, .sst 0 7, .wcst 2] = false ∧
    producerConforms 0 [.wcld, .sst 2048 7] = false := by decide

/-- The commands of a Producer that pushes `value 0`, `value 1` and so on for ever, from `WCUR = 0` (R161). -/
def endlessPushes (value : Nat → Word) (n : Nat) : Instr :=
  match n % 3 with
  | 0 => .wcld
  | 1 => .sst (nextIndex^[n / 3] 0) (value (n / 3))
  | _ => .wcst (nextIndex^[n / 3 + 1] 0)

theorem endlessPushes_index_lt (q : Nat) : (nextIndex^[q] 0).toNat < Config.C := by
  cases q with
  | zero => decide
  | succ q => rw [Function.iterate_succ_apply']; exact nextIndex_lt _

theorem endlessPushes_push (value : Nat → Word) (q : Nat) :
    [endlessPushes value (3 * q), endlessPushes value (3 * q + 1), endlessPushes value (3 * q + 2)] =
      pushCommands (nextIndex^[q] 0) (value q) := by
  have div1 : (3 * q + 1) / 3 = q := by omega
  have div2 : (3 * q + 2) / 3 = q := by omega
  simp [endlessPushes, pushCommands, div1, div2, Function.iterate_succ_apply']

theorem endlessPushes_pace (value : Nat → Word) (q : Nat) :
    ∃ l, (Pace.start 0).run ((List.range (3 * q)).map (endlessPushes value)) =
      some { content := nextIndex^[q] 0, loaded := l, written := q, ahead := [] } := by
  induction q with
  | zero => exact ⟨false, rfl⟩
  | succ q ih =>
    obtain ⟨l, h⟩ := ih
    have last : (List.range (3 * (q + 1))).map (endlessPushes value) =
        (List.range (3 * q)).map (endlessPushes value) ++ pushCommands (nextIndex^[q] 0) (value q) := by
      rw [← endlessPushes_push, show 3 * (q + 1) = 3 * q + 1 + 1 + 1 by omega]
      simp [List.range_succ]
    refine ⟨true, ?_⟩
    rw [last, paceRun_append, h, Function.iterate_succ_apply']
    exact paceRun_push _ _ _ _ (endlessPushes_index_lt q)

/-- R161, R165: pushing for ever conforms. -/
theorem test_streamConforms (value : Nat → Word) : StreamConforms 0 (endlessPushes value) := by
  intro n
  obtain ⟨l, h⟩ := endlessPushes_pace value (n / 3)
  obtain ⟨l', h'⟩ := endlessPushes_pace value (n / 3 + 1)
  have push := endlessPushes_push value (n / 3)
  simp only [pushCommands, List.cons.injEq, and_true] at push
  obtain ⟨push0, push1, _⟩ := push
  obtain e | e | e : n = 3 * (n / 3) ∨ n = 3 * (n / 3) + 1 ∨ n = 3 * (n / 3) + 1 + 1 := by omega
  · rw [← e] at h
    exact ⟨_, h, fun _ hk => absurd hk List.not_mem_nil⟩
  · refine ⟨{ content := nextIndex^[n / 3] 0, loaded := true, written := n / 3, ahead := [] }, ?_,
      fun _ hk => absurd hk List.not_mem_nil⟩
    rw [e, List.range_succ, List.map_append, paceRun_append, h]
    rw [← e]
    simp [push0, Pace.run, Pace.after]
  · refine ⟨{ content := nextIndex^[n / 3] 0, loaded := true, written := n / 3 + 1,
               ahead := [(nextIndex^[n / 3] 0, n / 3)] }, ?_, fun _ _ => ⟨3 * (n / 3 + 1), _, by omega, h', List.not_mem_nil⟩⟩
    rw [e, List.range_succ, List.range_succ, List.map_append, List.map_append, paceRun_append, paceRun_append, h]
    rw [← e]
    have lt : (nextIndex^[n / 3] 0#32).toNat < Config.C := endlessPushes_index_lt _
    simp [push0, push1, Pace.run, Pace.after, lt]
/-! ### Witnesses: for each statement with hypotheses, a state and operands that meet them -/

/-- The invariant of a state under `sc` that is not in flight, from its plain facts. -/
theorem inv_of_sc (s : State) (hc : s.constructed = true) (ho : s.ordering = RaState.start) (hi : s.inflight = none)
    (hr : s.rcur.toNat < Config.C) (hw : s.wcur.toNat < Config.C) (hb : s.eBusy = true → s.eI < Config.Q)
    (hx : s.eIdx.toNat < Config.C) (hs : memWf (sampleErased s.cfg) Config.C s.sample = true)
    (hout : memWf none Config.Q s.out = true) : Inv s := by
  constructor <;> simp_all [RaState.start]

theorem viewOk_start (o : RaState) : ViewOk o View.start :=
  ⟨Nat.zero_le _, Nat.zero_le _, rfl, fun _ => Nat.zero_le _⟩

theorem orderingOk_start : OrderingOk RaState.start := by
  constructor <;> simp [RaState.start, viewOk_start, memWf]

/-- The bookkeeping of `raState` is sound, and is not the one at reset. -/
theorem raState_orderingOk : OrderingOk raState.ordering := by
  have slots : ∀ k, View.slot { rcur := 0, wcur := 1, sample := [(5, 1)] } k ≤
      (raState.ordering.olderSamples k).length := by
    intro k
    by_cases h : 5 = k <;> simp [View.slot, RaState.olderSamples, raState, memGet?, h]
  have seen : ViewOk raState.ordering { rcur := 0, wcur := 1, sample := [(5, 1)] } :=
    ⟨by decide, by decide, by decide, slots⟩
  constructor
  · exact seen
  · exact viewOk_start _
  · exact viewOk_start _
  · exact seen
  · exact fun e h => absurd h (List.not_mem_nil)
  · intro e h
    rw [show e = (0, View.start) from List.mem_singleton.mp h]
    exact viewOk_start _
  · decide

theorem raState_inv : Inv raState := by
  constructor <;> simp [raState, State.resetWith, raParams, Config.defaults, Config.C, Config.Q] <;> decide

theorem witness_EncodeOfDecode :
    decode .pPort 0x01DEADBEEFCAFEF00D = .command .rcld ∧ decode .sPort 0x110000007FCAFEF00D = .command (.outld 127) := by
  decide
theorem witness_UnusedFieldsAreIgnored :
    decode .pPort 0x05000007FFCAFEF00D = .command (.sld 2047) ∧
    (0x05000007FFCAFEF00D : Command) &&& usedBits (Instr.sld 2047).format =
      0x05000007FF00000000 &&& usedBits (Instr.sld 2047).format := by decide
theorem witness_IllegalWordsAreRejected :
    State.reset.constructed = true ∧ State.reset.inflight = none ∧ State.reset.eBusy = false ∧
    ¬(0x01 ≤ (Command.op 0x070000000000000000).toNat ∧ (Command.op 0x070000000000000000).toNat ≤ 0x06) ∧
    ¬((Command.op 0x120000000000000000).toNat = 0x10 ∨ (Command.op 0x120000000000000000).toNat = 0x11) := by decide
theorem witness_StepRunsTheDecodedCommand :
    (nextAgent { State.reset with sched := [.producer], pIn := [0x02000007FF00000000] } =
      some (.producer, { State.reset with pIn := [0x02000007FF00000000] }) ∧
      decode .pPort 0x02000007FF00000000 = .command (.rcst 2047)) ∧
    (nextAgent { State.reset with sIn := [0x100000000000000000] } =
      some (.scheduler, { State.reset with sIn := [0x100000000000000000] }) ∧
      decode .sPort 0x100000000000000000 = .command .drain) := by decide
theorem witness_EveryInterleavingIsAdmitted :
    State.reset.sched = [] ∧ enabledAgents State.reset = [] ∧
    Agent.engine ∈ enabledAgents { draining 0 0 .l 0 with pIn := [0x010000000000000000] } ∧
    nextAgent { draining 0 0 .l 0 with pIn := [0x010000000000000000], choices := [1] } =
      some (.engine, { draining 0 0 .l 0 with pIn := [0x010000000000000000] }) := by decide
/-- For `RCLD`, `RCST`, `WCLD`, `WCST`, `SLD` and the one-step `SST`, the last index in range. -/
theorem witness_commandsUnderSc :
    State.reset.accepts .pPort = true ∧ State.reset.cfg.memOrder = .sc ∧ State.reset.cfg.sampleTearing = false ∧
    (2047 : Word).toNat < Config.C ∧
    memWf (sampleErased (oneSample 2047 7).cfg) Config.C (oneSample 2047 7).sample = true := by decide
theorem witness_SstTakesTwoStepsWhenTearing :
    (State.resetWith tearingParams).cfg.sampleTearing = true ∧ (State.resetWith tearingParams).accepts .pPort = true ∧
    { State.resetWith tearingParams with inflight := some (2047, 1) }.inflight = some (2047, 1) ∧
    (State.resetWith tearingParams).cfg.memOrder = .sc ∧
    memWf (sampleErased tearingParams) Config.C (State.resetWith tearingParams).sample = true := by decide
/-- For `DRAIN` and `OUTLD`, the last index in range and the first out of it. -/
theorem witness_sPortCommands :
    State.reset.accepts .sPort = true ∧ (127 : Word).toNat < Config.Q ∧ Config.Q ≤ (128 : Word).toNat := by decide
theorem witness_OperandsOutOfRangeAreRejected :
    Config.C ≤ (2048 : Word).toNat ∧ State.reset.accepts .pPort = true := by decide
theorem witness_BusyPortsAcceptNoCommand :
    (draining 0 127 .s 0).constructed = true ∧ (draining 0 127 .s 0).eBusy = true ∧ Instr.port .drain = .sPort ∧
    { State.resetWith tearingParams with inflight := some (2047, 1) }.inflight = some (2047, 1) ∧
    Instr.port .rcld = .pPort := by decide
/-- Each clause of the micro-steps: idle; `L`; `R` at the last slot and output; `S` before the last iteration and in it. -/
theorem witness_EngineTakesTheThreeMicroSteps :
    (draining 0 0 .l 0).constructed = true ∧ (draining 0 0 .l 0).cfg.memOrder = .sc ∧ State.reset.eBusy = false ∧
    (draining 2047 127 .r 2047).eIdx.toNat < Config.C ∧ (draining 2047 127 .r 2047).eI < Config.Q ∧
    (draining 2047 127 .r 2047).marked 2047 = false ∧ (draining 0 126 .s 0).eI + 1 ≠ Config.Q ∧
    (draining 0 127 .s 0).eI + 1 = Config.Q := by decide
theorem witness_EngineWritesOnlyItsOwn :
    (resultOf (turn .engine (draining 2047 127 .r 2047)) State.ePhase).isSome = true ∧ (126 : Nat) ≠ 127 := by decide

theorem draining_inv (rcur : Word) (phase : Phase) (h : rcur.toNat < Config.C) : Inv (draining rcur 127 phase rcur) := by
  apply inv_of_sc <;> simp_all [draining, State.reset, State.resetWith, Config.C, Config.Q] <;> decide

theorem reset_inv : Inv State.reset := by
  apply inv_of_sc <;> decide

theorem witness_DrainTakesExactlyItsMicroSteps :
    Inv (draining 2047 127 .s 2047) ∧ (draining 2047 127 .s 2047).eBusy = true ∧
    State.reset.accepts .sPort = true ∧ (resultOf (exec .drain State.reset) State.eBusy).isSome = true ∧
    (resultOf (turn .producer (draining 2047 127 .s 2047)) State.eBusy).isSome = true :=
  ⟨draining_inv 2047 .s (by decide), by decide⟩
/-- From `RCUR = 2000`, the wrap of S6. -/
theorem witness_DrainCompletesAfterItsMicroSteps :
    Inv { cursors 2000 5 with sIn := [0x100000000000000000] } ∧ (cursors 2000 5).cfg.memOrder = .sc ∧
    (cursors 2000 5).sched = [] ∧ (cursors 2000 5).pIn = [] ∧ (cursors 2000 5).inflight = none ∧
    (cursors 2000 5).eBusy = false ∧ decode .sPort 0x100000000000000000 = .command .drain := by
  refine ⟨?_, by decide⟩
  apply inv_of_sc <;> decide

/-- A drain accepted at `RCUR = 2000` with only its last micro-step to come, and a push of slot 80 beside it. -/
def lastStep : State :=
  { draining 79 127 .s 79 with
    sched := [.engine]
    pIn := [0x030000000000000000, 0x060000005000000001]
    out := (List.range 128).map (fun k => (k, 0)) }

theorem lastStep_inv : Inv lastStep := by
  apply inv_of_sc <;> decide +kernel

theorem witness_DrainProgressIsKeptByEveryStep :
    (Inv lastStep ∧ DrainFrom 2000 (fun _ => 0) lastStep ∧ (resultOf (step lastStep) State.sOut).isSome = true) ∧
    (Inv (cursors 2000 5) ∧ (cursors 2000 5).cfg.memOrder = .sc ∧ SingleWriter (cursors 2000 5) ∧
      (cursors 2000 5).inflight = none ∧
      (∀ w ∈ (cursors 2000 5).pIn, decodesTo .pPort (Instr.storesInDrain 2000) w = false) ∧
      (cursors 2000 5).eBusy = false ∧ (resultOf (exec .drain (cursors 2000 5)) State.eBusy).isSome = true) ∧
    (decodesTo .pPort Instr.isRcst 0x060000005000000001 = false ∧
      decodesTo .pPort (Instr.storesInDrain 2000) 0x060000005000000001 = false) := by
  have load : decode .pPort 0x030000000000000000 = .command .wcld := by decide
  have store : decode .pPort 0x060000005000000001 = .command (.sst 80 1) := by decide
  have all : ∀ k, k < 128 → lastStep.outCell k = 0 := by decide +kernel
  have other : decodesTo .pPort (Instr.storesInDrain 2000) 0x060000005000000001 = false := by
    simp only [decodesTo, store, Instr.storesInDrain, List.any_eq_false, List.mem_range, drainSlot, Config.Q]
    intro k hk
    simp [Config.C]
    omega
  refine ⟨⟨lastStep_inv, ?_, by decide⟩, ⟨?_, by decide, ?_, by decide, ?_, by decide⟩, by decide, other⟩
  · constructor
    · decide
    · intro w h
      obtain rfl | rfl : w = 0x030000000000000000 ∨ w = 0x060000005000000001 := by simpa [lastStep] using h
      · simp only [decodesTo, load, Instr.isRcst]
      · simp only [decodesTo, store, Instr.isRcst]
    · intro w h
      obtain rfl | rfl : w = 0x030000000000000000 ∨ w = 0x060000005000000001 := by simpa [lastStep] using h
      · simp only [decodesTo, load, Instr.storesInDrain]
      · exact other
    · intro e h; exact absurd h (by simp [lastStep, draining, State.reset, State.resetWith])
    · intro k _; rfl
    · decide
    · decide
    · decide
    · intro k h
      have : lastStep.eI = 127 := rfl
      exact all k (by omega)
  · apply inv_of_sc <;> decide
  · intro w h; exact absurd h (List.not_mem_nil)
  · intro w h; exact absurd h (List.not_mem_nil)

theorem witness_StepKeepsTheInvariant :
    Inv lastStep ∧ (resultOf (step lastStep) State.eBusy).isSome = true ∧ (∀ rest, lastStep.sched ≠ .reset :: rest) :=
  ⟨lastStep_inv, by decide, by intro rest; simp [lastStep]⟩
/-- For the three statements about steps and the bookkeeping of `ra`. -/
theorem witness_StepKeepsTheOrderingSound :
    Inv { raState with pIn := [0x04000007FF00000000] } ∧ OrderingOk raState.ordering ∧
    (resultOf (step { raState with pIn := [0x04000007FF00000000] }) State.wcur) = some 2047 := by
  refine ⟨?_, raState_orderingOk, by decide⟩
  constructor <;> simp [raState, State.resetWith, raParams, Config.defaults, Config.C, Config.Q] <;> decide
theorem witness_ViewsNeverGoBack :
    Inv raState ∧ OrderingOk raState.ordering ∧ (resultOf (step raState) State.wcur).isSome = true :=
  ⟨raState_inv, raState_orderingOk, by decide⟩
theorem witness_ConstructEstablishesTheResetState : { cursors 7 9 with constructed := false }.constructed = false := by
  decide
theorem witness_ResetHappensOnceAndFirst :
    { State.reset with sched := [.reset] }.constructed = true ∧
    { State.reset with constructed := false, sched := [.engine] }.constructed = false ∧ Agent.engine ≠ Agent.reset := by
  decide
/-- A run of one step in which the environment adds a `WCST` of the last index. -/
theorem witness_CursorsStayInRangeInEveryRun :
    ∃ t, Reaches { State.resetWith raParams with pIn := [], sIn := [], sched := [], choices := [] } t ∧ t.wcur = 2047 :=
  ⟨_, .tail .refl ⟨{ Moves.none with pMore := [0x04000007FF00000000] }, rfl⟩, by decide⟩
/-- A `WCST`, a drain's last `S`, an `SST` of the last slot and a micro-step `R` of the last output each change what they
write. -/
theorem witness_OnlyWritersWrite :
    resultOf (step { cursors 0 9 with pIn := [0x04000007FF00000000] }) State.wcur = some 2047 ∧
    resultOf (step (draining 2046 127 .s 2046)) State.rcur = some 2047 ∧
    resultOf (step { cursors 0 9 with pIn := [0x02000007FF00000000] }) State.rcur = some 2047 ∧
    resultOf (step { State.reset with pIn := [0x06000007FF00000001] }) (fun t => t.sampleCell 2047) = some 1 ∧
    State.reset.sampleCell 2047 = 0 ∧
    resultOf (step { draining 2047 127 .r 2047 with out := [(127, 9)] }) (fun t => t.outCell 127) = some 0 ∧
    { draining 2047 127 .r 2047 with out := [(127, 9)] }.outCell 127 = 9 := by decide
theorem witness_OnlySstWritesASample : Inv { State.reset with pIn := [0x06000007FF00000001] } := by
  apply inv_of_sc <;> decide
theorem witness_ParametersAreFixed :
    (resultOf (step lastStep) State.cfg).isSome = true ∧ lastStep.constructed = true := by decide
/-- Twins that have already been answered differently. -/
theorem witness_WriteCursorInfluencesOnlyWcld :
    WcurTwin lastStep { lastStep with wcur := 2047, pOut := [{ ok := true, data := 2047 }] } ∧
    (resultOf (step lastStep) State.wcur).isSome = true ∧ ¬loadsCursor .producer .wcur lastStep := by
  refine ⟨⟨by decide, rfl⟩, by decide, ?_⟩
  intro h
  exact absurd h.1 (by decide)
theorem witness_SequencerResidueIsNeverRead :
    { State.reset with sIn := [0x100000000000000000] }.eBusy = false ∧
    resultOf (step { State.reset with sIn := [0x100000000000000000] }) State.eBusy = some true ∧
    (draining 0 127 .l 0).constructed = true ∧ (draining 0 127 .l 0).eBusy = true ∧
    (draining 0 127 .l 0).ePhase = .l := by decide
/-- From reset, with an idle turn scheduled for ever: a run that has ended at its first state. -/
theorem witness_FinalStatesHold :
    (Final State.reset ∧ State.reset.sched = []) ∧
    InfiniteRun (fun _ => { Moves.none with sched := [.engine] }) (fun _ => State.reset) ∧
    EndsAt (fun _ => { Moves.none with sched := [.engine] }) (fun _ => State.reset) 0 := by
  have final : Final State.reset := by unfold Final; decide
  exact ⟨⟨final, rfl⟩, fun _ => rfl, final, fun _ _ => ⟨rfl, rfl⟩⟩
theorem witness_NextIsACyclicShift : (2047 : Word).toNat < Config.C ∧ 0 < 2047 ∧ 2047 < Config.C := by decide
theorem witness_OccupancyEstimateIsTheDifferenceModC :
    (0 : Word).toNat < Config.C ∧ (2047 : Word).toNat < Config.C := by decide
theorem witness_SampleArrayReadsAfterWrites :
    memWf (sampleErased (oneSample 2047 1).cfg) Config.C (oneSample 2047 1).sample = true ∧ 2047 < Config.C ∧
    (oneSample 2047 1).cfg.sampleReset = .zero ∧
    (∀ k, k < Config.C → (oneSample 2047 1).sampleCell k = (oneSample 2047 1).sampleCell k) :=
  ⟨by decide, by decide, by decide, fun _ _ => rfl⟩
/-- For the loads and the stores of cursors and the reads of samples, each clause: the Producer idle; the engine at `L`, at
`S` of the last iteration, and at `R` of the last slot and output. -/
theorem witness_raAccesses :
    raState.constructed = true ∧ raState.cfg.memOrder = .ra ∧ OrderingOk raState.ordering ∧ raState.inflight = none ∧
    (2047 : Word).toNat < Config.C ∧
    { raState with eBusy := true, ePhase := .l }.ePhase = .l ∧
    { raState with eBusy := true, eI := 127, ePhase := .s }.ePhase = .s ∧
    ({ raState with eBusy := true, eI := 127, ePhase := .r, eIdx := 2047 }.eI < Config.Q ∧
      { raState with eBusy := true, eI := 127, ePhase := .r, eIdx := 2047 }.marked 2047 = false) :=
  ⟨by decide, by decide, raState_orderingOk, by decide⟩
theorem witness_RaSampleStoresAddAValue :
    (Inv raState ∧ OrderingOk raState.ordering ∧ raState.cfg.memOrder = .ra ∧ raState.cfg.sampleTearing = false) ∧
    (Inv { raState with cfg := { raParams with sampleTearing := true }, inflight := some (2047, 7) } ∧
      (2047 : Word).toNat < Config.C) := by
  refine ⟨⟨raState_inv, raState_orderingOk, by decide, by decide⟩, ?_, by decide⟩
  constructor <;> simp [raState, State.resetWith, raParams, Config.defaults, Config.C, Config.Q] <;> decide
/-- Slot 5 read by the Consumer at the older entry and at the newest, and `WCUR` by the Consumer at its newest entry. -/
theorem witness_RaAdmitsEveryVisibleEntry :
    raState.cfg.memOrder = .ra ∧
    ((raState.ordering.view .consumer).cursor .wcur ≤ 1 ∧ 1 ≤ (raState.ordering.history .wcur).last) ∧
    raState.marked 5 = false ∧ (raState.ordering.view .consumer).slot 5 ≤ 0 ∧
    1 ≤ (raState.ordering.olderSamples 5).length := by decide
theorem witness_EveryScStepIsAnRaStep :
    lastStep.cfg.memOrder = .sc ∧ Inv lastStep ∧
    RaTwin lastStep { lastStep with cfg := raParams, ordering := raState.ordering } ∧ OrderingOk raState.ordering ∧
    (resultOf (step lastStep) State.wcur).isSome = true :=
  ⟨by decide, lastStep_inv, rfl, raState_orderingOk, by decide⟩
theorem witness_TornReadsReturnAnyWord :
    { draining 0 127 .r 2047 with inflight := some (2047, 1) }.constructed = true ∧
    (draining 0 127 .r 2047).eBusy = true ∧ (draining 0 127 .r 2047).ePhase = .r ∧
    (draining 0 127 .r 2047).eIdx.toNat < Config.C ∧ (draining 0 127 .r 2047).eI < Config.Q ∧
    { draining 0 127 .r 2047 with inflight := some (2047, 1) }.inflight =
      some ((draining 0 127 .r 2047).eIdx, 1) := by decide
theorem witness_SlotRacesAdmitBothOrders :
    Inv { draining 2047 127 .r 2047 with pIn := [encode (.sst 2047 7)] } ∧
    (draining 2047 127 .r 2047).cfg.memOrder = .sc ∧ (draining 2047 127 .r 2047).cfg.sampleTearing = false ∧
    (draining 2047 127 .r 2047).inflight = none ∧ (draining 2047 127 .r 2047).ePhase = .r :=
  ⟨by apply inv_of_sc <;> decide, by decide⟩
/-- Two pushes from `WCUR = 2047`, across the wrap; the first of them is `PushWritesThenAdvances`. The last of 2049 values
is among the last `C`, the first is not, and no slot but two is outside them. -/
theorem witness_PushesFillTheRing :
    (Inv { cursors 3 2047 with
        pIn := (pushAll 2047 [1, 2]).map encode
        sched := List.replicate (3 * [(1 : Word), 2].length) .producer } ∧
      (pushAll 2047 [1, 2]).map encode = (pushCommands 2047 1).map encode ++ (pushAll 0 [2]).map encode ∧
      (cursors 3 2047).cfg.sampleTearing = false ∧ (cursors 3 2047).cfg.memOrder = .sc ∧
      (cursors 3 2047).inflight = none ∧ (cursors 3 2047).wcur = 2047) ∧
    (2048 < 2049 ∧ 2049 ≤ 2048 + Config.C ∧ ¬2049 ≤ 0 + Config.C) ∧
    (∀ j, j < 2 → 5 ≠ ((2047 : Word).toNat + j) % Config.C) :=
  ⟨⟨by apply inv_of_sc <;> decide, by decide⟩, by decide, by decide⟩
theorem witness_PushExpandsToThreeCommands :
    (2047 : Word).toNat < Config.C ∧ lookupName "w" [("w", 2047)] = some 2047 := by decide

/-! ### Runs, and what the two fairness conditions exclude -/

/-- The infinite run that completes the drain of `lastStep` and then holds. -/
def witnessRun : Nat → State
  | 0 => { draining 79 127 .s 79 with sched := [.engine] }
  | _ + 1 => { draining 80 128 .s 79 with eBusy := false, sOut := [{ ok := true, data := 1 }] }

theorem witness_FairRunsCompleteEveryDrain :
    InfiniteRun (fun _ => Moves.none) witnessRun ∧ Inv (witnessRun 0) ∧ EngineFair (fun _ => Moves.none) witnessRun ∧
    (witnessRun 0).eBusy = true := by
  refine ⟨?_, by apply inv_of_sc <;> decide, ?_, by decide⟩
  · intro n
    cases n <;> rfl
  · intro n h
    cases n with
    | zero => exact ⟨0, Nat.le_refl 0, by decide⟩
    | succ n => exact absurd h (by simp [witnessRun])

/-- The environment in which the Producer issues a `WCLD` before every step and is given every turn. -/
def endlessLoads (_ : Nat) : Moves := { Moves.none with pMore := [0x030000000000000000], sched := [.producer] }

theorem witness_EveryEnvironmentHasARun :
    Inv State.reset ∧ .reset ∉ State.reset.sched ∧ ∀ n, .reset ∉ (endlessLoads n).sched :=
  ⟨reset_inv, by decide, fun _ => by simp [endlessLoads]⟩
/-- R216, R142: streaming for ever is a run: a command performed at every step. -/
theorem test_endlessStreaming :
    InfiniteRun endlessLoads
      (fun n => { State.reset with pOut := List.replicate n { ok := true, data := 0 } }) := fun _ => rfl
/-- R214: a run that never gives the engine its turn is a run, and is not fair to it. -/
theorem test_unfairRun :
    InfiniteRun (fun _ => { Moves.none with sched := [.producer] }) (fun _ => draining 0 0 .l 0) ∧
    ¬EngineFair (fun _ => { Moves.none with sched := [.producer] }) (fun _ => draining 0 0 .l 0) := by
  refine ⟨fun _ => rfl, fun fair => ?_⟩
  obtain ⟨_, _, moves⟩ := fair 0 rfl
  have idle : some Agent.producer = some Agent.engine := moves
  exact absurd idle (by decide)
/-- R214: the Producer may stop for ever between the two steps of an `SST` (R58). -/
theorem test_producerStopsInSst :
    exec (.sst 5 7) (State.resetWith tearingParams) =
      .next { State.resetWith tearingParams with inflight := some (5, 7) } ∧
    InfiniteRun (fun _ => { Moves.none with sched := [.scheduler] })
      (fun _ => { State.resetWith tearingParams with inflight := some (5, 7) }) := ⟨rfl, fun _ => rfl⟩

/-- Under `ra`, after one store of `RCUR` by the engine that the Producer has not seen. -/
def staleState : State :=
  { State.resetWith raParams with
    rcur := 1
    ordering := { RaState.start with
      rcur := { older := [(0, View.start)], msg := { View.start with rcur := 1 } }
      consumerView := { View.start with rcur := 1 } } }

/-- R63: loading the old entry for ever is a run, and `CursorsVisible` excludes it. -/
theorem test_invisibleCursor :
    let loads : Nat → Moves := fun _ =>
      { Moves.none with pMore := [0x010000000000000000], sched := [.producer], choices := [0] }
    let run : Nat → State := fun n => { staleState with pOut := List.replicate n { ok := true, data := 0 } }
    InfiniteRun loads run ∧ ¬CursorsVisible loads run := by
  refine ⟨fun _ => rfl, fun visible => ?_⟩
  obtain ⟨_, _, seen⟩ := visible 0 .producer .rcur fun i =>
    ⟨i, Nat.le_refl i, rfl, rfl, 0x010000000000000000, [], rfl, by decide⟩
  have behind : 1 ≤ 0 := seen
  exact absurd behind (by decide)

end Sys2Proof.Tests
end

section
/-! SUPPORT. The scope statements (spec/00_scope.md): who moves next, what a step runs, what no step changes, and the
sample array as storage. -/

namespace Sys2Proof.Machine

variable {s s' t : State}

/-! ### Which agent moves next -/

/-- With nothing scheduled and no agent enabled, none moves. -/
theorem nextAgent_idle (h : s.sched = []) (he : enabledAgents s = []) : nextAgent s = none := by
  simp [nextAgent, h, he]

theorem step_idle (h : s.sched = []) (he : enabledAgents s = []) : step s = .next s := by
  simp [step, nextAgent_idle h he]

/-- With nothing scheduled a draw among the enabled agents says who moves next. -/
theorem nextAgent_free {a : Agent} {more : List Agent} (h : s.sched = []) (he : enabledAgents s = a :: more) :
    nextAgent s =
      some ((a :: more).getD (drawBetween 0 more.length s).1 a, (drawBetween 0 more.length s).2) := by
  simp [nextAgent, h, he]

theorem nextAgent_free_mem {a : Agent} (h : s.sched = []) (hn : nextAgent s = some (a, s')) :
    a ∈ enabledAgents s := by
  cases he : enabledAgents s with
  | nil => rw [nextAgent_idle h he] at hn; cases hn
  | cons b more =>
    rw [nextAgent_free h he] at hn
    cases hn
    have hle := (drawBetween_mem (Nat.zero_le more.length) s).2
    rw [List.getD_eq_getElem _ _ (by simp only [List.length_cons]; omega)]
    exact List.getElem_mem _

/-- The position of an enabled agent, listed as the next choice, makes that agent move. -/
theorem nextAgent_free_admits {a : Agent} (h : s.sched = []) (ha : a ∈ enabledAgents s) :
    ∃ n s', nextAgent { s with choices := n :: s.choices } = some (a, s') := by
  obtain ⟨n, hlt, hget⟩ := List.getElem_of_mem ha
  cases he : enabledAgents s with
  | nil => rw [he] at ha; cases ha
  | cons b more =>
    simp only [he] at hlt hget
    have hdraw : (drawBetween 0 more.length { s with choices := n :: s.choices }).1 = n :=
      drawBetween_admits (Nat.zero_le n) (Nat.le_of_lt_succ hlt) s s.choices
    have hn := nextAgent_free (s := { s with choices := n :: s.choices }) h he
    rw [hdraw, List.getD_eq_getElem _ _ hlt, hget] at hn
    exact ⟨n, _, hn⟩

/-- Settles O9: a listed schedule is followed; else the draw picks from `enabledAgents`, and each position can be drawn. -/
theorem everyInterleavingIsAdmitted : Obligations.EveryInterleavingIsAdmitted := by
  intro s
  refine ⟨fun a rest => nextAgent_listed, fun h => ⟨?moves, ?admits, ?idle⟩⟩
  case moves => exact fun a s' => nextAgent_free_mem h
  case admits => exact fun a => nextAgent_free_admits h
  case idle => exact fun he => step_idle h he

/-! ### A step that issues a command -/

theorem issue_command {p : Port} {w : Command} {i : Instr} (hd : decode p w = .command i) (s : State) :
    issue p w s = exec i s := by
  simp [issue, hd]

/-- R80: with no `SST` in flight the Producer's turn issues the next word of the P-port. -/
theorem turn_producer_issues {w : Command} {rest : List Command} (hc : s.constructed = true)
    (hf : s.inflight = none) (hp : s.pIn = w :: rest) :
    turn .producer s = issue .pPort w { s with pIn := rest } := by
  simp [turn, hc, producerTurn, hf, hp]

/-- R80, R151: with no drain in progress the Scheduler's turn issues the next word of the S-port. -/
theorem turn_scheduler_issues {w : Command} {rest : List Command} (hc : s.constructed = true)
    (hb : s.eBusy = false) (hp : s.sIn = w :: rest) :
    turn .scheduler s = issue .sPort w { s with sIn := rest } := by
  simp [turn, hc, schedulerTurn, hb, hp]

/-- Settles O7: choosing the agent moves neither port, so the agent's turn issues the word that `s` lists. -/
theorem stepRunsTheDecodedCommand : Obligations.StepRunsTheDecodedCommand := by
  intro s s' w rest i hc
  constructor
  · intro hn hf hp hd
    rw [step_of_nextAgent hn]
    obtain ⟨sc, cs, d, rfl⟩ := nextAgent_frame hn
    exact Eq.trans (turn_producer_issues hc hf hp) (issue_command hd _)
  · intro hn hb hp hd
    rw [step_of_nextAgent hn]
    obtain ⟨sc, cs, d, rfl⟩ := nextAgent_frame hn
    exact Eq.trans (turn_scheduler_issues hc hb hp) (issue_command hd _)

/-! ### What no step changes -/

@[simp] theorem microL_cfg (s : State) : (microL s).cfg = s.cfg := by simp [microL]

@[simp] theorem microL_constructed (s : State) : (microL s).constructed = s.constructed := by simp [microL]

@[simp] theorem microS_cfg (s : State) : (microS s).cfg = s.cfg := by unfold microS; split <;> simp

@[simp] theorem microS_constructed (s : State) : (microS s).constructed = s.constructed := by
  unfold microS; split <;> simp

/-- No command changes a parameter: each result is made of operations that keep them. -/
theorem execResult_cfg {i : Instr} (h : ExecResult s i t) : t.cfg = s.cfg := by
  cases h <;> simp [storeSample, reject]

theorem execResult_constructed {i : Instr} (h : ExecResult s i t) : t.constructed = s.constructed := by
  cases h <;> simp [storeSample, reject]

theorem turnResult_cfg {a : Agent} (h : TurnResult s a t) : t.cfg = s.cfg := by
  cases h with
  | pass => rfl
  | sstEnd => simp [endSst, storeSample]
  | pRejected => simp [reject]
  | pCommand _ _ _ _ hx => exact (execResult_cfg hx).trans rfl
  | sRejected => simp [reject]
  | sCommand _ _ _ _ hx => exact (execResult_cfg hx).trans rfl
  | microL => simp
  | microR => simp
  | microS => simp
  | construct => rfl

/-- R216: after any turn the block is constructed: only `CONSTRUCT` has a turn before it. -/
theorem turnResult_constructed {a : Agent} (h : TurnResult s a t) : t.constructed = true := by
  cases h with
  | pass hc => exact hc
  | sstEnd hc => simpa [endSst, storeSample] using hc
  | pRejected hc => simpa [reject] using hc
  | pCommand hc _ _ _ hx => exact (execResult_constructed hx).trans hc
  | sRejected hc => simpa [reject] using hc
  | sCommand hc _ _ _ hx => exact (execResult_constructed hx).trans hc
  | microL hc => simpa using hc
  | microR hc => simpa using hc
  | microS hc => simpa using hc
  | construct => rfl

/-- Settles O38, by the inversion of `step`: the state stays, or one agent takes its turn. -/
theorem parametersAreFixed : Obligations.ParametersAreFixed := by
  intro s t h
  obtain ⟨-, rfl⟩ | ⟨a, sc, cs, d, -, ht⟩ := step_cases h
  · exact ⟨rfl, id⟩
  · exact ⟨(turnResult_cfg ht).trans rfl, fun _ => turnResult_constructed ht⟩

/-! ### The sample array as storage -/

section
variable {α : Type} [DecidableEq α] {m m' : List (Nat × α)} {bound k : Nat}

/-- A canonical list has no entry at or above its bound. -/
theorem memGet?_of_bound_le {erased : Option α} (h : memWf erased bound m = true) (hk : bound ≤ k) :
    memGet? k m = none := by
  cases hg : memGet? k m with
  | none => rfl
  | some v => exact absurd (memGet?_ne_erased h hg).2 (Nat.not_lt.2 hk)

/-- A canonical list that erases `d` lists exactly the values that read as other than `d`. -/
theorem memGet?_eq_of_getD {d : α} (h : memWf (some d) bound m = true) :
    memGet? k m = if (memGet? k m).getD d = d then none else some ((memGet? k m).getD d) := by
  cases hg : memGet? k m with
  | none => simp
  | some v =>
    have hv : v ≠ d := fun hv => (memGet?_ne_erased h hg).1 (congrArg some hv)
    simp [hv]

/-- Two canonical lists that read alike at every key below the bound are the same list. -/
theorem memWf_ext_getD {d : α} (h : memWf (some d) bound m = true) (h' : memWf (some d) bound m' = true)
    (hg : ∀ k, k < bound → (memGet? k m).getD d = (memGet? k m').getD d) : m = m' := by
  refine memWf_ext h h' fun k => ?_
  by_cases hk : k < bound
  · rw [memGet?_eq_of_getD h, memGet?_eq_of_getD h', hg k hk]
  · rw [memGet?_of_bound_le h (Nat.not_lt.1 hk), memGet?_of_bound_le h' (Nat.not_lt.1 hk)]

end

theorem sampleErased_zero {cfg : Config.Params} (h : cfg.sampleReset = .zero) : sampleErased cfg = some 0 := by
  simp [sampleErased, h]

/-- R34: with `SAMPLE_RESET = zero` a slot not listed reads as 0. -/
theorem sampleCell_zero (h : s.cfg.sampleReset = .zero) (k : Nat) : s.sampleCell k = (memGet? k s.sample).getD 0 := by
  simp [State.sampleCell, sampleResetValue, h]

/-- Settles O45: the laws of sparse data, at the sample array. -/
theorem sampleArrayReadsAfterWrites : Obligations.SampleArrayReadsAfterWrites := by
  constructor
  · intro s a k v hwf hk
    refine ⟨?_, sampleCell_write hwf a k v⟩
    rw [sampleWrite_sample]
    exact memWf_set hk hwf
  · intro s t hs ht hws hwt hread
    rw [sampleErased_zero hs] at hws
    rw [sampleErased_zero ht] at hwt
    refine memWf_ext_getD hws hwt fun k hk => ?_
    rw [← sampleCell_zero hs, ← sampleCell_zero ht]
    exact hread k hk

end Sys2Proof.Machine
end

section
/-! SUPPORT. The state statements, first part: the invariant (R24, R28, R58, R63) at reset and along every run. -/

namespace Sys2Proof.Machine

variable {s t : State}

/-! ### The invariant holds after `CONSTRUCT` -/

/-- R33 to R36: `CONSTRUCT` establishes the invariant from any contents. -/
theorem inv_construct (s : State) : Inv (construct s) where
  constructed := rfl
  rcur_lt := show (0 : Word).toNat < Config.C by decide
  wcur_lt := show (0 : Word).toNat < Config.C by decide
  rcur_older_lt := fun _ he => absurd he List.not_mem_nil
  wcur_older_lt := fun _ he => absurd he List.not_mem_nil
  busy_iter := nofun
  busy_idx := nofun
  sample_wf := rfl
  out_wf := rfl
  inflight_ok := nofun
  sc_ordering := fun _ => rfl

theorem viewOk_start (o : RaState) : ViewOk o View.start where
  rcur_le := Nat.zero_le _
  wcur_le := Nat.zero_le _
  sample_wf := rfl
  slot_le := fun _ => Nat.zero_le _

/-- R63: at reset every history holds one entry and every view names it. -/
theorem orderingOk_start : OrderingOk RaState.start where
  producer_ok := viewOk_start _
  consumer_ok := viewOk_start _
  rcur_msg_ok := viewOk_start _
  wcur_msg_ok := viewOk_start _
  rcur_older_ok := fun _ he => absurd he List.not_mem_nil
  wcur_older_ok := fun _ he => absurd he List.not_mem_nil
  sample_wf := rfl

theorem resetWith_eq_construct (cfg : Config.Params) : State.resetWith cfg = construct (State.resetWith cfg) := rfl

theorem inv_resetWith (cfg : Config.Params) : Inv (State.resetWith cfg) := by
  rw [resetWith_eq_construct]
  exact inv_construct _

/-- Settles O26: the reset state lists no sample, so each slot reads as its reset value. -/
theorem resetLeavesTheStatedValues : Obligations.ResetLeavesTheStatedValues := by
  refine ⟨rfl, rfl, fun cfg => ⟨rfl, rfl, fun hz k _ => ?samples, rfl, fun p => ?accepts⟩⟩
  case samples => exact sampleCell_zero hz k
  case accepts => cases p <;> rfl

/-- Settles O27: the invariant says nothing of the moves to come. -/
theorem resetMeetsTheInvariants : Obligations.ResetMeetsTheInvariants :=
  fun cfg pIn sIn sched choices =>
    ⟨inv_environment (inv_resetWith cfg) pIn sIn [] [] sched choices 0, orderingOk_start⟩

/-- Settles O31: `construct` is the next state, and it lists no sample and no output. -/
theorem constructEstablishesTheResetState : Obligations.ConstructEstablishesTheResetState := by
  intro s hc
  have hturn : turn .reset s = .next (construct s) := by simp [turn, hc]
  exact ⟨construct s, hturn, inv_construct s, orderingOk_start, rfl, rfl, rfl, fun _ => rfl, fun _ => rfl,
    rfl, rfl, rfl, rfl, rfl, rfl⟩

/-! ### Every step keeps the invariant -/

theorem inv_storeSample (h : Inv s) {k : Nat} (hk : k < Config.C) (data : Word) : Inv (storeSample k data s) :=
  inv_respond (inv_sampleWrite h _ data hk) _ _

/-- Every command keeps the invariant: its operand, where it has one, passed the range test (R118). -/
theorem inv_execResult {i : Instr} (h : Inv s) (hx : ExecResult s i t) : Inv t := by
  cases hx with
  | rcld => exact inv_respond (inv_atomicLoad h _ _) _ _
  | wcld => exact inv_respond (inv_atomicLoad h _ _) _ _
  | rcst hi => exact inv_respond (inv_atomicStore h _ _ hi) _ _
  | wcst hi => exact inv_respond (inv_atomicStore h _ _ hi) _ _
  | sld hi => exact inv_respond (inv_sampleRead h _ _) _ _
  | sstBegin hi ht => exact { h with inflight_ok := by rintro e ⟨⟩; exact ⟨ht, hi⟩ }
  | sst hi ht => exact inv_storeSample h hi _
  | drain => exact { h with busy_iter := fun _ => show 0 < Config.Q by decide, busy_idx := fun _ hp => absurd rfl hp }
  | outld hi => exact inv_respond h _ _
  | rejected hi => exact inv_reject h _

theorem inv_endSst (h : Inv s) {index data : Word} (hf : s.inflight = some (index, data)) :
    Inv (endSst index data s) := by
  have hidle : Inv { s with inflight := none } := { h with inflight_ok := nofun }
  exact inv_storeSample hidle (h.inflight_ok _ hf).2 data

/-- Micro-step `L` latches a value of `RCUR`, which is in range (R24). -/
theorem inv_microL (h : Inv s) : Inv (microL s) :=
  { inv_atomicLoad h .consumer .rcur with busy_idx := fun _ _ => atomicLoad_value_lt h .consumer .rcur }

theorem inv_microR (h : Inv s) (hi : s.eI < Config.Q) (hx : s.eIdx.toNat < Config.C) :
    Inv { outWrite s.eI (sampleRead .consumer s.eIdx.toNat s).1 (sampleRead .consumer s.eIdx.toNat s).2 with
      ePhase := .s } :=
  have hread := inv_sampleRead h .consumer s.eIdx.toNat
  { hread with
    busy_idx := fun _ _ => by simpa using hx
    out_wf := memWf_set hi hread.out_wf }

/-- Micro-step `S` stores an advance, which is in range (R144), and ends the drain or begins an iteration below `Q`. -/
theorem inv_microS (h : Inv s) (hb : s.eBusy = true) : Inv (microS s) := by
  have hstore := inv_atomicStore h .consumer .rcur (nextIndex_lt s.eIdx)
  have hiter := h.busy_iter hb
  unfold microS
  split
  · refine inv_respond ?_ _ _
    exact { hstore with busy_iter := nofun, busy_idx := nofun }
  · next hlast =>
    exact { hstore with
      busy_iter := fun _ => Nat.lt_of_le_of_ne hiter hlast
      busy_idx := fun _ hp => absurd rfl hp }

theorem inv_turnResult {a : Agent} (h : Inv s) (hr : TurnResult s a t) : Inv t := by
  cases hr with
  | pass => exact h
  | sstEnd _ hf => exact inv_endSst h hf
  | pRejected => exact inv_reject (inv_environment h _ _ _ _ _ _ _) _
  | pCommand _ _ _ _ hx => exact inv_execResult (inv_environment h _ _ _ _ _ _ _) hx
  | sRejected => exact inv_reject (inv_environment h _ _ _ _ _ _ _) _
  | sCommand _ _ _ _ hx => exact inv_execResult (inv_environment h _ _ _ _ _ _ _) hx
  | microL => exact inv_microL h
  | microR _ _ _ hx hi => exact inv_microR h hi hx
  | microS _ hb _ => exact inv_microS h hb
  | construct => exact inv_construct s

theorem inv_step (h : Inv s) (hs : step s = .next t) : Inv t := by
  obtain ⟨-, rfl⟩ | ⟨a, sc, cs, d, -, hr⟩ := step_cases hs
  · exact h
  · exact inv_turnResult (inv_environment h _ _ _ _ sc cs d) hr

/-- Settles O28, by the inversion of `step` and one lemma a turn. -/
theorem stepKeepsTheInvariant : Obligations.StepKeepsTheInvariant :=
  fun _ _ => inv_step

/-! ### Runs -/

/-- What the environment's moves and every step keep holds of every state reached. -/
theorem reaches_induction {P : State → Prop} (hsupply : ∀ s m, P s → P (supply m s))
    (hstep : ∀ s t, P s → step s = .next t → P t) (h : Reaches s t) (hs : P s) : P t := by
  induction h with
  | refl => exact hs
  | tail _ hu ih =>
    obtain ⟨m, hm⟩ := hu
    exact hstep _ _ (hsupply _ m ih) hm

theorem inv_reaches (h : Inv s) (hr : Reaches s t) : Inv t :=
  reaches_induction (fun _ m hi => inv_supply hi m) (fun _ _ => inv_step) hr h

/-- Settles O33: the invariant bounds the cursors and all that their histories list. -/
theorem cursorsStayInRangeInEveryRun : Obligations.CursorsStayInRangeInEveryRun := by
  intro cfg pIn sIn sched choices t hr
  have ht : Inv t := inv_reaches (resetMeetsTheInvariants cfg pIn sIn sched choices).1 hr
  exact ⟨ht.rcur_lt, ht.wcur_lt, atomicLoad_value_lt ht⟩

end Sys2Proof.Machine
end

section
/-! SUPPORT. The state statements, second part: which agent writes which part of the state (R38). -/

namespace Sys2Proof.Machine

variable {s t : State}

/-! ### What the cells depend on -/

theorem sampleCell_congr (hs : t.sample = s.sample) (hc : t.cfg = s.cfg) (k : Nat) :
    t.sampleCell k = s.sampleCell k := by
  simp only [State.sampleCell, hs, hc]

theorem outCell_congr (ho : t.out = s.out) (k : Nat) : t.outCell k = s.outCell k := by
  simp only [State.outCell, ho]

/-- A write of one output slot leaves every other as it reads. -/
theorem outCell_write_other {j k : Nat} (h : j ≠ k) (v : Word) : (outWrite k v s).outCell j = s.outCell j := by
  simp only [State.outCell, outWrite_out, memGet?_set_other h]

/-! ### Parts of composed operations -/

@[simp] theorem reject_sample (p : Port) (s : State) : (reject p s).sample = s.sample := respond_sample ..
@[simp] theorem reject_rcur (p : Port) (s : State) : (reject p s).rcur = s.rcur := respond_rcur ..
@[simp] theorem reject_wcur (p : Port) (s : State) : (reject p s).wcur = s.wcur := respond_wcur ..
@[simp] theorem reject_out (p : Port) (s : State) : (reject p s).out = s.out := respond_out ..
@[simp] theorem reject_eBusy (p : Port) (s : State) : (reject p s).eBusy = s.eBusy := respond_eBusy ..
@[simp] theorem reject_eI (p : Port) (s : State) : (reject p s).eI = s.eI := respond_eI ..
@[simp] theorem reject_ePhase (p : Port) (s : State) : (reject p s).ePhase = s.ePhase := respond_ePhase ..
@[simp] theorem reject_eIdx (p : Port) (s : State) : (reject p s).eIdx = s.eIdx := respond_eIdx ..
@[simp] theorem reject_inflight (p : Port) (s : State) : (reject p s).inflight = s.inflight := respond_inflight ..
@[simp] theorem reject_pIn (p : Port) (s : State) : (reject p s).pIn = s.pIn := respond_pIn ..

section
variable (k : Nat) (data : Word) (s : State)

@[simp] theorem storeSample_rcur : (storeSample k data s).rcur = s.rcur := by simp [storeSample]
@[simp] theorem storeSample_wcur : (storeSample k data s).wcur = s.wcur := by simp [storeSample]
@[simp] theorem storeSample_out : (storeSample k data s).out = s.out := by simp [storeSample]
@[simp] theorem storeSample_eBusy : (storeSample k data s).eBusy = s.eBusy := by simp [storeSample]
@[simp] theorem storeSample_eI : (storeSample k data s).eI = s.eI := by simp [storeSample]
@[simp] theorem storeSample_ePhase : (storeSample k data s).ePhase = s.ePhase := by simp [storeSample]
@[simp] theorem storeSample_eIdx : (storeSample k data s).eIdx = s.eIdx := by simp [storeSample]
@[simp] theorem storeSample_inflight : (storeSample k data s).inflight = s.inflight := by simp [storeSample]
@[simp] theorem storeSample_pIn : (storeSample k data s).pIn = s.pIn := by simp [storeSample]

/-- A response changes no cell, so a stored sample reads as the bare write leaves it. -/
theorem storeSample_sampleCell (j : Nat) :
    (storeSample k data s).sampleCell j = (sampleWrite .producer k data s).sampleCell j :=
  sampleCell_congr (respond_sample ..) (respond_cfg ..) j

end

/-! ### One command -/

/-- R23: the one command that writes `WCUR` is `WCST`. -/
theorem execResult_wcur {i : Instr} (hx : ExecResult s i t) : t.wcur = s.wcur ∨ i = .wcst t.wcur := by
  cases hx with
  | wcst => right; simp
  | _ => left; simp

/-- R22: the one command that writes `RCUR` is `RCST`; `DRAIN` leaves that to the engine. -/
theorem execResult_rcur {i : Instr} (hx : ExecResult s i t) : t.rcur = s.rcur ∨ i = .rcst t.rcur := by
  cases hx with
  | rcst => right; simp
  | _ => left; simp

/-- R29: no command writes the output buffer. -/
theorem execResult_out {i : Instr} (hx : ExecResult s i t) : t.out = s.out := by
  cases hx <;> simp

/-- R58: the one command that marks a slot is the `SST` to it, in its step `begin`. -/
theorem execResult_inflight {i : Instr} (hx : ExecResult s i t) :
    t.inflight = s.inflight ∨ ∃ index data, i = .sst index data ∧ t.inflight = some (index, data) := by
  cases hx with
  | sstBegin => exact .inr ⟨_, _, rfl, rfl⟩
  | _ => left; simp

/-- R117: the one command that changes what a sample slot reads as is the `SST` to it of the new value. -/
theorem execResult_sampleCell {i : Instr} (hx : ExecResult s i t)
    (hwf : memWf (sampleErased s.cfg) Config.C s.sample = true) (k : Nat) :
    t.sampleCell k = s.sampleCell k ∨ ∃ index, index.toNat = k ∧ i = .sst index (t.sampleCell k) := by
  have hcfg := execResult_cfg hx
  cases hx with
  | sst =>
    rw [storeSample_sampleCell, sampleCell_write hwf]
    split
    · next he => exact .inr ⟨_, he.symm, rfl⟩
    · exact .inl rfl
  | _ => left; exact sampleCell_congr (by simp) hcfg k

/-! ### One micro-step -/

@[simp] theorem microL_rcur (s : State) : (microL s).rcur = s.rcur := by simp [microL]
@[simp] theorem microL_wcur (s : State) : (microL s).wcur = s.wcur := by simp [microL]
@[simp] theorem microL_sample (s : State) : (microL s).sample = s.sample := by simp [microL]
@[simp] theorem microL_out (s : State) : (microL s).out = s.out := by simp [microL]
@[simp] theorem microS_wcur (s : State) : (microS s).wcur = s.wcur := by unfold microS; split <;> simp
@[simp] theorem microS_sample (s : State) : (microS s).sample = s.sample := by unfold microS; split <;> simp
@[simp] theorem microS_out (s : State) : (microS s).out = s.out := by unfold microS; split <;> simp
@[simp] theorem microS_rcur (s : State) : (microS s).rcur = nextIndex s.eIdx := by unfold microS; split <;> simp

/-! ### One turn -/

theorem turnResult_wcur {a : Agent} (hr : TurnResult s a t) (hc : s.constructed = true) :
    t.wcur = s.wcur ∨
      a = .producer ∧ ∃ w rest, s.pIn = w :: rest ∧ decode .pPort w = .command (.wcst t.wcur) := by
  cases hr with
  | pCommand _ _ hp hd hx =>
    rcases execResult_wcur hx with hw | rfl
    · exact .inl hw
    · exact .inr ⟨rfl, _, _, hp, hd⟩
  | sCommand _ _ _ hd hx =>
    rcases execResult_wcur hx with hw | rfl
    · exact .inl hw
    · exact absurd (decode_command hd).1 (by simp [Instr.port])
  | construct hf => exact absurd hc (by simp [hf])
  | _ => left; simp [endSst]

theorem turnResult_rcur {a : Agent} (hr : TurnResult s a t) (hc : s.constructed = true) :
    t.rcur = s.rcur ∨
      (a = .engine ∧ s.eBusy = true ∧ s.ePhase = .s ∧ t.rcur = nextIndex s.eIdx) ∨
      (a = .producer ∧ ∃ w rest, s.pIn = w :: rest ∧ decode .pPort w = .command (.rcst t.rcur)) := by
  cases hr with
  | pCommand _ _ hp hd hx =>
    rcases execResult_rcur hx with hw | rfl
    · exact .inl hw
    · exact .inr (.inr ⟨rfl, _, _, hp, hd⟩)
  | sCommand _ _ _ hd hx =>
    rcases execResult_rcur hx with hw | rfl
    · exact .inl hw
    · exact absurd (decode_command hd).1 (by simp [Instr.port])
  | microS _ hb hp => exact .inr (.inl ⟨rfl, hb, hp, microS_rcur s⟩)
  | construct hf => exact absurd hc (by simp [hf])
  | _ => left; simp [endSst]

theorem turnResult_outCell {a : Agent} (hr : TurnResult s a t) (hc : s.constructed = true) (k : Nat) :
    t.outCell k = s.outCell k ∨ a = .engine ∧ s.eBusy = true ∧ s.ePhase = .r ∧ k = s.eI := by
  cases hr with
  | pCommand _ _ _ _ hx => exact .inl (outCell_congr (execResult_out hx) k)
  | sCommand _ _ _ _ hx => exact .inl (outCell_congr (execResult_out hx) k)
  | microR _ hb hp =>
    by_cases hk : k = s.eI
    · exact .inr ⟨rfl, hb, hp, hk⟩
    · exact .inl ((outCell_write_other hk _).trans (outCell_congr (sampleRead_out ..) k))
  | construct hf => exact absurd hc (by simp [hf])
  | _ => left; exact outCell_congr (by simp [endSst]) k

theorem endSst_sampleCell (hwf : memWf (sampleErased s.cfg) Config.C s.sample = true) (index data : Word) (j : Nat) :
    (endSst index data s).sampleCell j = if j = index.toNat then data else s.sampleCell j :=
  (storeSample_sampleCell ..).trans (sampleCell_write (s := { s with inflight := none }) hwf ..)

/-- R38, R58: a turn that changes what a sample slot reads as is the Producer's `SST` to it of the new value, in its one
step or in its second. -/
theorem turnResult_sampleCell {a : Agent} (hr : TurnResult s a t) (hc : s.constructed = true)
    (hwf : memWf (sampleErased s.cfg) Config.C s.sample = true) (k : Nat) :
    t.sampleCell k = s.sampleCell k ∨
      a = .producer ∧ ∃ index, index.toNat = k ∧
        ((∃ w rest, s.pIn = w :: rest ∧ decode .pPort w = .command (.sst index (t.sampleCell k))) ∨
          s.inflight = some (index, t.sampleCell k)) := by
  have hcfg := turnResult_cfg hr
  cases hr with
  | sstEnd _ hf =>
    rw [endSst_sampleCell hwf]
    split
    · next he => exact .inr ⟨rfl, _, he.symm, .inr hf⟩
    · exact .inl rfl
  | pCommand _ _ hp hd hx =>
    rcases execResult_sampleCell hx hwf k with hk | ⟨index, hk, rfl⟩
    · exact .inl hk
    · exact .inr ⟨rfl, index, hk, .inl ⟨_, _, hp, hd⟩⟩
  | sCommand _ _ _ hd hx =>
    rcases execResult_sampleCell hx hwf k with hk | ⟨index, -, rfl⟩
    · exact .inl hk
    · exact absurd (decode_command hd).1 (by simp [Instr.port])
  | construct hf => exact absurd hc (by simp [hf])
  | _ => left; exact sampleCell_congr (by simp) hcfg k

/-! ### One step -/

/-- A step that changes something is an agent's turn. -/
theorem step_changed {α : Type} {f : State → α} (h : step s = .next t) (hf : f t ≠ f s) :
    ∃ a sc cs d, movesNext s = some a ∧ TurnResult { s with sched := sc, choices := cs, drawn := d } a t := by
  obtain ⟨-, rfl⟩ | hr := step_cases h
  · exact absurd rfl hf
  · exact hr

/-- Settles O34: no turn but the Producer's `WCST` writes `WCUR`. -/
theorem onlyWcstWritesTheWriteCursor : Obligations.OnlyWcstWritesTheWriteCursor := by
  intro s t hc h hne
  obtain ⟨a, sc, cs, d, hn, hr⟩ := step_changed (f := State.wcur) h hne
  rcases turnResult_wcur hr hc with heq | ⟨rfl, hw⟩
  · exact absurd heq hne
  · exact ⟨hn, hw⟩

/-- Settles O35: no turn but micro-step `S` and the Producer's `RCST` writes `RCUR`. -/
theorem onlyTheEngineOrRcstWritesTheReadCursor : Obligations.OnlyTheEngineOrRcstWritesTheReadCursor := by
  intro s t hc h hne
  obtain ⟨a, sc, cs, d, hn, hr⟩ := step_changed (f := State.rcur) h hne
  rcases turnResult_rcur hr hc with heq | ⟨rfl, hs⟩ | ⟨rfl, hw⟩
  · exact absurd heq hne
  · exact .inl ⟨hn, hs⟩
  · exact .inr ⟨hn, hw⟩

/-- Settles O36: the step `begin` of an `SST` writes nothing (R58), so the change is its one step or its step `end`. -/
theorem onlySstWritesASample : Obligations.OnlySstWritesASample := by
  intro s t k hinv h hne
  obtain ⟨a, sc, cs, d, hn, hr⟩ := step_changed (f := fun u => u.sampleCell k) h hne
  rcases turnResult_sampleCell hr hinv.constructed hinv.sample_wf k with heq | ⟨rfl, hw⟩
  · exact absurd heq hne
  · exact ⟨hn, hw⟩

/-- Settles O37: micro-step `R` writes the slot of its iteration, and nothing else writes an output slot. -/
theorem onlyMicroStepRWritesAnOutput : Obligations.OnlyMicroStepRWritesAnOutput := by
  intro s t k hc h hne
  obtain ⟨a, sc, cs, d, hn, hr⟩ := step_changed (f := fun u => u.outCell k) h hne
  rcases turnResult_outCell hr hc k with heq | ⟨rfl, hw⟩
  · exact absurd heq hne
  · exact ⟨hn, hw⟩

/-! ### What a micro-step leaves alone -/

/-- A cursor load by the Consumer touches its own view and the choices alone. -/
theorem atomicLoad_consumer_frame (c : Cursor) (s : State) :
    ∃ v cs d, (atomicLoad .consumer c s).2 =
      { s with ordering := { s.ordering with consumerView := v }, choices := cs, drawn := d } := by
  cases h : s.cfg.memOrder with
  | sc => rw [atomicLoad_sc h]; exact ⟨_, _, _, rfl⟩
  | ra =>
    obtain ⟨j, cs, d, -, he⟩ := atomicLoad_ra h .consumer c
    rw [he]
    exact ⟨_, cs, d, rfl⟩

/-- A sample read by the Consumer touches its own view and the choices alone. -/
theorem sampleRead_consumer_frame (k : Nat) (s : State) :
    ∃ v cs d, (sampleRead .consumer k s).2 =
      { s with ordering := { s.ordering with consumerView := v }, choices := cs, drawn := d } := by
  cases hm : s.marked k with
  | true =>
    rw [sampleRead_marked hm]
    obtain ⟨cs, d, he⟩ := draw_frame s
    exact ⟨_, cs, d, he⟩
  | false =>
    cases h : s.cfg.memOrder with
    | sc => rw [sampleRead_sc h hm]; exact ⟨_, _, _, rfl⟩
    | ra =>
      obtain ⟨j, cs, d, -, he⟩ := sampleRead_ra h hm .consumer
      rw [he]
      exact ⟨_, cs, d, rfl⟩

/-- A store of `RCUR` by the Consumer touches the history of `RCUR` and its own view beside the cursor. -/
theorem atomicStore_consumer_frame (v : Word) (s : State) :
    ∃ hist view, atomicStore .consumer .rcur v s =
      { s with rcur := v, ordering := { s.ordering with rcur := hist, consumerView := view } } := by
  cases h : s.cfg.memOrder with
  | sc => rw [atomicStore_sc h]; exact ⟨_, _, rfl⟩
  | ra => rw [atomicStore_ra h]; exact ⟨_, _, rfl⟩

/-- `t` differs from `s` at most in what the engine may write: `RCUR` with its history, the output buffer, the sequencer,
the Consumer's view, the choices and the S-port's responses. -/
def EngineFrame (s t : State) : Prop :=
  t = { s with
    rcur := t.rcur
    out := t.out
    eBusy := t.eBusy
    eI := t.eI
    ePhase := t.ePhase
    eIdx := t.eIdx
    ordering := { s.ordering with rcur := t.ordering.rcur, consumerView := t.ordering.consumerView }
    sOut := t.sOut
    choices := t.choices
    drawn := t.drawn }

theorem engineFrame_microL (s : State) : EngineFrame s (microL s) := by
  obtain ⟨v, cs, d, he⟩ := atomicLoad_consumer_frame .rcur s
  simp only [microL, he]
  rfl

theorem engineFrame_microR (k : Nat) (v : Word) (s : State) :
    EngineFrame s { outWrite s.eI v (sampleRead .consumer k s).2 with ePhase := .s } := by
  obtain ⟨_, cs, d, he⟩ := sampleRead_consumer_frame k s
  rw [he]
  rfl

theorem engineFrame_microS (s : State) : EngineFrame s (microS s) := by
  obtain ⟨hist, view, he⟩ := atomicStore_consumer_frame (nextIndex s.eIdx) s
  simp only [microS, he]
  split <;> rfl

theorem turnResult_engineFrame (hr : TurnResult s .engine t) : EngineFrame s t := by
  cases hr with
  | pass => rfl
  | microL => exact engineFrame_microL s
  | microR => exact engineFrame_microR _ _ s
  | microS => exact engineFrame_microS s

@[simp] theorem microL_eBusy (s : State) : (microL s).eBusy = s.eBusy := by simp [microL]
@[simp] theorem microL_sOut (s : State) : (microL s).sOut = s.sOut := by simp [microL]

/-- R141, R142: micro-step `S` answers `(1, 1)` exactly when it ends the drain. -/
theorem microS_sOut (s : State) (hb : s.eBusy = true) :
    (microS s).sOut =
      if s.eBusy = true ∧ (microS s).eBusy = false then { ok := true, data := 1 } :: s.sOut else s.sOut := by
  unfold microS
  split
  · simp [hb, keepRunning, performed]
  · simp [hb]

theorem turnResult_engine_sOut (hr : TurnResult s .engine t) :
    t.sOut = if s.eBusy = true ∧ t.eBusy = false then { ok := true, data := 1 } :: s.sOut else s.sOut := by
  cases hr with
  | pass => simp
  | microL => simp
  | microR => simp
  | microS _ hb => exact microS_sOut s hb

theorem turn_engine_constructed (h : turn .engine s = .next t) : s.constructed = true := by
  cases hc : s.constructed with
  | true => rfl
  | false => simp [turn, hc] at h

/-- Settles O22, from the frame of a micro-step, its one output slot and its one response. -/
theorem engineWritesOnlyItsOwn : Obligations.EngineWritesOnlyItsOwn := by
  intro s t h
  have hr := turn_cases h
  have hout : ∀ k, k ≠ s.eI → t.outCell k = s.outCell k := fun k hk =>
    (turnResult_outCell hr (turn_engine_constructed h) k).resolve_right fun ⟨_, _, _, he⟩ => hk he
  have hframe : EngineFrame s t := turnResult_engineFrame hr
  refine ⟨?_, ?_, ?_, ?_, ?_, ?_, ?_, ?_, ?_, ?_, ?_, ?_, hout, turnResult_engine_sOut hr⟩ <;>
    exact hframe ▸ rfl

end Sys2Proof.Machine
end

section
/-! SUPPORT. The state statements, third part: the progress of a drain among the steps of the other agents (R145, R152). -/

namespace Sys2Proof.Machine

variable {s t : State} {r0 : Nat} {f : Nat → Word}

/-! ### The other agents leave the engine alone -/

theorem decodesTo_command {p : Port} {w : Command} {i : Instr} (hd : decode p w = .command i) (g : Instr → Bool) :
    decodesTo p g w = g i := by
  simp [decodesTo, hd]

/-- `t` has the sequencer and the output buffer of `s`. -/
structure SequencerKept (s t : State) : Prop where
  eBusy : t.eBusy = s.eBusy
  eI : t.eI = s.eI
  ePhase : t.ePhase = s.ePhase
  eIdx : t.eIdx = s.eIdx
  out : t.out = s.out

theorem execResult_pPort_kept {i : Instr} (hx : ExecResult s i t) (hp : i.port = .pPort) : SequencerKept s t := by
  have hout := execResult_out hx
  cases hx with
  | drain => exact absurd hp (by simp [Instr.port])
  | _ => exact ⟨by simp, by simp, by simp, by simp, hout⟩

theorem execResult_pIn {i : Instr} (hx : ExecResult s i t) : t.pIn = s.pIn := by
  cases hx <;> simp

theorem turnResult_producer_kept (hr : TurnResult s .producer t) : SequencerKept s t := by
  cases hr with
  | pCommand _ _ _ hd hx =>
    obtain ⟨hb, hi, hp, hx, ho⟩ := execResult_pPort_kept hx (decode_command hd).1.symm
    exact ⟨hb, hi, hp, hx, ho⟩
  | _ => constructor <;> simp [endSst]

/-- The Producer's turn only takes from the commands listed to come. -/
theorem turnResult_producer_pIn (hr : TurnResult s .producer t) : t.pIn ⊆ s.pIn := by
  cases hr with
  | pass => exact List.Subset.refl _
  | sstEnd => simp [endSst]
  | pRejected _ _ hp => simp [hp]
  | pCommand _ _ hp _ hx => simp [execResult_pIn hx, hp]

/-- R58: a slot in flight after the Producer's turn was so before, or is that of the `SST` it issued. -/
theorem turnResult_producer_inflight {e : Word × Word} (hr : TurnResult s .producer t) (he : t.inflight = some e) :
    s.inflight = some e ∨ ∃ w ∈ s.pIn, decode .pPort w = .command (.sst e.1 e.2) := by
  cases hr with
  | pass => exact .inl he
  | sstEnd => simp [endSst] at he
  | pRejected => left; simpa using he
  | pCommand _ _ hp hd hx =>
    rcases execResult_inflight hx with hf | ⟨index, data, rfl, hf⟩
    · exact .inl (hf.symm.trans he)
    · cases hf.symm.trans he
      exact .inr ⟨_, by simp [hp], hd⟩

/-- R151: during a drain the Scheduler's turn passes. -/
theorem turnResult_scheduler_busy (hr : TurnResult s .scheduler t) (hb : s.eBusy = true) : t = s := by
  cases hr with
  | pass => rfl
  | sRejected _ hidle => exact absurd hb (by simp [hidle])
  | sCommand _ hidle => exact absurd hb (by simp [hidle])

/-! ### The micro-steps under `sc` -/

theorem microL_sc (h : s.cfg.memOrder = .sc) : microL s = { s with eIdx := s.rcur, ePhase := .r } := by
  simp only [microL, atomicLoad_sc h, State.cursor]

theorem microS_sc_next (h : s.cfg.memOrder = .sc) (hi : s.eI + 1 ≠ Config.Q) :
    microS s = { s with rcur := nextIndex s.eIdx, eI := s.eI + 1, ePhase := .l } := by
  simp only [microS, atomicStore_sc h, if_neg hi, State.setCursor]

theorem microS_sc_last (h : s.cfg.memOrder = .sc) (hi : s.eI + 1 = Config.Q) :
    microS s = respond .sPort keepRunning
      { s with rcur := nextIndex s.eIdx, eI := s.eI + 1, eBusy := false } := by
  simp only [microS, atomicStore_sc h, if_pos hi, State.setCursor]

/-! ### The slots of a drain -/

theorem drainSlot_zero {r : Nat} (hr : r < Config.C) : drainSlot r 0 = r := Nat.mod_eq_of_lt hr

/-- R119, R153: the advance of an iteration's slot is the next iteration's slot. -/
theorem nextIndex_drainSlot {v : Word} {k : Nat} (h : v.toNat = drainSlot r0 k) :
    (nextIndex v).toNat = drainSlot r0 (k + 1) := by
  rw [nextIndex_toNat, h, drainSlot, drainSlot, Nat.mod_add_mod, Nat.add_assoc]

/-- R152: an `SST` that is none to the drain's slots is to none of them. -/
theorem ne_drainSlot_of_storesInDrain {index data : Word} (h : Instr.storesInDrain r0 (.sst index data) = false)
    {k : Nat} (hk : k < Config.Q) : index.toNat ≠ drainSlot r0 k := by
  simp only [Instr.storesInDrain, List.any_eq_false, List.mem_range, decide_eq_true_eq] at h
  exact h k hk

namespace DrainFrom

/-- R152: no `SST` to come is to a slot that the drain reads. -/
theorem sst_ne_slot (h : DrainFrom r0 f s) {w : Command} (hw : w ∈ s.pIn) {index data : Word}
    (hd : decode .pPort w = .command (.sst index data)) {k : Nat} (hk : k < Config.Q) :
    index.toNat ≠ drainSlot r0 k :=
  ne_drainSlot_of_storesInDrain ((decodesTo_command hd _).symm.trans (h.no_store w hw)) hk

/-- R38: no command to come is `RCST`. -/
theorem not_rcst (h : DrainFrom r0 f s) {w : Command} (hw : w ∈ s.pIn) {index : Word} :
    decode .pPort w ≠ .command (.rcst index) := fun hd =>
  Bool.false_ne_true ((h.single_writer w hw).symm.trans (decodesTo_command hd _))

/-! ### One turn -/

/-- The drain's slots read as before after the Producer's turn: it performs no `SST` to one of them. -/
theorem producer_slots (h : DrainFrom r0 f s) (hinv : Inv s) (hr : TurnResult s .producer t) {k : Nat}
    (hk : k < Config.Q) : t.sampleCell (drainSlot r0 k) = s.sampleCell (drainSlot r0 k) := by
  refine (turnResult_sampleCell hr hinv.constructed hinv.sample_wf _).resolve_right ?_
  rintro ⟨-, index, hi, ⟨w, rest, hp, hd⟩ | hf⟩
  · exact h.sst_ne_slot (by simp [hp]) hd hk hi
  · exact h.no_inflight _ hf k hk hi

/-- `RCUR` is as before after the Producer's turn: it performs no `RCST`. -/
theorem producer_rcur (h : DrainFrom r0 f s) (hinv : Inv s) (hr : TurnResult s .producer t) : t.rcur = s.rcur := by
  refine (turnResult_rcur hr hinv.constructed).resolve_right ?_
  rintro (⟨hengine, -⟩ | ⟨-, w, rest, hp, hd⟩)
  · exact absurd hengine (by decide)
  · exact h.not_rcst (by simp [hp]) hd

theorem after_producer (h : DrainFrom r0 f s) (hinv : Inv s) (hr : TurnResult s .producer t) : DrainFrom r0 f t := by
  have hrcur := h.producer_rcur hinv hr
  have hpIn := turnResult_producer_pIn hr
  obtain ⟨hb, hi, hp, hx, ho⟩ := turnResult_producer_kept hr
  constructor
  case sc => rw [turnResult_cfg hr]; exact h.sc
  case single_writer => exact fun w hw => h.single_writer w (hpIn hw)
  case no_store => exact fun w hw => h.no_store w (hpIn hw)
  case no_inflight =>
    intro e he k hk
    rcases turnResult_producer_inflight hr he with hf | ⟨w, hw, hd⟩
    · exact h.no_inflight e hf k hk
    · exact h.sst_ne_slot hw hd hk
  case slots => exact fun k hk => (h.producer_slots hinv hr hk).trans (h.slots k hk)
  case busy => exact hb.trans h.busy
  case rcur => rw [hrcur, hi]; exact h.rcur
  case latch => rw [hp, hx, hrcur]; exact h.latch
  case out =>
    rw [hi, hp]
    exact fun k hk => (outCell_congr ho k).trans (h.out k hk)

theorem after_microL (h : DrainFrom r0 f s) : DrainFrom r0 f (microL s) := by
  have hout : ∀ k, k < s.eI → s.outCell k = f (drainSlot r0 k) := fun k hk => h.out k (.inl hk)
  rw [microL_sc h.sc]
  exact { h with
    latch := fun _ => rfl
    out := fun k hk => hout k (hk.resolve_right nofun) }

/-- R141: the sample that micro-step `R` reads is that of its iteration's slot, which is not in flight. -/
theorem microR_read (h : DrainFrom r0 f s) (hp : s.ePhase = .r) (hi : s.eI < Config.Q) :
    sampleRead .consumer s.eIdx.toNat s = (f (drainSlot r0 s.eI), s) := by
  have hslot : s.eIdx.toNat = drainSlot r0 s.eI := by rw [h.latch (by simp [hp]), h.rcur]
  have hmark : s.marked (drainSlot r0 s.eI) = false := by
    unfold State.marked
    split
    · next hf => exact decide_eq_false (h.no_inflight _ hf _ hi)
    · rfl
  rw [hslot, sampleRead_sc h.sc hmark, h.slots _ hi]

theorem after_microR (h : DrainFrom r0 f s) (hwf : memWf none Config.Q s.out = true) (hp : s.ePhase = .r)
    (hi : s.eI < Config.Q) :
    DrainFrom r0 f { outWrite s.eI (sampleRead .consumer s.eIdx.toNat s).1 (sampleRead .consumer s.eIdx.toNat s).2 with
      ePhase := .s } := by
  rw [h.microR_read hp hi]
  refine { h with latch := fun _ => h.latch (by simp [hp]), out := fun k hk => ?_ }
  refine (outCell_write hwf s.eI _ k).trans ?_
  split
  · next he => rw [he]
  · next hne => exact h.out k (.inl (hk.resolve_right fun he => hne he.1))

/-- After micro-step `R` the outputs up to this iteration's are copied. -/
theorem out_copied (h : DrainFrom r0 f s) (hp : s.ePhase = .s) {k : Nat} (hk : k < s.eI + 1) :
    s.outCell k = f (drainSlot r0 k) :=
  h.out k ((Nat.lt_succ_iff_lt_or_eq.1 hk).imp_right fun he => ⟨he, hp⟩)

/-- R141: micro-step `S` stores the slot of the next iteration. -/
theorem stored_rcur (h : DrainFrom r0 f s) (hp : s.ePhase = .s) :
    (nextIndex s.eIdx).toNat = drainSlot r0 (s.eI + 1) := by
  rw [h.latch (by simp [hp])]
  exact nextIndex_drainSlot h.rcur

theorem after_microS (h : DrainFrom r0 f s) (hp : s.ePhase = .s) (hi : s.eI + 1 ≠ Config.Q) :
    DrainFrom r0 f (microS s) := by
  rw [microS_sc_next h.sc hi]
  exact { h with
    rcur := h.stored_rcur hp
    latch := fun hl => absurd rfl hl
    out := fun k hk => h.out_copied hp (hk.resolve_right nofun) }

theorem done_microS (h : DrainFrom r0 f s) (hp : s.ePhase = .s) (hi : s.eI + 1 = Config.Q) :
    DrainDone r0 f (microS s) ∧ (microS s).sOut = { ok := true, data := 1 } :: s.sOut := by
  rw [microS_sc_last h.sc hi]
  refine ⟨⟨rfl, ?rcur, fun k hk => ?out⟩, rfl⟩
  case rcur => rw [← hi]; exact h.stored_rcur hp
  case out => exact h.out_copied hp (hi.symm ▸ hk)

theorem after_turn {a : Agent} (h : DrainFrom r0 f s) (hinv : Inv s) (hr : TurnResult s a t) :
    DrainFrom r0 f t ∨ (DrainDone r0 f t ∧ t.sOut = { ok := true, data := 1 } :: s.sOut) := by
  cases a with
  | producer => exact .inl (h.after_producer hinv hr)
  | scheduler => exact .inl (turnResult_scheduler_busy hr h.busy ▸ h)
  | engine =>
    cases hr with
    | pass => exact .inl h
    | microL => exact .inl h.after_microL
    | microR _ _ hp _ hi => exact .inl (h.after_microR hinv.out_wf hp hi)
    | microS _ _ hp =>
      by_cases hi : s.eI + 1 = Config.Q
      · exact .inr (h.done_microS hp hi)
      · exact .inl (h.after_microS hp hi)
  | reset =>
    cases hr with
    | pass => exact .inl h
    | construct hc => exact absurd hinv.constructed (by simp [hc])

/-! ### The three claims -/

theorem after_step (h : DrainFrom r0 f s) (hinv : Inv s) (hs : step s = .next t) :
    DrainFrom r0 f t ∨ (DrainDone r0 f t ∧ t.sOut = { ok := true, data := 1 } :: s.sOut) := by
  obtain ⟨-, rfl⟩ | ⟨a, sc, cs, d, -, hr⟩ := step_cases hs
  · exact .inl h
  · have hmoved : DrainFrom r0 f { s with sched := sc, choices := cs, drawn := d } := { h with }
    exact hmoved.after_turn (inv_environment hinv _ _ _ _ sc cs d) hr

theorem after_supply (h : DrainFrom r0 f s) {m : Moves} (hm : ∀ w ∈ m.pMore,
    decodesTo .pPort Instr.isRcst w = false ∧ decodesTo .pPort (Instr.storesInDrain r0) w = false) :
    DrainFrom r0 f (supply m s) :=
  { h with
    single_writer := fun w hw => (List.mem_append.1 hw).elim (h.single_writer w) fun hmore => (hm w hmore).1
    no_store := fun w hw => (List.mem_append.1 hw).elim (h.no_store w) fun hmore => (hm w hmore).2 }

/-- An accepted `DRAIN` begins at iteration 0, whose slot is `RCUR`. -/
theorem of_drain (hinv : Inv s) (hsc : s.cfg.memOrder = .sc) (hw : SingleWriter s) (hf : s.inflight = none)
    (hstore : ∀ w ∈ s.pIn, decodesTo .pPort (Instr.storesInDrain s.rcur.toNat) w = false) :
    DrainFrom s.rcur.toNat s.sampleCell { s with eBusy := true, eI := 0, ePhase := .l } where
  sc := hsc
  single_writer := hw
  no_store := hstore
  no_inflight := fun _ he => absurd (hf.symm.trans he) nofun
  slots := fun _ _ => rfl
  busy := rfl
  rcur := (drainSlot_zero hinv.rcur_lt).symm
  latch := fun hl => absurd rfl hl
  out := fun k hk => absurd (hk.resolve_right nofun) (Nat.not_lt_zero k)

end DrainFrom

/-- Settles O25, from one lemma an agent's turn, the commands the environment adds, and the start of a drain. -/
theorem drainProgressIsKeptByEveryStep : Obligations.DrainProgressIsKeptByEveryStep := by
  refine ⟨?step, ?supply, ?drain⟩
  case step => exact fun s t r0 f hinv h hs => h.after_step hinv hs
  case supply => exact fun s m r0 f h hm => h.after_supply hm
  case drain =>
    intro s t hinv hsc hw hf hstore _ hx
    have haccepts : s.accepts .sPort = true := exec_next_accepts hx
    rw [exec, execDrain_accepts haccepts] at hx
    cases hx
    exact DrainFrom.of_drain hinv hsc hw hf hstore

end Sys2Proof.Machine
end

section
/-! SUPPORT. The state statements, fourth part: parts of the state that a step does not read (R23, R36), and what the open
parameters allow (R58, R63). -/

namespace Sys2Proof.Machine

variable {s t : State} {a : Agent} {f : State → State}

/-! ### The turns, as equations -/

theorem turn_producer_ends {index data : Word} (hc : s.constructed = true) (hf : s.inflight = some (index, data)) :
    turn .producer s = .next (endSst index data s) := by
  simp [turn, hc, producerTurn, hf]

theorem turn_producer_passes (hc : s.constructed = true) (hf : s.inflight = none) (hp : s.pIn = []) :
    turn .producer s = .next s := by
  simp [turn, hc, producerTurn, hf, hp]

theorem turn_scheduler_waits (hc : s.constructed = true) (hb : s.eBusy = true) : turn .scheduler s = .next s := by
  simp [turn, hc, schedulerTurn, hb]

theorem turn_scheduler_passes (hc : s.constructed = true) (hb : s.eBusy = false) (hp : s.sIn = []) :
    turn .scheduler s = .next s := by
  simp [turn, hc, schedulerTurn, hb, hp]

theorem turn_engine_busy (hc : s.constructed = true) (hb : s.eBusy = true) : turn .engine s = microStep s := by
  simp [turn, hc, engineTurn, hb]

theorem turn_engine_passes (hc : s.constructed = true) (hb : s.eBusy = false) : turn .engine s = .next s := by
  simp [turn, hc, engineTurn, hb]

theorem turn_reset_refused (hc : s.constructed = true) : turn .reset s = .refused .secondReset := by
  simp [turn, hc]

theorem turn_reset_constructs (hc : s.constructed = false) : turn .reset s = .next (construct s) := by
  simp [turn, hc]

theorem turn_before_construct (hc : s.constructed = false) (ha : a ≠ .reset) :
    turn a s = .refused .notConstructed := by
  cases a <;> simp_all [turn]

theorem microStep_l (hp : s.ePhase = .l) : microStep s = .next (microL s) := by simp [microStep, hp]
theorem microStep_r (hp : s.ePhase = .r) : microStep s = microR s := by simp [microStep, hp]
theorem microStep_s (hp : s.ePhase = .s) : microStep s = .next (microS s) := by simp [microStep, hp]

/-- The converse of `exec_cases`: a command on a port that accepts it answers its result. -/
theorem exec_of_result {i : Instr} (ha : s.accepts i.port = true) (hx : ExecResult s i t) : exec i s = .next t := by
  cases hx with
  | rcld => exact execRcld_accepts ha
  | wcld => exact execWcld_accepts ha
  | rcst hi => rw [exec, execRcst_accepts ha, outOfRange_of_lt hi]; rfl
  | wcst hi => rw [exec, execWcst_accepts ha, outOfRange_of_lt hi]; rfl
  | sld hi => exact execSld_inRange ha hi
  | sstBegin hi ht => rw [exec, execSst_inRange ha hi, if_pos ht]
  | sst hi ht => rw [exec, execSst_inRange ha hi, ht]; rfl
  | drain => exact execDrain_accepts ha
  | outld hi => exact execOutld_inRange ha hi
  | rejected hi =>
    cases i <;> simp only [Instr.wellFormed, decide_eq_false_iff_not, Nat.not_lt, Bool.true_eq_false] at hi
    case rcst => rw [exec, execRcst_accepts ha, outOfRange_of_le hi]; rfl
    case wcst => rw [exec, execWcst_accepts ha, outOfRange_of_le hi]; rfl
    case sld => exact execSld_outOfRange ha hi
    case sst => exact execSst_outOfRange ha hi _
    case outld => exact execOutld_outOfRange ha hi

/-! ### Draws and the accesses that draw, as equations -/

theorem draw_next {n : Nat} {rest : List Nat} (h : s.choices = n :: rest) :
    draw s = (n, { s with choices := rest }) := by
  simp [draw, h]

theorem draw_unlisted (h : s.choices = []) :
    draw s = (Config.freeChoice s.drawn, { s with drawn := s.drawn + 1 }) := by
  simp [draw, h]

/-- `atomicLoad_ra` with the state that the draw leaves. -/
theorem atomicLoad_ra_draw (h : s.cfg.memOrder = .ra) (b : Ctx) (c : Cursor) :
    atomicLoad b c s =
      let d := drawBetween ((s.ordering.view b).cursor c) (s.ordering.history c).last s
      let e := (s.ordering.history c).entry (s.cursor c) d.1
      (e.1, { d.2 with ordering := s.ordering.setView b (((s.ordering.view b).setCursor c d.1).raise e.2) }) := by
  simp only [atomicLoad, h]

/-- `sampleRead_ra` with the state that the draw leaves. -/
theorem sampleRead_ra_draw {k : Nat} (h : s.cfg.memOrder = .ra) (hm : s.marked k = false) (b : Ctx) :
    sampleRead b k s =
      let d := drawBetween ((s.ordering.view b).slot k) (s.ordering.olderSamples k).length s
      (sampleEntry (s.ordering.olderSamples k) (s.sampleCell k) d.1,
        { d.2 with ordering := s.ordering.setView b ((s.ordering.view b).setSlot k d.1) }) := by
  simp [sampleRead, h, hm]

/-! ### Overlays -/

/-- A change of state that touches nothing that an agent's choice, a free choice, the admission to a port or a sample read
looks at, and that commutes with what these change. -/
structure Overlay (f : State → State) : Prop where
  constructed : ∀ s, (f s).constructed = s.constructed
  cfg : ∀ s, (f s).cfg = s.cfg
  sample : ∀ s, (f s).sample = s.sample
  eBusy : ∀ s, (f s).eBusy = s.eBusy
  inflight : ∀ s, (f s).inflight = s.inflight
  ordering : ∀ s, (f s).ordering = s.ordering
  pIn : ∀ s, (f s).pIn = s.pIn
  sIn : ∀ s, (f s).sIn = s.sIn
  sched : ∀ s, (f s).sched = s.sched
  choices : ∀ s, (f s).choices = s.choices
  drawn : ∀ s, (f s).drawn = s.drawn
  set_choices : ∀ s cs, f { s with choices := cs } = { f s with choices := cs }
  set_drawn : ∀ s d, f { s with drawn := d } = { f s with drawn := d }
  set_ordering : ∀ s o, f { s with ordering := o } = { f s with ordering := o }
  set_sched : ∀ s sc, f { s with sched := sc } = { f s with sched := sc }

namespace Overlay

theorem draw_eq (hf : Overlay f) (s : State) : draw (f s) = ((draw s).1, f (draw s).2) := by
  cases hc : s.choices with
  | nil =>
    rw [draw_unlisted hc, draw_unlisted ((hf.choices s).trans hc), hf.drawn]
    exact congrArg (Prod.mk _) (hf.set_drawn s _).symm
  | cons n rest =>
    rw [draw_next hc, draw_next ((hf.choices s).trans hc)]
    exact congrArg (Prod.mk _) (hf.set_choices s _).symm

theorem drawBetween_eq (hf : Overlay f) (lo hi : Nat) (s : State) :
    drawBetween lo hi (f s) = ((drawBetween lo hi s).1, f (drawBetween lo hi s).2) := by
  unfold drawBetween
  split
  · rw [hf.draw_eq]
  · rfl

theorem enabledAgents_eq (hf : Overlay f) (s : State) : enabledAgents (f s) = enabledAgents s := by
  simp only [enabledAgents, hf.constructed, hf.inflight, hf.pIn, hf.sIn, hf.eBusy]

theorem nextAgent_eq (hf : Overlay f) (s : State) :
    nextAgent (f s) = (nextAgent s).map fun p => (p.1, f p.2) := by
  cases hs : s.sched with
  | cons b rest =>
    rw [nextAgent_listed hs, nextAgent_listed ((hf.sched s).trans hs)]
    exact congrArg (fun u => some (b, u)) (hf.set_sched s _).symm
  | nil =>
    have hfs := (hf.sched s).trans hs
    cases he : enabledAgents s with
    | nil => rw [nextAgent_idle hs he, nextAgent_idle hfs ((hf.enabledAgents_eq s).trans he)]; rfl
    | cons b more =>
      rw [nextAgent_free hs he, nextAgent_free hfs ((hf.enabledAgents_eq s).trans he), hf.drawBetween_eq]
      rfl

theorem accepts_eq (hf : Overlay f) (s : State) (p : Port) : (f s).accepts p = s.accepts p := by
  cases p <;> simp only [State.accepts, State.portBusy, hf.constructed, hf.inflight, hf.eBusy]

theorem marked_eq (hf : Overlay f) (s : State) (k : Nat) : (f s).marked k = s.marked k := by
  simp only [State.marked, hf.inflight]

theorem sampleCell_eq (hf : Overlay f) (s : State) (k : Nat) : (f s).sampleCell k = s.sampleCell k :=
  sampleCell_congr (hf.sample s) (hf.cfg s) k

theorem memOrder_eq (hf : Overlay f) (s : State) : (f s).cfg.memOrder = s.cfg.memOrder := by rw [hf.cfg]

theorem sampleRead_eq (hf : Overlay f) (c : Ctx) (k : Nat) (s : State) :
    sampleRead c k (f s) = ((sampleRead c k s).1, f (sampleRead c k s).2) := by
  cases hm : s.marked k with
  | true => rw [sampleRead_marked hm, sampleRead_marked ((hf.marked_eq s k).trans hm), hf.draw_eq]
  | false =>
    have hfm := (hf.marked_eq s k).trans hm
    cases h : s.cfg.memOrder with
    | sc => rw [sampleRead_sc h hm, sampleRead_sc ((hf.memOrder_eq s).trans h) hfm, hf.sampleCell_eq]
    | ra =>
      rw [sampleRead_ra_draw h hm, sampleRead_ra_draw ((hf.memOrder_eq s).trans h) hfm, hf.sampleCell_eq, hf.ordering,
        hf.drawBetween_eq]
      exact congrArg (Prod.mk _) (hf.set_ordering _ _).symm

/-- A cursor load, where the overlay leaves that cursor alone. -/
theorem atomicLoad_eq (hf : Overlay f) (b : Ctx) {c : Cursor} (hc : (f s).cursor c = s.cursor c) :
    atomicLoad b c (f s) = ((atomicLoad b c s).1, f (atomicLoad b c s).2) := by
  cases h : s.cfg.memOrder with
  | sc => rw [atomicLoad_sc h, atomicLoad_sc ((hf.memOrder_eq s).trans h), hc]
  | ra =>
    rw [atomicLoad_ra_draw h, atomicLoad_ra_draw ((hf.memOrder_eq s).trans h), hc, hf.ordering, hf.drawBetween_eq]
    exact congrArg (Prod.mk _) (hf.set_ordering _ _).symm

end Overlay

/-! ### Answers from a state and from its overlay -/

/-- Where `r` is a next state, `r'` is one too, in the relation `Q` to it. -/
def Simulates (Q : State → State → Prop) (r r' : Result) : Prop := ∀ t, r = .next t → ∃ t', r' = .next t' ∧ Q t t'

section
variable {Q : State → State → Prop}

theorem simulates_next {t' : State} (h : Q t t') : Simulates Q (.next t) (.next t') := by
  rintro _ ⟨⟩
  exact ⟨t', rfl, h⟩

theorem simulates_refused (r : Refusal) (r' : Result) : Simulates Q (.refused r) r' := by
  rintro _ ⟨⟩

namespace Overlay

/-- A command word from `s` and from its overlay: rejected by the decoder on both, or performed on both. -/
theorem issue_simulates (hf : Overlay f) {p : Port} {w : Command} (hrejected : Q (reject p s) (reject p (f s)))
    (hcommand : ∀ i t, decode p w = .command i → ExecResult s i t → ∃ t', ExecResult (f s) i t' ∧ Q t t') :
    Simulates Q (issue p w s) (issue p w (f s)) := by
  cases hd : decode p w with
  | rejected e =>
    simp only [issue, hd]
    exact simulates_next hrejected
  | command i =>
    rw [issue_command hd, issue_command hd]
    intro t h
    obtain ⟨ha, hx⟩ := exec_cases h
    obtain ⟨t', hx', hq⟩ := hcommand i t hd hx
    exact ⟨t', exec_of_result ((hf.accepts_eq s _).trans ha) hx', hq⟩

/-- The Producer's turn ends its `SST`, passes or issues the next word, from `s` and from its overlay alike. -/
theorem producer_simulates (hf : Overlay f) (hc : s.constructed = true) (hpass : Q s (f s))
    (hend : ∀ index data, s.inflight = some (index, data) → Q (endSst index data s) (endSst index data (f s)))
    (hissue : s.inflight = none → ∀ w rest, s.pIn = w :: rest →
      Simulates Q (issue .pPort w { s with pIn := rest }) (issue .pPort w { f s with pIn := rest })) :
    Simulates Q (turn .producer s) (turn .producer (f s)) := by
  have hfc := (hf.constructed s).trans hc
  cases hi : s.inflight with
  | some e =>
    rw [turn_producer_ends hc hi, turn_producer_ends hfc ((hf.inflight s).trans hi)]
    exact simulates_next (hend _ _ hi)
  | none =>
    have hfi := (hf.inflight s).trans hi
    cases hp : s.pIn with
    | nil =>
      rw [turn_producer_passes hc hi hp, turn_producer_passes hfc hfi ((hf.pIn s).trans hp)]
      exact simulates_next hpass
    | cons w rest =>
      rw [turn_producer_issues hc hi hp, turn_producer_issues hfc hfi ((hf.pIn s).trans hp)]
      exact hissue hi w rest hp

/-- The Scheduler's turn waits, passes or issues the next word, from `s` and from its overlay alike. -/
theorem scheduler_simulates (hf : Overlay f) (hc : s.constructed = true) (hpass : Q s (f s))
    (hissue : s.eBusy = false → ∀ w rest, s.sIn = w :: rest →
      Simulates Q (issue .sPort w { s with sIn := rest }) (issue .sPort w { f s with sIn := rest })) :
    Simulates Q (turn .scheduler s) (turn .scheduler (f s)) := by
  have hfc := (hf.constructed s).trans hc
  cases hb : s.eBusy with
  | true =>
    rw [turn_scheduler_waits hc hb, turn_scheduler_waits hfc ((hf.eBusy s).trans hb)]
    exact simulates_next hpass
  | false =>
    have hfb := (hf.eBusy s).trans hb
    cases hp : s.sIn with
    | nil =>
      rw [turn_scheduler_passes hc hb hp, turn_scheduler_passes hfc hfb ((hf.sIn s).trans hp)]
      exact simulates_next hpass
    | cons w rest =>
      rw [turn_scheduler_issues hc hb hp, turn_scheduler_issues hfc hfb ((hf.sIn s).trans hp)]
      exact hissue hb w rest hp

/-- The engine's turn passes or is a micro-step, from `s` and from its overlay alike. -/
theorem engine_simulates (hf : Overlay f) (hc : s.constructed = true) (hpass : Q s (f s))
    (hmicro : s.eBusy = true → Simulates Q (microStep s) (microStep (f s))) :
    Simulates Q (turn .engine s) (turn .engine (f s)) := by
  have hfc := (hf.constructed s).trans hc
  cases hb : s.eBusy with
  | true =>
    rw [turn_engine_busy hc hb, turn_engine_busy hfc ((hf.eBusy s).trans hb)]
    exact hmicro hb
  | false =>
    rw [turn_engine_passes hc hb, turn_engine_passes hfc ((hf.eBusy s).trans hb)]
    exact simulates_next hpass

/-- A turn from `s` and from its overlay is of one kind: it passes, constructs, ends an `SST`, issues a word, or is a
micro-step. -/
theorem turn_simulates (hf : Overlay f) (hpass : Q s (f s))
    (hconstruct : Q (construct s) (construct (f s)))
    (hend : ∀ index data, s.inflight = some (index, data) → Q (endSst index data s) (endSst index data (f s)))
    (hpIssue : a = .producer → s.inflight = none → ∀ w rest, s.pIn = w :: rest →
      Simulates Q (issue .pPort w { s with pIn := rest }) (issue .pPort w { f s with pIn := rest }))
    (hsIssue : s.eBusy = false → ∀ w rest, s.sIn = w :: rest →
      Simulates Q (issue .sPort w { s with sIn := rest }) (issue .sPort w { f s with sIn := rest }))
    (hmicro : s.eBusy = true → Simulates Q (microStep s) (microStep (f s))) :
    Simulates Q (turn a s) (turn a (f s)) := by
  cases hc : s.constructed with
  | false =>
    by_cases ha : a = .reset
    · subst ha
      rw [turn_reset_constructs hc, turn_reset_constructs ((hf.constructed s).trans hc)]
      exact simulates_next hconstruct
    · rw [turn_before_construct hc ha]
      exact simulates_refused _ _
  | true =>
    cases a with
    | producer => exact hf.producer_simulates hc hpass hend (hpIssue rfl)
    | scheduler => exact hf.scheduler_simulates hc hpass hsIssue
    | engine => exact hf.engine_simulates hc hpass hmicro
    | reset =>
      rw [turn_reset_refused hc]
      exact simulates_refused _ _

/-- A step from `s` and from its overlay is the same agent's turn. -/
theorem step_simulates (hf : Overlay f) (hidle : Q s (f s))
    (hturn : ∀ a u, nextAgent s = some (a, u) → Simulates Q (turn a u) (turn a (f u))) :
    Simulates Q (step s) (step (f s)) := by
  have hnext := hf.nextAgent_eq s
  cases hn : nextAgent s with
  | none =>
    rw [hn] at hnext
    simp only [step, hn, hnext, Option.map_none]
    exact simulates_next hidle
  | some p =>
    rw [hn] at hnext
    rw [step_of_nextAgent hn, step_of_nextAgent hnext]
    exact hturn _ _ hn

end Overlay
end

/-! ### The sequencer's residue (R36) -/

/-- The state with another `E.i`, `E.phase` and `E.idx`. -/
def State.withSequencer (i : Nat) (p : Phase) (x : Word) (s : State) : State :=
  { s with eI := i, ePhase := p, eIdx := x }

theorem overlay_withSequencer (i : Nat) (p : Phase) (x : Word) : Overlay (State.withSequencer i p x) := by
  constructor <;> intros <;> rfl

/-- `t'` is `t` but for `E.i`, `E.phase` and `E.idx`, and for `E.idx` alone if a drain is in progress. -/
def SequencerTwin (t t' : State) : Prop :=
  t' = { t with eI := t'.eI, ePhase := t'.ePhase, eIdx := t'.eIdx } ∧
    (t.eBusy = true → t'.eI = t.eI ∧ t'.ePhase = t.ePhase)

section
variable {i : Nat} {p : Phase} {x : Word}

theorem sequencerTwin_idle (hb : t.eBusy = false) : SequencerTwin t (t.withSequencer i p x) :=
  ⟨rfl, fun h => absurd h (by simp [hb])⟩

theorem respond_withSequencer (q : Port) (r : Response) (s : State) :
    respond q r (s.withSequencer i p x) = (respond q r s).withSequencer i p x := by
  cases q <;> rfl

theorem atomicStore_withSequencer (c : Ctx) (r : Cursor) (v : Word) (s : State) :
    atomicStore c r v (s.withSequencer i p x) = (atomicStore c r v s).withSequencer i p x := by
  cases hm : s.cfg.memOrder with
  | sc =>
    rw [atomicStore_sc hm, atomicStore_sc (s := s.withSequencer i p x) hm]
    cases r <;> rfl
  | ra =>
    rw [atomicStore_ra hm, atomicStore_ra (s := s.withSequencer i p x) hm]
    cases r <;> rfl

theorem storeSample_withSequencer (k : Nat) (v : Word) (s : State) :
    storeSample k v (s.withSequencer i p x) = (storeSample k v s).withSequencer i p x := by
  cases hm : s.cfg.memOrder with
  | sc => rw [storeSample, storeSample, sampleWrite_sc hm, sampleWrite_sc (s := s.withSequencer i p x) hm]; rfl
  | ra => rw [storeSample, storeSample, sampleWrite_ra hm, sampleWrite_ra (s := s.withSequencer i p x) hm]; rfl

theorem endSst_withSequencer (index data : Word) (s : State) :
    endSst index data (s.withSequencer i p x) = (endSst index data s).withSequencer i p x :=
  storeSample_withSequencer index.toNat data { s with inflight := none }

theorem atomicLoad_withSequencer (c : Ctx) (r : Cursor) (s : State) :
    atomicLoad c r (s.withSequencer i p x) = ((atomicLoad c r s).1, (atomicLoad c r s).2.withSequencer i p x) :=
  (overlay_withSequencer i p x).atomicLoad_eq c (by cases r <;> rfl)

/-- No command but `DRAIN` reads or writes the sequencer's residue. -/
theorem execResult_withSequencer {j : Instr} (hx : ExecResult s j t) (hj : j ≠ .drain) :
    ExecResult (s.withSequencer i p x) j (t.withSequencer i p x) := by
  cases hx with
  | rcld =>
    simpa only [atomicLoad_withSequencer, respond_withSequencer] using ExecResult.rcld (s := s.withSequencer i p x)
  | wcld =>
    simpa only [atomicLoad_withSequencer, respond_withSequencer] using ExecResult.wcld (s := s.withSequencer i p x)
  | rcst hi => rw [← respond_withSequencer, ← atomicStore_withSequencer]; exact .rcst hi
  | wcst hi => rw [← respond_withSequencer, ← atomicStore_withSequencer]; exact .wcst hi
  | sld hi =>
    simpa only [(overlay_withSequencer i p x).sampleRead_eq, respond_withSequencer] using
      ExecResult.sld (s := s.withSequencer i p x) hi
  | sstBegin hi ht => exact .sstBegin hi ht
  | sst hi ht => rw [← storeSample_withSequencer]; exact .sst hi ht
  | drain => exact absurd rfl hj
  | outld hi => rw [← respond_withSequencer]; exact .outld hi
  | rejected hi => rw [reject, ← respond_withSequencer]; exact .rejected hi

theorem execResult_eBusy {j : Instr} (hx : ExecResult s j t) (hj : j ≠ .drain) : t.eBusy = s.eBusy := by
  cases hx with
  | drain => exact absurd rfl hj
  | _ => simp

/-- With no drain in progress a command's result is the same but for the residue; `DRAIN` writes `E.i` and `E.phase`. -/
theorem execResult_sequencerTwin {j : Instr} (hx : ExecResult s j t) (hb : s.eBusy = false) :
    ∃ t', ExecResult (s.withSequencer i p x) j t' ∧ SequencerTwin t t' := by
  by_cases hj : j = .drain
  · subst hj
    cases hx with
    | drain => exact ⟨_, .drain, rfl, fun _ => ⟨rfl, rfl⟩⟩
    | rejected hi => exact absurd hi (by decide)
  · exact ⟨_, execResult_withSequencer hx hj, sequencerTwin_idle ((execResult_eBusy hx hj).trans hb)⟩

theorem issue_sequencerTwin (hb : s.eBusy = false) (q : Port) (w : Command) :
    Simulates SequencerTwin (issue q w s) (issue q w (s.withSequencer i p x)) := by
  refine (overlay_withSequencer i p x).issue_simulates ?rejected fun j t _ hx => execResult_sequencerTwin hx hb
  case rejected =>
    rw [reject, reject, respond_withSequencer]
    exact sequencerTwin_idle (by simpa using hb)

theorem turn_sequencerTwin (hb : s.eBusy = false) :
    Simulates SequencerTwin (turn a s) (turn a (s.withSequencer i p x)) := by
  apply (overlay_withSequencer i p x).turn_simulates
  case hpass => exact sequencerTwin_idle hb
  case hconstruct => exact ⟨rfl, nofun⟩
  case hend =>
    intro index data _
    rw [endSst_withSequencer]
    exact sequencerTwin_idle (by simpa [endSst] using hb)
  case hpIssue => exact fun _ _ w rest _ => issue_sequencerTwin (s := { s with pIn := rest }) hb .pPort w
  case hsIssue => exact fun _ w rest _ => issue_sequencerTwin (s := { s with sIn := rest }) hb .sPort w
  case hmicro => exact fun hbusy => absurd hbusy (by simp [hb])

theorem step_sequencerTwin (hb : s.eBusy = false) :
    Simulates SequencerTwin (step s) (step (s.withSequencer i p x)) := by
  refine (overlay_withSequencer i p x).step_simulates (sequencerTwin_idle hb) fun a u hn => ?_
  obtain ⟨sc, cs, d, rfl⟩ := nextAgent_frame hn
  exact turn_sequencerTwin hb

/-- R141: micro-step `L` overwrites `E.phase` and `E.idx`. -/
theorem microL_withSequencer (s : State) (x : Word) : microL (s.withSequencer s.eI s.ePhase x) = microL s := by
  obtain ⟨o, cs, d, he⟩ := atomicLoad_frame .consumer .rcur s
  simp only [microL, atomicLoad_withSequencer, he]
  rfl

end

/-- Settles O40: with no drain in progress the residue is an overlay that only `DRAIN` overwrites, and `L` overwrites
`E.idx`. -/
theorem sequencerResidueIsNeverRead : Obligations.SequencerResidueIsNeverRead := by
  refine ⟨fun s t i p x hb h => ?idle, fun s x hc hb hp => ?latch⟩
  case idle => exact step_sequencerTwin hb t h
  case latch =>
    calc turn .engine (s.withSequencer s.eI s.ePhase x)
        = microStep (s.withSequencer s.eI s.ePhase x) := turn_engine_busy hc hb
      _ = .next (microL (s.withSequencer s.eI s.ePhase x)) := microStep_l hp
      _ = .next (microL s) := by rw [microL_withSequencer]
      _ = turn .engine s := by rw [turn_engine_busy hc hb, microStep_l hp]

/-! ### `WCUR` (R23) -/

/-- The state with another `WCUR` and other responses given on the P-port. -/
def State.withWcur (w : Word) (rs : List Response) (s : State) : State := { s with wcur := w, pOut := rs }

theorem overlay_withWcur (w : Word) (rs : List Response) : Overlay (State.withWcur w rs) := by
  constructor <;> intros <;> rfl

/-- The answers `t` and `t'` of a turn from two states whose P-port responses were `before` and `before'`: twins again, with
as many responses more, alike in `ok`, and the same ones unless `load`. -/
structure TwinAnswer (load : Prop) (before before' : List Response) (t t' : State) : Prop where
  twin : WcurTwin t t'
  responses : ∃ rs rs', t.pOut = rs ++ before ∧ t'.pOut = rs' ++ before' ∧
    rs.map Response.ok = rs'.map Response.ok ∧ (¬load → rs' = rs)

section
variable {load : Prop} {before before' : List Response} {w : Word}

theorem TwinAnswer.mono {load' : Prop} {t' : State} (h : TwinAnswer load before before' t t') (hl : load → load') :
    TwinAnswer load' before before' t t' := by
  obtain ⟨rs, rs', h1, h2, h3, h4⟩ := h.responses
  exact ⟨h.twin, rs, rs', h1, h2, h3, fun hn => h4 fun h => hn (hl h)⟩

/-- Neither turn gives a response on the P-port. -/
theorem twinAnswer_silent (hsc : t.cfg.memOrder = .sc) (ho : t.pOut = before) :
    TwinAnswer load before before' t (t.withWcur w before') :=
  ⟨⟨hsc, rfl⟩, [], [], ho, rfl, rfl, fun _ => rfl⟩

/-- Both turns give the same response on the P-port. -/
theorem twinAnswer_respond {r : Response} (hsc : t.cfg.memOrder = .sc) (ho : t.pOut = r :: before) :
    TwinAnswer load before before' t (t.withWcur w (r :: before')) :=
  ⟨⟨hsc, rfl⟩, [r], [r], ho, rfl, rfl, fun _ => rfl⟩

theorem twinAnswer_reject (hsc : s.cfg.memOrder = .sc) (q : Port) :
    TwinAnswer load s.pOut before' (reject q s) (reject q (s.withWcur w before')) := by
  cases q with
  | pPort => exact twinAnswer_respond (w := w) hsc rfl
  | sPort => exact twinAnswer_silent (w := w) hsc rfl

theorem twinAnswer_storeSample (hsc : s.cfg.memOrder = .sc) (k : Nat) (v : Word) :
    TwinAnswer load s.pOut before' (storeSample k v s) (storeSample k v (s.withWcur w before')) := by
  rw [storeSample, storeSample, sampleWrite_sc hsc, sampleWrite_sc (s := s.withWcur w before') hsc]
  exact twinAnswer_respond (w := w) hsc rfl

/-- R114: of the eight commands only `WCLD` answers otherwise with another `WCUR`. -/
theorem execResult_twinAnswer {i : Instr} (hx : ExecResult s i t) (hsc : s.cfg.memOrder = .sc) :
    ∃ t', ExecResult (s.withWcur w before') i t' ∧ TwinAnswer (i = .wcld) s.pOut before' t t' := by
  have hsc' : (s.withWcur w before').cfg.memOrder = .sc := hsc
  cases hx with
  | rcld =>
    refine ⟨_, .rcld, ?_⟩
    rw [atomicLoad_sc hsc, atomicLoad_sc hsc']
    exact twinAnswer_respond (w := w) hsc rfl
  | wcld =>
    refine ⟨_, .wcld, ?_⟩
    rw [atomicLoad_sc hsc, atomicLoad_sc hsc']
    exact ⟨⟨hsc, rfl⟩, [performed s.wcur], [performed w], rfl, rfl, rfl, fun hn => absurd rfl hn⟩
  | rcst hi =>
    refine ⟨_, .rcst hi, ?_⟩
    rw [atomicStore_sc hsc, atomicStore_sc hsc']
    exact twinAnswer_respond (w := w) hsc rfl
  | wcst hi =>
    refine ⟨_, .wcst hi, ?_⟩
    rw [atomicStore_sc hsc, atomicStore_sc hsc']
    exact twinAnswer_respond hsc rfl
  | sld hi =>
    refine ⟨_, .sld hi, ?_⟩
    rw [(overlay_withWcur w before').sampleRead_eq]
    exact twinAnswer_respond (w := w) (by simpa using hsc) (by simp)
  | sstBegin hi ht => exact ⟨_, .sstBegin hi ht, twinAnswer_silent (w := w) hsc rfl⟩
  | sst hi ht => exact ⟨_, .sst hi ht, twinAnswer_storeSample hsc _ _⟩
  | drain => exact ⟨_, .drain, twinAnswer_silent (w := w) hsc rfl⟩
  | outld hi => exact ⟨_, .outld hi, twinAnswer_silent (w := w) hsc rfl⟩
  | rejected hi => exact ⟨_, .rejected hi, twinAnswer_reject hsc _⟩

/-- R149: the engine does not look at `WCUR`. -/
theorem microStep_twinAnswer (hsc : s.cfg.memOrder = .sc) :
    Simulates (TwinAnswer load s.pOut before') (microStep s) (microStep (s.withWcur w before')) := by
  have hsc' : (s.withWcur w before').cfg.memOrder = .sc := hsc
  cases hp : s.ePhase with
  | l =>
    rw [microStep_l hp, microStep_l (s := s.withWcur w before') hp, microL_sc hsc, microL_sc hsc']
    exact simulates_next (twinAnswer_silent (w := w) hsc rfl)
  | r =>
    rw [microStep_r hp, microStep_r (s := s.withWcur w before') hp]
    intro t h
    obtain ⟨hx, hi, rfl⟩ := microR_next h
    refine ⟨_, microR_inRange (s := s.withWcur w before') hx hi, ?_⟩
    rw [(overlay_withWcur w before').sampleRead_eq]
    exact twinAnswer_silent (w := w) (by simpa using hsc) (by simp)
  | s =>
    rw [microStep_s hp, microStep_s (s := s.withWcur w before') hp]
    by_cases hi : s.eI + 1 = Config.Q
    · rw [microS_sc_last hsc hi, microS_sc_last hsc' hi]
      exact simulates_next (twinAnswer_silent (w := w) hsc rfl)
    · rw [microS_sc_next hsc hi, microS_sc_next hsc' hi]
      exact simulates_next (twinAnswer_silent (w := w) hsc rfl)

theorem issue_twinAnswer {c : Command} (hsc : s.cfg.memOrder = .sc) (q : Port)
    (hload : decode q c = .command .wcld → load) :
    Simulates (TwinAnswer load s.pOut before') (issue q c s) (issue q c (s.withWcur w before')) := by
  refine (overlay_withWcur w before').issue_simulates (twinAnswer_reject hsc q) fun i t hd hx => ?_
  obtain ⟨t', hx', hq⟩ := execResult_twinAnswer hx hsc
  exact ⟨t', hx', hq.mono fun hi => hload (hi ▸ hd)⟩

theorem turn_twinAnswer (hsc : s.cfg.memOrder = .sc)
    (hload : a = .producer → s.inflight = none → ∀ c rest, s.pIn = c :: rest →
      decode .pPort c = .command .wcld → load) :
    Simulates (TwinAnswer load s.pOut before') (turn a s) (turn a (s.withWcur w before')) := by
  apply (overlay_withWcur w before').turn_simulates
  case hpass => exact twinAnswer_silent hsc rfl
  case hconstruct => exact twinAnswer_silent (w := 0) hsc rfl
  case hend => exact fun index data _ => twinAnswer_storeSample (s := { s with inflight := none }) hsc _ data
  case hpIssue =>
    exact fun ha hi c rest hp => issue_twinAnswer (s := { s with pIn := rest }) hsc _ (hload ha hi c rest hp)
  case hsIssue =>
    exact fun _ c rest _ => issue_twinAnswer (s := { s with sIn := rest }) hsc .sPort fun hd =>
      absurd (decode_command hd).1 (by decide)
  case hmicro => exact fun _ => microStep_twinAnswer hsc

theorem step_twinAnswer (hsc : s.cfg.memOrder = .sc) :
    Simulates (TwinAnswer (loadsCursor .producer .wcur s) s.pOut before') (step s) (step (s.withWcur w before')) := by
  refine (overlay_withWcur w before').step_simulates (twinAnswer_silent hsc rfl) fun a u hn => ?_
  obtain ⟨sc, cs, d, rfl⟩ := nextAgent_frame hn
  refine turn_twinAnswer (s := { s with sched := sc, choices := cs, drawn := d }) hsc fun ha hi c rest hp hd => ?_
  exact ⟨by simp [movesNext, hn, ha], hi, c, rest, hp, hd⟩

end

/-- Settles O39: `WCUR` is an overlay that no turn but the Producer's `WCLD` reads. -/
theorem writeCursorInfluencesOnlyWcld : Obligations.WriteCursorInfluencesOnlyWcld := by
  rintro s s' t ⟨hsc, ht⟩ h
  have hoverlay : s.withWcur t.wcur t.pOut = t := ht.symm
  obtain ⟨t', hstep, htwin, hresponses⟩ := step_twinAnswer (w := t.wcur) (before' := t.pOut) hsc s' h
  exact ⟨t', hoverlay ▸ hstep, htwin, hresponses⟩

/-! ### What the open parameters allow -/

/-- Settles O50: what a load or a read draws lies between the view and the newest entry, and each such number can be
drawn. -/
theorem raAdmitsEveryVisibleEntry : Obligations.RaAdmitsEveryVisibleEntry := by
  intro s a j rest hra
  refine ⟨fun c hlo hhi => ?cursor, fun k hm hlo hhi => ?slot⟩
  case cursor =>
    obtain ⟨_, _, _, rfl, he⟩ :=
      atomicLoad_ra (s := { s with choices := (j - (s.ordering.view a).cursor c) :: rest }) hra a c
    rw [he, drawBetween_admits hlo hhi]
    rfl
  case slot =>
    obtain ⟨_, _, _, rfl, he⟩ :=
      sampleRead_ra (s := { s with choices := (j - (s.ordering.view a).slot k) :: rest }) hra hm a
    rw [he, drawBetween_admits hlo hhi]
    rfl

theorem marked_of_inflight {index data : Word} (h : s.inflight = some (index, data)) :
    s.marked index.toNat = true := by
  simp [State.marked, h]

/-- Settles O54: micro-step `R` of a marked slot takes the next choice as the sample. -/
theorem tornReadsReturnAnyWord : Obligations.TornReadsReturnAnyWord := by
  intro s x data rest hc hb hp hx hi hf
  have hread : sampleRead .consumer s.eIdx.toNat { s with choices := x.toNat :: rest } =
      (x, { s with choices := rest }) :=
    (sampleRead_marked (s := { s with choices := x.toNat :: rest }) (marked_of_inflight hf) _).trans (by simp)
  calc turn .engine { s with choices := x.toNat :: rest }
      = microStep { s with choices := x.toNat :: rest } := turn_engine_busy hc hb
    _ = microR { s with choices := x.toNat :: rest } := microStep_r hp
    _ = _ := microR_inRange hx hi
    _ = _ := by rw [hread]; rfl

end Sys2Proof.Machine
end

section
/-! SUPPORT. The memory statements, first part: a step advances the bookkeeping of `ra` (R59 (c), R63). -/

namespace Sys2Proof.Machine

variable {s t : State} {o o' : RaState}

/-- The bookkeeping `o'` is sound, and in it no context's view is behind the one it has in `o`. -/
structure OrderingAdvances (o o' : RaState) : Prop where
  ok : OrderingOk o'
  view_le : ∀ a, (o.view a).le (o'.view a)

/-! ### One operation -/

theorem OrderingAdvances.refl (ok : OrderingOk o) : OrderingAdvances o o := ⟨ok, fun _ => View.le_refl _⟩

theorem atomicLoad_advances (ok : OrderingOk s.ordering) (a : Ctx) (c : Cursor) :
    OrderingAdvances s.ordering (atomicLoad a c s).2.ordering :=
  ⟨atomicLoad_orderingOk ok a c, atomicLoad_view_le ok a c⟩

theorem sampleRead_advances (ok : OrderingOk s.ordering) (a : Ctx) {k : Nat} (hk : k < Config.C) :
    OrderingAdvances s.ordering (sampleRead a k s).2.ordering :=
  ⟨sampleRead_orderingOk ok a hk, sampleRead_view_le ok a k⟩

theorem atomicStore_advances (ok : OrderingOk s.ordering) (a : Ctx) (c : Cursor) (v : Word) :
    OrderingAdvances s.ordering (atomicStore a c v s).ordering :=
  ⟨atomicStore_orderingOk ok a c v, atomicStore_view_le ok a c v⟩

theorem sampleWrite_advances (ok : OrderingOk s.ordering) (a : Ctx) {k : Nat} (v : Word) (hk : k < Config.C) :
    OrderingAdvances s.ordering (sampleWrite a k v s).ordering :=
  ⟨sampleWrite_orderingOk ok a v hk, sampleWrite_view_le ok a k v⟩

/-! ### Which operation a composed one does to the bookkeeping -/

@[simp] theorem reject_ordering (p : Port) (s : State) : (reject p s).ordering = s.ordering := respond_ordering ..

@[simp] theorem storeSample_ordering (k : Nat) (data : Word) (s : State) :
    (storeSample k data s).ordering = (sampleWrite .producer k data s).ordering := respond_ordering ..

@[simp] theorem microL_ordering (s : State) : (microL s).ordering = (atomicLoad .consumer .rcur s).2.ordering := rfl

@[simp] theorem microS_ordering (s : State) :
    (microS s).ordering = (atomicStore .consumer .rcur (nextIndex s.eIdx) s).ordering := by
  unfold microS; split <;> simp

/-! ### One command, one turn, one step -/

theorem execResult_advances {i : Instr} (hx : ExecResult s i t) (ok : OrderingOk s.ordering) :
    OrderingAdvances s.ordering t.ordering := by
  cases hx with
  | rcld => rw [respond_ordering]; exact atomicLoad_advances ok _ _
  | wcld => rw [respond_ordering]; exact atomicLoad_advances ok _ _
  | rcst => rw [respond_ordering]; exact atomicStore_advances ok _ _ _
  | wcst => rw [respond_ordering]; exact atomicStore_advances ok _ _ _
  | sld hi => rw [respond_ordering]; exact sampleRead_advances ok _ hi
  | sstBegin => exact .refl ok
  | sst hi => rw [storeSample_ordering]; exact sampleWrite_advances ok _ _ hi
  | drain => exact .refl ok
  | outld => rw [respond_ordering]; exact .refl ok
  | rejected => rw [reject_ordering]; exact .refl ok

/-- A slot in flight is a slot of the array; this half of `Inv.inflight_ok` is all that the bookkeeping needs
of it. -/
def InflightInRange (s : State) : Prop := ∀ e, s.inflight = some e → e.1.toNat < Config.C

theorem Inv.inflightInRange (h : Inv s) : InflightInRange s := fun e he => (h.inflight_ok e he).2

theorem turnResult_advances {a : Agent} (hr : TurnResult s a t) (hc : s.constructed = true) (hf : InflightInRange s)
    (ok : OrderingOk s.ordering) : OrderingAdvances s.ordering t.ordering := by
  cases hr with
  | pass => exact .refl ok
  | sstEnd _ he =>
    rw [endSst, storeSample_ordering]
    exact sampleWrite_advances (s := { s with inflight := none }) ok _ _ (hf _ he)
  | pRejected => rw [reject_ordering]; exact .refl ok
  | pCommand _ _ _ _ hx => exact (execResult_advances hx ok :)
  | sRejected => rw [reject_ordering]; exact .refl ok
  | sCommand _ _ _ _ hx => exact (execResult_advances hx ok :)
  | microL => rw [microL_ordering]; exact atomicLoad_advances ok _ _
  | microR _ _ _ hx => exact sampleRead_advances ok _ hx
  | microS => rw [microS_ordering]; exact atomicStore_advances ok _ _ _
  | construct hn => exact absurd hc (by simp [hn])

theorem step_advances (h : step s = .next t) (hc : s.constructed = true) (hf : InflightInRange s)
    (ok : OrderingOk s.ordering) : OrderingAdvances s.ordering t.ordering := by
  obtain ⟨-, rfl⟩ | ⟨a, sc, cs, d, -, hr⟩ := step_cases h
  · exact .refl ok
  · exact (turnResult_advances hr hc hf ok :)

/-- Settles O29: the first half of `step_advances`. -/
theorem stepKeepsTheOrderingSound : Obligations.StepKeepsTheOrderingSound :=
  fun _ _ hinv ok h => (step_advances h hinv.constructed hinv.inflightInRange ok).ok

/-- Settles O52: the second half of `step_advances`. -/
theorem viewsNeverGoBack : Obligations.ViewsNeverGoBack :=
  fun _ _ a hinv ok h => (step_advances h hinv.constructed hinv.inflightInRange ok).view_le a

end Sys2Proof.Machine
end

section
/-! SUPPORT. The memory statements, second part: every step under `sc` is a step under `ra` with suitable choices (R60,
R63). -/

namespace Sys2Proof.Machine

variable {s t u : State} {o : RaState} {d : Nat}

/-! ### A state under `sc` and its forms under `ra` -/

/-- The state under `ra`, with a bookkeeping and choices given. -/
def State.toRa (o : RaState) (cs : List Nat) (d : Nat) (s : State) : State :=
  { s with cfg := { s.cfg with memOrder := .ra }, ordering := o, choices := cs, drawn := d }

theorem raTwin_iff : RaTwin s t ↔ t = s.toRa t.ordering t.choices t.drawn := Iff.rfl

theorem raTwin_toRa (cs : List Nat) : RaTwin s (s.toRa o cs d) := rfl

/-- Where `f` answers a next state from `s`, it answers that state's form under `ra` from `s`'s own, with suitable
choices. -/
def RaMatched (f : State → Result) (o : RaState) (d : Nat) (s : State) : Prop :=
  ∀ s', f s = .next s' → ∃ cs o' cs' d', f (s.toRa o cs d) = .next (s'.toRa o' cs' d')

/-! ### The shared operations under both orders -/

section
variable (p : Port) (r : Response) (cs : List Nat)

@[simp] theorem toRa_ordering : (s.toRa o cs d).ordering = o := rfl

@[simp] theorem toRa_eIdx : (s.toRa o cs d).eIdx = s.eIdx := rfl

theorem respond_toRa : respond p r (s.toRa o cs d) = (respond p r s).toRa o cs d := by cases p <;> rfl

theorem reject_toRa : reject p (s.toRa o cs d) = (reject p s).toRa o cs d := respond_toRa ..

theorem accepts_toRa : (s.toRa o cs d).accepts p = s.accepts p := by cases p <;> rfl

end

/-- Under `ra` every number between the bounds can be drawn, with the further choices left as any list. -/
theorem drawBetween_toRa {lo hi j : Nat} (h1 : lo ≤ j) (h2 : j ≤ hi) (rest : List Nat) :
    ∃ cs, drawBetween lo hi (s.toRa o cs d) = (j, s.toRa o rest d) := by
  by_cases hlt : lo < hi
  · have hmod : (j - lo) % (hi - lo + 1) = j - lo := Nat.mod_eq_of_lt (by omega)
    refine ⟨(j - lo) :: rest, ?_⟩
    rw [drawBetween, if_pos hlt, draw_next (s := s.toRa o ((j - lo) :: rest) d) rfl]
    dsimp only
    rw [hmod, Nat.add_sub_cancel' h1]
    rfl
  · refine ⟨rest, ?_⟩
    rw [drawBetween, if_neg hlt, show j = lo by omega]

/-- A cursor load under `ra` that draws the newest entry reads the register. -/
theorem atomicLoad_toRa (hsc : s.cfg.memOrder = .sc) (ok : OrderingOk o) (a : Ctx) (c : Cursor) :
    ∃ cs o', atomicLoad a c (s.toRa o cs d) = ((atomicLoad a c s).1, (atomicLoad a c s).2.toRa o' [] d) := by
  have hlast := cursor_le_last (view_viewOk o ok a) c
  obtain ⟨cs, hdraw⟩ := drawBetween_toRa (s := s) (o := o) (d := d) hlast le_rfl []
  refine ⟨cs, o.setView a (((o.view a).setCursor c (o.history c).last).raise (o.history c).msg), ?_⟩
  rw [atomicLoad_ra_draw (s := s.toRa o cs d) rfl, atomicLoad_sc hsc]
  simp only [toRa_ordering, hdraw, entry_last]
  cases c <;> rfl

/-- A sample read under `ra` that draws the newest entry reads the cell, and of a slot in flight any word is drawn. -/
theorem sampleRead_toRa (hsc : s.cfg.memOrder = .sc) (ok : OrderingOk o) (a : Ctx) (k : Nat) :
    ∃ cs o', sampleRead a k (s.toRa o cs d) = ((sampleRead a k s).1, (sampleRead a k s).2.toRa o' [] d) := by
  cases hm : s.marked k with
  | true =>
    obtain ⟨cs, n, hframe⟩ := draw_frame s
    refine ⟨[(draw s).1], o, ?_⟩
    rw [sampleRead_marked hm, sampleRead_marked (s := s.toRa o [(draw s).1] d) hm, hframe]
    rfl
  | false =>
    obtain ⟨cs, hdraw⟩ := drawBetween_toRa (s := s) (o := o) (d := d) ((view_viewOk o ok a).slot_le k) le_rfl []
    refine ⟨cs, o.setView a ((o.view a).setSlot k (o.olderSamples k).length), ?_⟩
    rw [sampleRead_ra_draw (s := s.toRa o cs d) rfl hm, sampleRead_sc hsc hm]
    simp only [toRa_ordering, hdraw, sampleEntry_last]
    rfl

theorem atomicStore_toRa (hsc : s.cfg.memOrder = .sc) (a : Ctx) (c : Cursor) (v : Word) (cs : List Nat) :
    ∃ o', atomicStore a c v (s.toRa o cs d) = (atomicStore a c v s).toRa o' cs d := by
  rw [atomicStore_sc hsc, atomicStore_ra (s := s.toRa o cs d) rfl]
  cases c <;> exact ⟨_, rfl⟩

theorem storeSample_toRa (hsc : s.cfg.memOrder = .sc) (k : Nat) (v : Word) (cs : List Nat) :
    ∃ o', storeSample k v (s.toRa o cs d) = (storeSample k v s).toRa o' cs d := by
  rw [storeSample, storeSample, sampleWrite_sc hsc, sampleWrite_ra (s := s.toRa o cs d) rfl]
  exact ⟨_, rfl⟩

/-! ### One command -/

theorem execResult_toRa {i : Instr} (hx : ExecResult s i t) (hsc : s.cfg.memOrder = .sc) (ok : OrderingOk o) :
    ∃ cs o' cs' d', ExecResult (s.toRa o cs d) i (t.toRa o' cs' d') := by
  cases hx with
  | rcld =>
    obtain ⟨cs, o', he⟩ := atomicLoad_toRa (d := d) hsc ok .producer .rcur
    have hx := ExecResult.rcld (s := s.toRa o cs d)
    rw [he, respond_toRa] at hx
    exact ⟨cs, o', [], d, hx⟩
  | wcld =>
    obtain ⟨cs, o', he⟩ := atomicLoad_toRa (d := d) hsc ok .producer .wcur
    have hx := ExecResult.wcld (s := s.toRa o cs d)
    rw [he, respond_toRa] at hx
    exact ⟨cs, o', [], d, hx⟩
  | @rcst index hi =>
    obtain ⟨o', he⟩ := atomicStore_toRa (o := o) (d := d) hsc .producer .rcur index []
    exact ⟨[], o', [], d, by rw [← respond_toRa, ← he]; exact .rcst hi⟩
  | @wcst index hi =>
    obtain ⟨o', he⟩ := atomicStore_toRa (o := o) (d := d) hsc .producer .wcur index []
    exact ⟨[], o', [], d, by rw [← respond_toRa, ← he]; exact .wcst hi⟩
  | @sld index hi =>
    obtain ⟨cs, o', he⟩ := sampleRead_toRa (d := d) hsc ok .producer index.toNat
    have hx := ExecResult.sld (s := s.toRa o cs d) hi
    rw [he, respond_toRa] at hx
    exact ⟨cs, o', [], d, hx⟩
  | sstBegin hi ht => exact ⟨[], o, [], d, .sstBegin hi ht⟩
  | @sst index data hi ht =>
    obtain ⟨o', he⟩ := storeSample_toRa (o := o) (d := d) hsc index.toNat data []
    exact ⟨[], o', [], d, by rw [← he]; exact .sst hi ht⟩
  | drain => exact ⟨[], o, [], d, .drain⟩
  | outld hi => exact ⟨[], o, [], d, by rw [← respond_toRa]; exact .outld hi⟩
  | rejected hi => exact ⟨[], o, [], d, by rw [← reject_toRa]; exact .rejected hi⟩

theorem issue_raMatched (hsc : s.cfg.memOrder = .sc) (ok : OrderingOk o) (p : Port) (w : Command) :
    RaMatched (issue p w) o d s := by
  intro s' h
  cases hd : decode p w with
  | rejected e =>
    simp only [issue, hd] at h ⊢
    cases h
    exact ⟨[], o, [], d, by rw [reject_toRa]⟩
  | command i =>
    rw [issue_command hd] at h
    obtain ⟨ha, hx⟩ := exec_cases h
    obtain ⟨cs, o', cs', d', hx'⟩ := execResult_toRa (d := d) hx hsc ok
    refine ⟨cs, o', cs', d', ?_⟩
    rw [issue_command hd]
    exact exec_of_result ((accepts_toRa ..).trans ha) hx'

/-! ### One micro-step -/

theorem microL_toRa (hsc : s.cfg.memOrder = .sc) (ok : OrderingOk o) :
    ∃ cs o', microL (s.toRa o cs d) = (microL s).toRa o' [] d := by
  obtain ⟨cs, o', he⟩ := atomicLoad_toRa (d := d) hsc ok .consumer .rcur
  exact ⟨cs, o', by simp only [microL, he]; rfl⟩

theorem microR_raMatched (hsc : s.cfg.memOrder = .sc) (ok : OrderingOk o) : RaMatched microR o d s := by
  intro s' h
  obtain ⟨hx, hi, rfl⟩ := microR_next h
  obtain ⟨cs, o', he⟩ := sampleRead_toRa (d := d) hsc ok .consumer s.eIdx.toNat
  refine ⟨cs, o', [], d, (microR_inRange (s := s.toRa o cs d) hx hi).trans ?_⟩
  rw [toRa_eIdx, he]
  rfl

/-- Micro-step `S` of an iteration that another follows (R142). -/
theorem microS_next (hi : s.eI + 1 ≠ Config.Q) :
    microS s = { atomicStore .consumer .rcur (nextIndex s.eIdx) s with eI := s.eI + 1, ePhase := .l } := by
  simp only [microS, if_neg hi]

/-- Micro-step `S` of the last iteration (R142). -/
theorem microS_last (hi : s.eI + 1 = Config.Q) :
    microS s = respond .sPort keepRunning
      { atomicStore .consumer .rcur (nextIndex s.eIdx) s with eI := s.eI + 1, eBusy := false } := by
  simp only [microS, if_pos hi]

theorem microS_toRa (hsc : s.cfg.memOrder = .sc) (cs : List Nat) :
    ∃ o', microS (s.toRa o cs d) = (microS s).toRa o' cs d := by
  obtain ⟨o', he⟩ := atomicStore_toRa (o := o) (d := d) hsc .consumer .rcur (nextIndex s.eIdx) cs
  refine ⟨o', ?_⟩
  by_cases hi : s.eI + 1 = Config.Q
  · rw [microS_last hi, microS_last (s := s.toRa o cs d) hi, toRa_eIdx, he]
    rfl
  · rw [microS_next hi, microS_next (s := s.toRa o cs d) hi, toRa_eIdx, he]
    rfl

theorem microStep_raMatched (hsc : s.cfg.memOrder = .sc) (ok : OrderingOk o) : RaMatched microStep o d s := by
  intro s' h
  cases hp : s.ePhase with
  | l =>
    rw [microStep_l hp] at h
    cases h
    obtain ⟨cs, o', he⟩ := microL_toRa (d := d) hsc ok
    exact ⟨cs, o', [], d, by rw [microStep_l (s := s.toRa o cs d) hp, he]⟩
  | r =>
    rw [microStep_r hp] at h
    obtain ⟨cs, o', cs', d', he⟩ := microR_raMatched (d := d) hsc ok s' h
    exact ⟨cs, o', cs', d', by rw [microStep_r (s := s.toRa o cs d) hp, he]⟩
  | s =>
    rw [microStep_s hp] at h
    cases h
    obtain ⟨o', he⟩ := microS_toRa (o := o) (d := d) hsc []
    exact ⟨[], o', [], d, by rw [microStep_s (s := s.toRa o [] d) hp, he]⟩

/-! ### One turn -/

/-- A turn that passes from `s` passes from every form of `s`. -/
theorem raMatched_pass {a : Agent} (h : turn a s = .next s) (h' : turn a (s.toRa o [] d) = .next (s.toRa o [] d)) :
    RaMatched (turn a) o d s := by
  intro s' hs
  cases h.symm.trans hs
  exact ⟨[], o, [], d, h'⟩

theorem producer_raMatched (hc : s.constructed = true) (hsc : s.cfg.memOrder = .sc) (ok : OrderingOk o) :
    RaMatched (turn .producer) o d s := by
  cases hf : s.inflight with
  | some e =>
    intro s' h
    rw [turn_producer_ends hc hf] at h
    cases h
    obtain ⟨o', he⟩ := storeSample_toRa (s := { s with inflight := none }) (o := o) (d := d) hsc e.1.toNat e.2 []
    exact ⟨[], o', [], d, (turn_producer_ends (s := s.toRa o [] d) hc hf).trans (congrArg _ he)⟩
  | none =>
    cases hp : s.pIn with
    | nil => exact raMatched_pass (turn_producer_passes hc hf hp) (turn_producer_passes hc hf hp)
    | cons w rest =>
      intro s' h
      rw [turn_producer_issues hc hf hp] at h
      obtain ⟨cs, o', cs', d', he⟩ := issue_raMatched (s := { s with pIn := rest }) (d := d) hsc ok .pPort w s' h
      exact ⟨cs, o', cs', d', (turn_producer_issues (s := s.toRa o cs d) hc hf hp).trans he⟩

theorem scheduler_raMatched (hc : s.constructed = true) (hsc : s.cfg.memOrder = .sc) (ok : OrderingOk o) :
    RaMatched (turn .scheduler) o d s := by
  cases hb : s.eBusy with
  | true => exact raMatched_pass (turn_scheduler_waits hc hb) (turn_scheduler_waits hc hb)
  | false =>
    cases hp : s.sIn with
    | nil => exact raMatched_pass (turn_scheduler_passes hc hb hp) (turn_scheduler_passes hc hb hp)
    | cons w rest =>
      intro s' h
      rw [turn_scheduler_issues hc hb hp] at h
      obtain ⟨cs, o', cs', d', he⟩ := issue_raMatched (s := { s with sIn := rest }) (d := d) hsc ok .sPort w s' h
      exact ⟨cs, o', cs', d', (turn_scheduler_issues (s := s.toRa o cs d) hc hb hp).trans he⟩

theorem engine_raMatched (hc : s.constructed = true) (hsc : s.cfg.memOrder = .sc) (ok : OrderingOk o) :
    RaMatched (turn .engine) o d s := by
  cases hb : s.eBusy with
  | false => exact raMatched_pass (turn_engine_passes hc hb) (turn_engine_passes hc hb)
  | true =>
    intro s' h
    rw [turn_engine_busy hc hb] at h
    obtain ⟨cs, o', cs', d', he⟩ := microStep_raMatched (d := d) hsc ok s' h
    exact ⟨cs, o', cs', d', (turn_engine_busy (s := s.toRa o cs d) hc hb).trans he⟩

theorem turn_raMatched (hc : s.constructed = true) (hsc : s.cfg.memOrder = .sc) (ok : OrderingOk o) (a : Agent) :
    RaMatched (turn a) o d s := by
  cases a with
  | producer => exact producer_raMatched hc hsc ok
  | scheduler => exact scheduler_raMatched hc hsc ok
  | engine => exact engine_raMatched hc hsc ok
  | reset =>
    intro s' h
    rw [turn_reset_refused hc] at h
    cases h

/-! ### One step -/

theorem nextAgent_none_toRa (h : nextAgent s = none) (cs : List Nat) : nextAgent (s.toRa o cs d) = none := by
  cases hs : s.sched with
  | cons b rest => rw [nextAgent_listed hs] at h; cases h
  | nil =>
    cases he : enabledAgents s with
    | nil => exact nextAgent_idle (s := s.toRa o cs d) hs he
    | cons b more => rw [nextAgent_free hs he] at h; cases h

/-- The agent that moves from `s` can be made to move from a form of `s`, with any choices left for its turn. -/
theorem nextAgent_toRa {a : Agent} (h : nextAgent s = some (a, u)) (rest : List Nat) :
    ∃ cs, nextAgent (s.toRa o cs d) = some (a, u.toRa o rest d) := by
  cases hs : s.sched with
  | cons b sched =>
    rw [nextAgent_listed hs] at h
    cases h
    exact ⟨rest, nextAgent_listed (s := s.toRa o rest d) hs⟩
  | nil =>
    cases he : enabledAgents s with
    | nil => rw [nextAgent_idle hs he] at h; cases h
    | cons b more =>
      rw [nextAgent_free hs he] at h
      cases h
      obtain ⟨hlo, hhi⟩ := drawBetween_mem (Nat.zero_le more.length) s
      obtain ⟨cs, hdraw⟩ := drawBetween_toRa (s := s) (o := o) (d := d) hlo hhi rest
      obtain ⟨cs', d', hframe⟩ := drawBetween_frame 0 more.length s
      refine ⟨cs, (nextAgent_free (s := s.toRa o cs d) hs he).trans ?_⟩
      rw [hdraw, hframe]
      rfl

theorem step_raMatched (hc : s.constructed = true) (hsc : s.cfg.memOrder = .sc) (ok : OrderingOk o) :
    RaMatched step o d s := by
  intro s' h
  cases hn : nextAgent s with
  | none =>
    simp only [step, hn] at h
    cases h
    exact ⟨[], o, [], d, by simp only [step, nextAgent_none_toRa hn]⟩
  | some p =>
    obtain ⟨a, u⟩ := p
    rw [step_of_nextAgent hn] at h
    obtain ⟨sc, cs₀, d₀, rfl⟩ := nextAgent_frame hn
    obtain ⟨rest, o', cs', d', hturn⟩ :=
      turn_raMatched (s := { s with sched := sc, choices := cs₀, drawn := d₀ }) (d := d) hc hsc ok a s' h
    obtain ⟨cs, hnext⟩ := nextAgent_toRa (o := o) (d := d) hn rest
    exact ⟨cs, o', cs', d', (step_of_nextAgent hnext).trans hturn⟩

/-- Settles O53: `step_raMatched` gives the choices, and the step under `ra` keeps the bookkeeping sound by
`step_advances`. -/
theorem everyScStepIsAnRaStep : Obligations.EveryScStepIsAnRaStep := by
  intro s s' t hsc hinv htwin ok h
  obtain ⟨cs, o', cs', d', hstep⟩ := step_raMatched (d := t.drawn) hinv.constructed hsc ok s' h
  have hchoices : { t with choices := cs } = s.toRa t.ordering cs t.drawn := by rw [raTwin_iff.1 htwin]; rfl
  rw [← hchoices] at hstep
  have hc : t.constructed = true := by rw [raTwin_iff.1 htwin]; exact hinv.constructed
  have hf : InflightInRange t := by rw [raTwin_iff.1 htwin]; exact hinv.inflightInRange
  exact ⟨cs, _, hstep, raTwin_toRa cs', (step_advances (s := { t with choices := cs }) hstep hc hf ok).ok⟩

end Sys2Proof.Machine
end

section
/-! SUPPORT. The memory statements, third part: what the accesses of `ra` answer (R63), sample stores in one step and in
two (R58), and the bytes of a word (R51). -/

namespace Sys2Proof.Machine

variable {s : State}

/-! ### Loads and reads under `ra` -/

/-- `atomicLoad_ra` with sound bookkeeping: the entry read is no older than the view and is one there is. -/
theorem atomicLoad_ra_visible (hra : s.cfg.memOrder = .ra) (ok : OrderingOk s.ordering) (a : Ctx) (c : Cursor) :
    ∃ j cs d, (s.ordering.view a).cursor c ≤ j ∧ j ≤ (s.ordering.history c).last ∧
      atomicLoad a c s =
        (((s.ordering.history c).entry (s.cursor c) j).1,
          { s with
            choices := cs
            drawn := d
            ordering := s.ordering.setView a
              (((s.ordering.view a).setCursor c j).raise ((s.ordering.history c).entry (s.cursor c) j).2) }) := by
  obtain ⟨j, cs, d, hj, he⟩ := atomicLoad_ra hra a c
  obtain ⟨hlo, hhi⟩ := drawBetween_mem (cursor_le_last (view_viewOk _ ok a) c) s
  exact ⟨j, cs, d, hj ▸ hlo, hj ▸ hhi, he⟩

/-- `sampleRead_ra` with sound bookkeeping: the value read is no older than the view and is one the slot has held. -/
theorem sampleRead_ra_visible {k : Nat} (hra : s.cfg.memOrder = .ra) (ok : OrderingOk s.ordering)
    (hm : s.marked k = false) (a : Ctx) :
    ∃ j cs d, (s.ordering.view a).slot k ≤ j ∧ j ≤ (s.ordering.olderSamples k).length ∧
      sampleRead a k s =
        (sampleEntry (s.ordering.olderSamples k) (s.sampleCell k) j,
          { s with
            choices := cs
            drawn := d
            ordering := s.ordering.setView a ((s.ordering.view a).setSlot k j) }) := by
  obtain ⟨j, cs, d, hj, he⟩ := sampleRead_ra hra hm a
  obtain ⟨hlo, hhi⟩ := drawBetween_mem ((view_viewOk _ ok a).slot_le k) s
  exact ⟨j, cs, d, hj ▸ hlo, hj ▸ hhi, he⟩

/-- Settles O46: each of the three loads is `atomicLoad` with its value put in the response or the latch. -/
theorem raCursorLoadsReadAVisibleEntry : Obligations.RaCursorLoadsReadAVisibleEntry := by
  intro s hc hra ok
  refine ⟨fun hf => ?rcld, fun hf => ?wcld, fun hb hp => ?microL⟩
  case rcld =>
    obtain ⟨j, cs, d, hlo, hhi, he⟩ := atomicLoad_ra_visible hra ok .producer .rcur
    refine ⟨j, cs, d, hlo, hhi, (execRcld_accepts ((accepts_pPort_iff s).2 ⟨hc, hf⟩)).trans ?_⟩
    rw [he]
    rfl
  case wcld =>
    obtain ⟨j, cs, d, hlo, hhi, he⟩ := atomicLoad_ra_visible hra ok .producer .wcur
    refine ⟨j, cs, d, hlo, hhi, (execWcld_accepts ((accepts_pPort_iff s).2 ⟨hc, hf⟩)).trans ?_⟩
    rw [he]
    rfl
  case microL =>
    obtain ⟨j, cs, d, hlo, hhi, he⟩ := atomicLoad_ra_visible hra ok .consumer .rcur
    refine ⟨j, cs, d, hlo, hhi, ?_⟩
    rw [turn_engine_busy hc hb, microStep_l hp, microL, he]
    rfl

/-- Settles O48: `SLD` and micro-step `R` are `sampleRead` with its value put in the response or the output slot. -/
theorem raSampleReadsAVisibleValue : Obligations.RaSampleReadsAVisibleValue := by
  intro s index hc hra ok
  refine ⟨fun hf hi => ?sld, fun hb hp hx hi hq hm => ?microR⟩
  case sld =>
    obtain ⟨j, cs, d, hlo, hhi, he⟩ := sampleRead_ra_visible hra ok (marked_of_none hf index.toNat) .producer
    refine ⟨j, cs, d, hlo, hhi, (execSld_inRange ((accepts_pPort_iff s).2 ⟨hc, hf⟩) hi).trans ?_⟩
    rw [he]
    rfl
  case microR =>
    subst hx
    obtain ⟨j, cs, d, hlo, hhi, he⟩ := sampleRead_ra_visible hra ok hm .consumer
    refine ⟨j, cs, d, hlo, hhi, ?_⟩
    rw [turn_engine_busy hc hb, microStep_r hp, microR_inRange hi hq, he]
    rfl

/-- Settles O51: raising takes the later of two positions, and both views are in canonical form. -/
theorem acquireRaisesEveryLocation : Obligations.AcquireRaisesEveryLocation := by
  intro o a c cell j ok
  have hview := view_viewOk o ok a
  have hmsg := entry_viewOk o ok c cell j
  refine ⟨fun k => ?slot, fun c' => ?cursor⟩
  case slot =>
    rw [raise_slot (bound := Config.C) (by simpa using hview.sample_wf) hmsg.sample_wf, setCursor_slot]
  case cursor =>
    rw [raise_cursor]
    by_cases hcc : c' = c
    · rw [if_pos hcc, hcc, setCursor_cursor_same]
    · rw [if_neg hcc, setCursor_cursor_other hcc]

/-! ### Stores under `ra` -/

/-- Settles O47: each of the three stores is `atomicStore`, and micro-step `S` goes on to the next iteration or
the end. -/
theorem raCursorStoresAddAnEntry : Obligations.RaCursorStoresAddAnEntry := by
  intro s index hc hra
  refine ⟨fun hf hi => ⟨?rcst, ?wcst⟩, fun hb hp => ⟨microS s, ?microS⟩⟩
  case rcst =>
    rw [exec, execRcst_accepts ((accepts_pPort_iff s).2 ⟨hc, hf⟩), outOfRange_of_lt hi, atomicStore_ra hra]
    rfl
  case wcst =>
    rw [exec, execWcst_accepts ((accepts_pPort_iff s).2 ⟨hc, hf⟩), outOfRange_of_lt hi, atomicStore_ra hra]
    rfl
  case microS =>
    rw [turn_engine_busy hc hb, microStep_s hp]
    by_cases hi : s.eI + 1 = Config.Q
    · rw [microS_last hi, atomicStore_ra hra, if_pos hi, if_pos hi]
      exact ⟨rfl, (decide_eq_false (not_not_intro hi)).symm, hp, rfl, rfl⟩
    · rw [microS_next hi, atomicStore_ra hra, if_neg hi, if_neg hi]
      exact ⟨rfl, hb.trans (decide_eq_true hi).symm, rfl, rfl, rfl⟩

/-- R58, R63: the step `end` of an `SST` adds one value to the slot's history. With none in flight it is the one step of
an `SST` too. -/
theorem endSst_raSampleStored {index data : Word} (hinv : Inv s) (ok : OrderingOk s.ordering)
    (hra : s.cfg.memOrder = .ra) : RaSampleStored s (endSst index data s) index.toNat data where
  cell := endSst_sampleCell hinv.sample_wf index data
  older := fun j => by
    rw [endSst, storeSample_ordering, sampleWrite_ra (s := { s with inflight := none }) hra]
    refine (olderSamples_store ok .producer index.toNat _ j).trans ?_
    split
    · next he => rw [he]; rfl
    · rfl
  view := fun j => by
    rw [endSst, storeSample_ordering, sampleWrite_ra (s := { s with inflight := none }) hra]
    refine (setSlot_slot ok.producer_ok.sample_wf index.toNat _ j).trans ?_
    split
    · next he => rw [he]
    · rfl
  rest := by
    rw [endSst, storeSample, sampleWrite_ra (s := { s with inflight := none }) hra]
    rfl

/-- With no `SST` in flight the step `end` has no mark to clear. -/
theorem endSst_of_none (hf : s.inflight = none) (index data : Word) :
    endSst index data s = storeSample index.toNat data s := by
  have hs : { s with inflight := none } = s := by rw [← hf]
  rw [endSst, hs]

/-- R58: without tearing no `SST` is ever in flight. -/
theorem inflight_none_of_whole (hinv : Inv s) (ht : s.cfg.sampleTearing = false) : s.inflight = none :=
  Option.eq_none_iff_forall_ne_some.2 fun e he =>
    Bool.false_ne_true (ht.symm.trans (hinv.inflight_ok e he).1)

/-- R117: `SST` in its one step. -/
theorem exec_sst_whole (ha : s.accepts .pPort = true) (ht : s.cfg.sampleTearing = false) {index : Word}
    (hi : index.toNat < Config.C) (data : Word) :
    exec (.sst index data) s = .next (storeSample index.toNat data s) :=
  exec_of_result ha (.sst hi ht)

/-- Settles O49: both forms of the store are `endSst`. -/
theorem raSampleStoresAddAValue : Obligations.RaSampleStoresAddAValue := by
  intro s index data hinv ok hra hi
  refine ⟨fun ht => ?whole, fun hf => ?torn⟩
  case whole =>
    have hf := inflight_none_of_whole hinv ht
    refine ⟨_, ?_, endSst_raSampleStored hinv ok hra⟩
    rw [endSst_of_none hf]
    exact exec_sst_whole ((accepts_pPort_iff s).2 ⟨hinv.constructed, hf⟩) ht hi data
  case torn => exact ⟨_, turn_producer_ends hinv.constructed hf, endSst_raSampleStored hinv ok hra⟩

/-! ### Sample stores in two steps, and busy ports -/

/-- Settles O16: the first step is `SST` with `SAMPLE_TEARING = true`, the second is `endSst`. -/
theorem sstTakesTwoStepsWhenTearing : Obligations.SstTakesTwoStepsWhenTearing := by
  intro s index data ht hi
  refine ⟨fun ha => exec_of_result ha (.sstBegin hi ht), fun hc hf hsc hwf => ?second⟩
  case second =>
    have hend : endSst index data s = { s with
        inflight := none
        sample := memSet (sampleErased s.cfg) index.toNat data s.sample
        pOut := { ok := true, data := 0 } :: s.pOut } := by
      rw [endSst, storeSample, sampleWrite_sc (s := { s with inflight := none }) hsc]
      rfl
    refine ⟨_, (turn_producer_ends hc hf).trans (congrArg _ hend), fun k => ?_⟩
    have hcell := endSst_sampleCell hwf index data k
    rwa [hend] at hcell

/-- R80, R151: a command performed on a port whose last command has not responded is refused. -/
theorem exec_busy {i : Instr} (hc : s.constructed = true) (hb : s.portBusy i.port = true) :
    exec i s = .refused (.portBusy i.port) := by
  have hport : ∀ k, onPort i.port s k = .refused (.portBusy i.port) := fun k => by simp [onPort, hc, hb]
  cases i <;> exact hport _

/-- Settles O20: a busy port's agent waits or ends its `SST`, and `exec_busy` refuses the command. -/
theorem busyPortsAcceptNoCommand : Obligations.BusyPortsAcceptNoCommand := by
  intro s i hc
  refine ⟨fun hb => ⟨turn_scheduler_waits hc hb, fun hp => ?sPort⟩,
    fun index data hf => ⟨turn_producer_ends hc hf, fun hp => ?pPort⟩⟩
  case sPort => exact hp ▸ exec_busy hc (hp ▸ hb)
  case pPort => exact hp ▸ exec_busy hc (hp ▸ by simp [State.portBusy, hf])

/-! ### The bytes of a word -/

/-- A word is its four bytes put together. -/
theorem word_eq_bytes (v : Word) :
    v.extractLsb' 24 8 ++ v.extractLsb' 16 8 ++ v.extractLsb' 8 8 ++ v.extractLsb' 0 8 = v := by
  ext k hk
  simp
  grind

/-- Settles O44: `big` lists the bytes of `little` the other way round and puts them together the other way round. -/
theorem platformBytesGiveTheWordBack : Obligations.PlatformBytesGiveTheWordBack := by
  refine ⟨fun order v => ?_, fun v => rfl⟩
  cases order <;> exact congrArg some (word_eq_bytes v)

end Sys2Proof.Machine
end

section
/-! SUPPORT. The memory statements, fourth part: races on a slot by schedule (R56, R61), and runs without end (R64,
R216). -/

namespace Sys2Proof.Machine

variable {s t u : State}

/-! ### An `SST` and the engine's read of its slot -/

/-- R89: the P-port decodes an encoded `SST`. -/
theorem decode_encode_sst (index data : Word) :
    decode .pPort (encode (.sst index data)) = .command (.sst index data) := by
  obtain ⟨hop, hindex, hdata⟩ := Laws.EncodesOpcode.sst index data
  simp [decode, hop, hindex, hdata, Instr.opcode, Instr.fields, selectInstr, Instr.port]

/-- R56, R117: the Producer, scheduled next with an `SST` to issue, writes the slot. -/
theorem step_sst {index data : Word} {rest : List Command} {agents : List Agent} (hinv : Inv s)
    (hsc : s.cfg.memOrder = .sc) (ht : s.cfg.sampleTearing = false) (hi : index.toNat < Config.C)
    (hs : s.sched = .producer :: agents) (hp : s.pIn = encode (.sst index data) :: rest) :
    step s = .next { s with
      sched := agents
      pIn := rest
      sample := memSet (sampleErased s.cfg) index.toNat data s.sample
      pOut := { ok := true, data := 0 } :: s.pOut } := by
  have hf := inflight_none_of_whole hinv ht
  have haccepts : { s with sched := agents, pIn := rest }.accepts .pPort = true :=
    (accepts_pPort_iff _).2 ⟨hinv.constructed, hf⟩
  calc step s
      = exec (.sst index data) { s with sched := agents, pIn := rest } :=
        (stepRunsTheDecodedCommand s _ _ rest _ hinv.constructed).1 (nextAgent_listed hs) hf hp (decode_encode_sst ..)
    _ = .next (storeSample index.toNat data { s with sched := agents, pIn := rest }) :=
        exec_sst_whole haccepts ht hi data
    _ = _ := by rw [storeSample, sampleWrite_sc (s := { s with sched := agents, pIn := rest }) hsc]; rfl

/-- R56, R141: the engine, scheduled next at micro-step `R`, copies the slot latched. -/
theorem step_microR {agents : List Agent} (hinv : Inv s) (hsc : s.cfg.memOrder = .sc) (hf : s.inflight = none)
    (hb : s.eBusy = true) (hp : s.ePhase = .r) (hs : s.sched = .engine :: agents) :
    step s = .next { s with
      sched := agents
      out := memSet none s.eI (s.sampleCell s.eIdx.toNat) s.out
      ePhase := .s } := by
  have hidx : s.eIdx.toNat < Config.C := hinv.busy_idx hb (by simp [hp])
  have hread : sampleRead .consumer s.eIdx.toNat { s with sched := agents } =
      (s.sampleCell s.eIdx.toNat, { s with sched := agents }) :=
    sampleRead_sc (s := { s with sched := agents }) hsc (marked_of_none hf _) .consumer
  calc step s
      = turn .engine { s with sched := agents } := step_of_nextAgent (nextAgent_listed hs)
    _ = microStep { s with sched := agents } := turn_engine_busy hinv.constructed hb
    _ = microR { s with sched := agents } := microStep_r hp
    _ = _ := microR_inRange (s := { s with sched := agents }) hidx (hinv.busy_iter hb)
    _ = _ := by rw [hread]; rfl

theorem run_two (h : step s = .next t) (h' : step t = .next u) : Host.Core.run Sys2Proof.core 2 s = .next u :=
  (run_next h).trans (run_next h')

/-- `sampleCell_write` at the slot written, for a sample array given by what the write makes of it. -/
theorem sampleCell_set_same (hsc : s.cfg.memOrder = .sc) (hwf : memWf (sampleErased s.cfg) Config.C s.sample = true)
    (k : Nat) (v : Word) : { s with sample := memSet (sampleErased s.cfg) k v s.sample }.sampleCell k = v := by
  rw [← sampleWrite_sc hsc .producer, sampleCell_write hwf, if_pos rfl]

/-- `outCell_write` at the slot written, for an output buffer given by what the write makes of it. -/
theorem outCell_set_same (hwf : memWf none Config.Q s.out = true) (k : Nat) (v : Word) :
    { s with out := memSet none k v s.out }.outCell k = v :=
  (outCell_write hwf k v k).trans (if_pos rfl)

/-- Settles O55: `step_sst` and `step_microR`, one after the other in both orders. -/
theorem slotRacesAdmitBothOrders : Obligations.SlotRacesAdmitBothOrders := by
  intro s v hinv hsc ht hf hb hp hpIn
  have hidx : s.eIdx.toNat < Config.C := hinv.busy_idx hb (by simp [hp])
  have hstored := sampleCell_set_same hsc hinv.sample_wf s.eIdx.toNat v
  have hcopied := outCell_set_same (s := s) hinv.out_wf s.eI
  have hscheduled : ∀ agents, Inv { s with sched := agents } := fun agents =>
    inv_environment hinv _ _ _ _ agents _ _
  have hread := step_microR (hscheduled [.engine, .producer]) hsc hf hb hp rfl
  have hread_sst := step_sst (inv_step (hscheduled _) hread) hsc ht hidx rfl hpIn
  have hsst := step_sst (hscheduled [.producer, .engine]) hsc ht hidx rfl hpIn
  have hsst_read := step_microR (inv_step (hscheduled _) hsst) hsc hf hb hp rfl
  refine ⟨_, _, run_two hread hread_sst, run_two hsst hsst_read, ?_, ?_, ?_, ?_⟩
  · exact hcopied _
  · exact (hcopied _).trans hstored
  · exact hstored
  · exact hstored

/-! ### Every turn but a second reset answers a next state -/

theorem reset_not_enabled (hc : s.constructed = true) : Agent.reset ∉ enabledAgents s := by
  simp only [enabledAgents, if_pos hc, List.mem_append]
  rintro ((h | h) | h) <;> split at h <;> simp at h

/-- R201: in a constructed block Reset moves only where the schedule lists it. -/
theorem nextAgent_reset (hc : s.constructed = true) (h : nextAgent s = some (.reset, u)) :
    ∃ rest, s.sched = .reset :: rest := by
  cases hs : s.sched with
  | nil => exact absurd (nextAgent_free_mem hs h) (reset_not_enabled hc)
  | cons b rest =>
    rw [nextAgent_listed hs] at h
    cases h
    exact ⟨rest, rfl⟩

theorem issue_completes {p : Port} (ha : s.accepts p = true) (w : Command) : ∃ t, issue p w s = .next t := by
  cases hd : decode p w with
  | rejected e => exact ⟨reject p s, by simp [issue, hd]⟩
  | command i =>
    rw [issue_command hd]
    exact exec_completes i ((decode_command hd).1 ▸ ha)

/-- R141, R180: in a state that meets the invariant every micro-step finds its slots. -/
theorem microStep_completes (hinv : Inv s) (hb : s.eBusy = true) : ∃ t, microStep s = .next t := by
  cases hp : s.ePhase with
  | l => exact ⟨_, microStep_l hp⟩
  | r => exact ⟨_, (microStep_r hp).trans (microR_inRange (hinv.busy_idx hb (by simp [hp])) (hinv.busy_iter hb))⟩
  | s => exact ⟨_, microStep_s hp⟩

theorem turn_completes {a : Agent} (hinv : Inv s) (ha : a ≠ .reset) : ∃ t, turn a s = .next t := by
  have hc := hinv.constructed
  cases a with
  | producer =>
    cases hf : s.inflight with
    | some e => exact ⟨_, turn_producer_ends hc hf⟩
    | none =>
      cases hp : s.pIn with
      | nil => exact ⟨_, turn_producer_passes hc hf hp⟩
      | cons w rest =>
        rw [turn_producer_issues hc hf hp]
        exact issue_completes (s := { s with pIn := rest }) ((accepts_pPort_iff _).2 ⟨hc, hf⟩) w
  | scheduler =>
    cases hb : s.eBusy with
    | true => exact ⟨_, turn_scheduler_waits hc hb⟩
    | false =>
      cases hp : s.sIn with
      | nil => exact ⟨_, turn_scheduler_passes hc hb hp⟩
      | cons w rest =>
        rw [turn_scheduler_issues hc hb hp]
        exact issue_completes (s := { s with sIn := rest }) ((accepts_sPort_iff _).2 ⟨hc, hb⟩) w
  | engine =>
    cases hb : s.eBusy with
    | false => exact ⟨_, turn_engine_passes hc hb⟩
    | true =>
      rw [turn_engine_busy hc hb]
      exact microStep_completes hinv hb
  | reset => exact absurd rfl ha

/-- From the invariant a step answers a next state, or the schedule lists a second reset, which is refused. -/
theorem step_completes_or_reset (hinv : Inv s) :
    (∃ t, step s = .next t) ∨ (step s = .refused .secondReset ∧ ∃ rest, s.sched = .reset :: rest) := by
  cases hn : nextAgent s with
  | none => exact .inl ⟨s, by simp [step, hn]⟩
  | some p =>
    obtain ⟨a, u⟩ := p
    rw [step_of_nextAgent hn]
    obtain ⟨sc, cs, d, rfl⟩ := nextAgent_frame hn
    have hu := inv_environment hinv s.pIn s.sIn s.pOut s.sOut sc cs d
    by_cases ha : a = .reset
    · subst ha
      exact .inr ⟨turn_reset_refused hu.constructed, nextAgent_reset hinv.constructed hn⟩
    · exact .inl (turn_completes hu ha)

/-- Settles O30: the one refusal is that of a second reset, which the schedule then lists. -/
theorem noStepFaultsOrSticks : Obligations.NoStepFaultsOrSticks := by
  intro s hinv
  obtain ⟨t, ht⟩ | ⟨hrefused, rest, hs⟩ := step_completes_or_reset hinv
  · exact ⟨fun f hf => (nomatch ht.symm.trans hf), fun _ => ⟨t, ht⟩⟩
  · exact ⟨fun f hf => (nomatch hrefused.symm.trans hf), fun hno => absurd hs (hno rest)⟩

/-! ### A run in any environment -/

theorem nextAgent_sched {a : Agent} (h : nextAgent s = some (a, u)) : u.sched ⊆ s.sched := by
  cases hs : s.sched with
  | nil =>
    cases he : enabledAgents s with
    | nil => rw [nextAgent_idle hs he] at h; cases h
    | cons b more =>
      rw [nextAgent_free hs he] at h
      cases h
      simp [hs]
  | cons b rest =>
    rw [nextAgent_listed hs] at h
    cases h
    exact List.subset_cons_self ..

@[simp] theorem microL_sched (s : State) : (microL s).sched = s.sched := by simp [microL]
@[simp] theorem microS_sched (s : State) : (microS s).sched = s.sched := by unfold microS; split <;> simp

theorem execResult_sched {i : Instr} (hx : ExecResult s i t) : t.sched = s.sched := by
  cases hx <;> simp [storeSample, reject]

/-- Taking a turn leaves the schedule of the turns after it. -/
theorem turnResult_sched {a : Agent} (hr : TurnResult s a t) : t.sched = s.sched := by
  cases hr with
  | pCommand _ _ _ _ hx => exact (execResult_sched hx :)
  | sCommand _ _ _ _ hx => exact (execResult_sched hx :)
  | construct => rfl
  | _ => simp [endSst, storeSample, reject]

/-- A step lists no turn that was not listed. -/
theorem step_sched (h : step s = .next t) : t.sched ⊆ s.sched := by
  cases hn : nextAgent s with
  | none =>
    simp only [step, hn] at h
    cases h
    exact List.Subset.refl _
  | some p =>
    obtain ⟨a, u⟩ := p
    rw [step_of_nextAgent hn] at h
    rw [turnResult_sched (turn_cases h)]
    exact nextAgent_sched hn

/-- A state from which the machine goes on for ever: the invariant holds and no second reset is scheduled (R201). -/
structure Runnable (s : State) : Prop where
  inv : Inv s
  no_reset : .reset ∉ s.sched

namespace Runnable

theorem after_supply {m : Moves} (h : Runnable s) (hm : .reset ∉ m.sched) : Runnable (supply m s) where
  inv := inv_supply h.inv m
  no_reset := fun hr => (List.mem_append.1 hr).elim h.no_reset hm

theorem step_next (h : Runnable s) : ∃ t, step s = .next t :=
  (step_completes_or_reset h.inv).resolve_right fun ⟨_, _, hs⟩ => h.no_reset (by simp [hs])

theorem after_step (h : Runnable s) (hs : step s = .next t) : Runnable t where
  inv := inv_step h.inv hs
  no_reset := fun hr => h.no_reset (step_sched hs hr)

end Runnable

/-- The state a step answers; the state itself where the step answers none. -/
def stepOrStay (s : State) : State :=
  match step s with
  | .next t => t
  | .fault _ => s
  | .refused _ => s

theorem step_eq_stepOrStay (h : step s = .next t) : step s = .next (stepOrStay s) := by
  simp only [stepOrStay, h]

/-- The run from `s` in the environment that adds `m n` before step `n`. -/
def runIn (m : Nat → Moves) (s : State) : Nat → State
  | 0 => s
  | n + 1 => stepOrStay (supply (m n) (runIn m s n))

section
variable {m : Nat → Moves}

/-- Each step of `runIn` is a step of the machine, as far as it has come to runnable states. -/
theorem runIn_step (hm : ∀ n, .reset ∉ (m n).sched) {n : Nat} (h : Runnable (runIn m s n)) :
    step (supply (m n) (runIn m s n)) = .next (runIn m s (n + 1)) := by
  obtain ⟨t, ht⟩ := (h.after_supply (hm n)).step_next
  exact step_eq_stepOrStay ht

theorem runIn_runnable (h : Runnable s) (hm : ∀ n, .reset ∉ (m n).sched) (n : Nat) : Runnable (runIn m s n) := by
  induction n with
  | zero => exact h
  | succ n ih => exact (ih.after_supply (hm n)).after_step (runIn_step hm ih)

end

/-- Settles O60: `runIn` is the run, and `Runnable` holds along it. -/
theorem everyEnvironmentHasARun : Obligations.EveryEnvironmentHasARun :=
  fun s m hinv hs hm => ⟨runIn m s, rfl, fun n => runIn_step hm (runIn_runnable ⟨hinv, hs⟩ hm n)⟩

end Sys2Proof.Machine
end

section
/-! SUPPORT. The encoding statements (spec/30_encoding.md): when a word decodes to a command, the round trip, what each port
admits and rejects, the word that is fetched next, and the expansion of `PUSH`. -/

namespace Sys2Proof.Machine

variable {s : State} {p : Port} {w : Command} {i : Instr}

/-! ### A command word by its fields -/

@[simp] theorem op_encode (i : Instr) : Command.op (encode i) = i.opcode := (Laws.EncodesOpcode.fields_of_append ..).1
@[simp] theorem index_encode (i : Instr) : Command.index (encode i) = i.fields.1 :=
  (Laws.EncodesOpcode.fields_of_append ..).2.1
@[simp] theorem data_encode (i : Instr) : Command.data (encode i) = i.fields.2 :=
  (Laws.EncodesOpcode.fields_of_append ..).2.2

/-- R81, R87: the operand fields of a word as a format uses them, zeros where it does not. -/
def usedFields (w : Command) : Format → Word × Word
  | .z => (0, 0)
  | .x => (Command.index w, 0)
  | .xd => (Command.index w, Command.data w)

theorem and_usedBits_eq (f : Format) (w : Command) :
    w &&& usedBits f = Command.op w ++ (usedFields w f).1 ++ (usedFields w f).2 := by
  rw [command_and_usedBits]
  cases f <;> rfl

/-- Command words are equal exactly when their three fields are. -/
theorem command_append_inj {a b : BitVec 8} {x y : Word × Word} :
    a ++ x.1 ++ x.2 = b ++ y.1 ++ y.2 ↔ a = b ∧ x = y := by
  constructor
  · intro h
    obtain ⟨ha, hx, hd⟩ := Laws.EncodesOpcode.fields_of_append a x.1 x.2
    obtain ⟨hb, hy, he⟩ := Laws.EncodesOpcode.fields_of_append b y.1 y.2
    rw [h] at ha hx hd
    exact ⟨ha.symm.trans hb, Prod.ext (hx.symm.trans hy) (hd.symm.trans he)⟩
  · rintro ⟨rfl, rfl⟩
    rfl

theorem encode_eq_and_usedBits_iff {f : Format} :
    encode i = w &&& usedBits f ↔ i.opcode = Command.op w ∧ i.fields = usedFields w f := by
  rw [and_usedBits_eq]
  exact command_append_inj

/-- The opcode map selects from a word the command with the word's opcode and the operand fields that its format uses. -/
theorem selectInstr_iff :
    selectInstr (Command.op w).toNat (Command.index w).toNat (Command.data w).toNat = some i ↔
      i.opcode = Command.op w ∧ i.fields = usedFields w i.format := by
  constructor
  · intro h
    obtain ⟨hop, hfields⟩ := selectInstr_some h
    refine ⟨BitVec.eq_of_toNat_eq hop, hfields.trans ?_⟩
    cases i.format <;> simp [usedFields]
  · rintro ⟨hop, hfields⟩
    rw [← hop]
    clear hop
    cases i <;> simp_all [Instr.fields, Instr.format, usedFields, Instr.opcode, selectInstr]

/-! ### The decoder and the encoder -/

/-- R85, R89: the opcode map alone selects the command, and the port only admits it or not. -/
theorem decode_of_selectInstr
    (h : selectInstr (Command.op w).toNat (Command.index w).toNat (Command.data w).toNat = some i) (p : Port) :
    decode p w = if p = i.port then .command i else .rejected (.wrongPort (Command.op w)) := by
  unfold decode
  rw [h]
  simp only [eq_comm]

/-- A port decodes a word to exactly the command of that port whose encoded word is the word's used bits. -/
theorem decode_eq_command_iff :
    decode p w = .command i ↔ p = i.port ∧ encode i = w &&& usedBits i.format := by
  rw [encode_eq_and_usedBits_iff, ← selectInstr_iff]
  constructor
  · exact decode_command
  · rintro ⟨hp, hs⟩
    rw [decode_of_selectInstr hs, if_pos hp]

/-- R87: the encoder writes zeros in the fields a format does not use. -/
theorem fields_eq_usedFields_encode (i : Instr) : i.fields = usedFields (encode i) i.format := by
  cases i <;> simp [usedFields, Instr.format, Instr.fields]

/-- Settles O1: the opcode map selects the command from its encoded word, and the port is compared with the command's. -/
theorem decodeOfEncode : Obligations.DecodeOfEncode := by
  intro i p
  have hselect := selectInstr_iff.2 ⟨(op_encode i).symm, fields_eq_usedFields_encode i⟩
  rw [decode_of_selectInstr hselect, op_encode]

/-- Settles O2, the one direction of `decode_eq_command_iff`. -/
theorem encodeOfDecode : Obligations.EncodeOfDecode :=
  fun _ _ _ h => decode_eq_command_iff.1 h

theorem decode_encode (i : Instr) : decode i.port (encode i) = .command i := by
  rw [decodeOfEncode, if_pos rfl]

/-- Settles O3: only the used bits of a word decide what it decodes to, and those of an encoded word are the word. -/
theorem unusedFieldsAreIgnored : Obligations.UnusedFieldsAreIgnored := by
  constructor
  · intro p v w i hv hvw
    obtain ⟨hp, hbits⟩ := decode_eq_command_iff.1 hv
    exact decode_eq_command_iff.2 ⟨hp, hbits.trans hvw⟩
  · intro i
    exact (encodeOfDecode _ _ _ (decode_encode i)).2.symm

/-! ### What each port admits -/

theorem decodes_iff_opcode : (∃ i, decode p w = .command i) ↔ ∃ i : Instr, i.port = p ∧ i.opcode = Command.op w := by
  constructor
  · rintro ⟨i, hd⟩
    obtain ⟨hp, hs⟩ := decode_command hd
    exact ⟨i, hp.symm, (selectInstr_iff.1 hs).1⟩
  · rintro ⟨i, rfl, hop⟩
    obtain ⟨j, hs, hj⟩ := selectInstr_opcode i (Command.index w).toNat (Command.data w).toNat
    rw [hop] at hs
    exact ⟨j, by rw [decode_of_selectInstr hs, if_pos hj.symm]⟩

/-- R85: the opcodes of the P-port's commands. -/
theorem pPort_opcode_iff (op : BitVec 8) :
    (∃ i : Instr, i.port = .pPort ∧ i.opcode = op) ↔ 0x01 ≤ op.toNat ∧ op.toNat ≤ 0x06 := by
  constructor
  · rintro ⟨i, hp, rfl⟩
    cases i with
    | drain | outld => cases hp
    | _ => simp [Instr.opcode]
  · rintro ⟨h1, h6⟩
    have hcases : op.toNat = 1 ∨ op.toNat = 2 ∨ op.toNat = 3 ∨ op.toNat = 4 ∨ op.toNat = 5 ∨ op.toNat = 6 := by omega
    rcases hcases with h | h | h | h | h | h
    · exact ⟨.rcld, rfl, BitVec.eq_of_toNat_eq h.symm⟩
    · exact ⟨.rcst 0, rfl, BitVec.eq_of_toNat_eq h.symm⟩
    · exact ⟨.wcld, rfl, BitVec.eq_of_toNat_eq h.symm⟩
    · exact ⟨.wcst 0, rfl, BitVec.eq_of_toNat_eq h.symm⟩
    · exact ⟨.sld 0, rfl, BitVec.eq_of_toNat_eq h.symm⟩
    · exact ⟨.sst 0 0, rfl, BitVec.eq_of_toNat_eq h.symm⟩

/-- R85: the opcodes of the S-port's commands. -/
theorem sPort_opcode_iff (op : BitVec 8) :
    (∃ i : Instr, i.port = .sPort ∧ i.opcode = op) ↔ op.toNat = 0x10 ∨ op.toNat = 0x11 := by
  constructor
  · rintro ⟨i, hp, rfl⟩
    cases i with
    | drain => exact .inl rfl
    | outld => exact .inr rfl
    | _ => cases hp
  · rintro (h | h)
    · exact ⟨.drain, rfl, BitVec.eq_of_toNat_eq h.symm⟩
    · exact ⟨.outld 0, rfl, BitVec.eq_of_toNat_eq h.symm⟩

/-- Settles O4: a port decodes a word exactly when some command of the port has its opcode. -/
theorem portsAdmitExactlyTheirOpcodes : Obligations.PortsAdmitExactlyTheirOpcodes :=
  fun _ => ⟨decodes_iff_opcode.trans (pPort_opcode_iff _), decodes_iff_opcode.trans (sPort_opcode_iff _)⟩

/-- R86: a word that decodes to no command is rejected. -/
theorem issue_undecodable (h : ¬∃ i, decode p w = .command i) (s : State) : issue p w s = .next (reject p s) := by
  unfold issue
  cases hd : decode p w with
  | command i => exact absurd ⟨i, hd⟩ h
  | rejected e => rfl

/-- Settles O5: the listed agent issues the word, which its port does not admit. -/
theorem illegalWordsAreRejected : Obligations.IllegalWordsAreRejected := by
  intro s w rest agents hc
  constructor
  · intro hsched hf hin hop
    have hillegal := mt (portsAdmitExactlyTheirOpcodes w).1.mp hop
    rw [step_of_nextAgent (nextAgent_listed hsched)]
    exact (turn_producer_issues (s := { s with sched := agents }) hc hf hin).trans (issue_undecodable hillegal _)
  · intro hsched hb hin hop
    have hillegal := mt (portsAdmitExactlyTheirOpcodes w).2.mp hop
    rw [step_of_nextAgent (nextAgent_listed hsched)]
    exact (turn_scheduler_issues (s := { s with sched := agents }) hc hb hin).trans (issue_undecodable hillegal _)

/-- Settles O6, by running the decoder on the ten words. -/
theorem wordsOfTheSpecDecode : Obligations.WordsOfTheSpecDecode := by
  unfold Obligations.WordsOfTheSpecDecode
  decide

/-! ### The word that is fetched next -/

theorem portOf_encode (i : Instr) : portOf (encode i) = i.port := by
  unfold portOf
  rw [decodeOfEncode]
  cases i <;> rfl

theorem withFetchWord_encode (s : State) (i : Instr) :
    s.withFetchWord 72 (encode i).toNat = placeCommand (encode i) s := by
  rw [State.withFetchWord, Nat.mod_eq_of_lt (encode i).isLt, BitVec.ofNat_toNat, BitVec.setWidth_eq]

/-- Settles O8: the word goes to the command's own port, whose agent issues it next. -/
theorem fetchWordIsPerformedNext : Obligations.FetchWordIsPerformedNext := by
  intro s i
  have hd := decode_encode i
  rw [withFetchWord_encode, placeCommand, portOf_encode]
  cases hp : i.port with
  | pPort =>
    rw [hp] at hd
    rw [step_of_nextAgent (nextAgent_listed rfl)]
    exact (turn_producer_issues rfl rfl rfl).trans (issue_command hd _)
  | sPort =>
    rw [hp] at hd
    rw [step_of_nextAgent (nextAgent_listed rfl)]
    exact (turn_scheduler_issues rfl rfl rfl).trans (issue_command hd _)

/-! ### `PUSH` -/

section
variable {names : AsmNames}

theorem word_lit (v : Word) : (AsmExpr.lit v.toNat).word names = some v := by
  simpa using word_of_eval (names := names) (e := .lit v.toNat) v.isLt rfl

theorem word_name {n : String} {v : Word} (h : lookupName n names = some v) : (AsmExpr.name n).word names = some v := by
  simpa using word_of_eval (names := names) (e := .name n) v.isLt (by simp [AsmExpr.eval, h])

/-- R119: the operand `(n + 1) mod C` is the advance of the value of `n`. -/
theorem word_advance {n : String} {v : Word} (h : lookupName n names = some v) :
    (AsmExpr.mod (.add (.name n) (.lit 1)) .capacity).word names = some (nextIndex v) := by
  have heval : (AsmExpr.mod (.add (.name n) (.lit 1)) .capacity).eval names =
      some (((v.toNat + 1) % Config.C : Nat) : Int) := by
    have hsum : (0 : Int) ≤ v.toNat + 1 := by omega
    simp [AsmExpr.eval, h, hsum]
  exact word_of_eval ((Nat.mod_lt _ (by decide)).trans (by decide)) heval

end

/-- Settles O58: each operand of the three lines has the value of its expression. -/
theorem pushExpandsToThreeCommands : Obligations.PushExpandsToThreeCommands := by
  intro names w v _ hw
  simp [expandLine, AsmOp.instr, word_lit, word_name hw, word_advance hw]

end Sys2Proof.Machine
end

section
/-! SUPPORT. The statements of the P-port commands (spec/40_ring_buffer_primitives.md): what each one answers, the advance of
an index, and the one reset. -/

namespace Sys2Proof.Machine

variable {s : State}

/-! ### The operations of the six commands under `sc`, each with its response -/

/-- R82, R112, R114: a cursor load and the response that carries the value. -/
theorem respond_atomicLoad_sc (hsc : s.cfg.memOrder = .sc) (a : Ctx) (c : Cursor) :
    respond .pPort (performed (atomicLoad a c s).1) (atomicLoad a c s).2 =
      { s with pOut := { ok := true, data := s.cursor c } :: s.pOut } := by
  rw [atomicLoad_sc hsc]
  rfl

/-- R82, R116: a sample read and the response that carries the word. -/
theorem respond_sampleRead_sc (hsc : s.cfg.memOrder = .sc) (hf : s.inflight = none) (a : Ctx) (k : Nat) :
    respond .pPort (performed (sampleRead a k s).1) (sampleRead a k s).2 =
      { s with pOut := { ok := true, data := s.sampleCell k } :: s.pOut } := by
  rw [sampleRead_sc hsc (marked_of_none hf k)]
  rfl

theorem respond_atomicStore_sc (hsc : s.cfg.memOrder = .sc) (a : Ctx) (c : Cursor) (v : Word) :
    respond .pPort (performed 0) (atomicStore a c v s) =
      { s.setCursor c v with pOut := { ok := true, data := 0 } :: s.pOut } := by
  rw [atomicStore_sc hsc]
  cases c <;> rfl

theorem storeSample_sc (hsc : s.cfg.memOrder = .sc) (k : Nat) (data : Word) :
    storeSample k data s = { s with
      sample := memSet (sampleErased s.cfg) k data s.sample
      pOut := { ok := true, data := 0 } :: s.pOut } := by
  rw [storeSample, sampleWrite_sc hsc]
  rfl

/-! ### The six commands, performed -/

/-- Settles O10: `RCLD` is a load of `RCUR` with its response. -/
theorem rcldLoadsTheReadCursor : Obligations.RcldLoadsTheReadCursor := fun _ ha hsc =>
  (exec_of_result ha .rcld).trans (congrArg _ (respond_atomicLoad_sc hsc ..))

/-- Settles O12: `WCLD` is a load of `WCUR` with its response. -/
theorem wcldLoadsTheWriteCursor : Obligations.WcldLoadsTheWriteCursor := fun _ ha hsc =>
  (exec_of_result ha .wcld).trans (congrArg _ (respond_atomicLoad_sc hsc ..))

/-- Settles O11: `RCST` is a store of `RCUR` with its response. -/
theorem rcstStoresTheReadCursor : Obligations.RcstStoresTheReadCursor := fun _ _ ha hsc hi =>
  (exec_of_result ha (.rcst hi)).trans (congrArg _ (respond_atomicStore_sc hsc ..))

/-- Settles O13: `WCST` is a store of `WCUR` with its response. -/
theorem wcstStoresTheWriteCursor : Obligations.WcstStoresTheWriteCursor := fun _ _ ha hsc hi =>
  (exec_of_result ha (.wcst hi)).trans (congrArg _ (respond_atomicStore_sc hsc ..))

/-- Settles O14: the port accepts, so no `SST` is in flight and the slot read is not marked. -/
theorem sldReadsTheSlot : Obligations.SldReadsTheSlot := by
  intro s index ha hsc hi
  have hf : s.inflight = none := ((accepts_pPort_iff s).1 ha).2
  exact (exec_of_result ha (.sld hi)).trans (congrArg _ (respond_sampleRead_sc hsc hf ..))

/-- Settles O15: the new array is the sample write's, which changes the one slot. -/
theorem sstWritesTheSlot : Obligations.SstWritesTheSlot := by
  intro s index data ha hsc ht hwf hi
  refine ⟨memSet (sampleErased s.cfg) index.toNat data s.sample, ?exec, fun k => ?slot⟩
  case exec => rw [exec_sst_whole ha ht hi, storeSample_sc hsc]
  case slot =>
    rw [← sampleWrite_sc hsc .producer]
    exact sampleCell_write hwf .producer index.toNat data k

/-! ### The four commands with an index, rejected -/

/-- R118, R148: a command with an illegal operand on a port that accepts it is rejected. -/
theorem exec_rejects {i : Instr} (ha : s.accepts i.port = true) (hi : i.wellFormed = false) :
    exec i s = .next (reject i.port s) :=
  exec_of_result ha (.rejected hi)

/-- Settles O19: an index at or above `C` is no legal operand of any of the four. -/
theorem operandsOutOfRangeAreRejected : Obligations.OperandsOutOfRangeAreRejected := by
  intro s index data hi ha
  have hill : decide (index.toNat < Config.C) = false := decide_eq_false (Nat.not_lt.2 hi)
  exact ⟨exec_rejects (i := .rcst index) ha hill, exec_rejects (i := .wcst index) ha hill,
    exec_rejects (i := .sld index) ha hill, exec_rejects (i := .sst index data) ha hill⟩

/-! ### The advance of an index -/

/-- R120: `n` advances add `n` modulo `C`. -/
theorem iterate_nextIndex_toNat {v : Word} (hv : v.toNat < Config.C) (n : Nat) :
    (nextIndex^[n] v).toNat = (v.toNat + n) % Config.C := by
  induction n with
  | zero => exact (Nat.mod_eq_of_lt hv).symm
  | succ n ih => rw [Function.iterate_succ_apply', nextIndex_toNat, ih, Nat.mod_add_mod, Nat.add_assoc]

/-- R120: adding a positive count below `C` moves every index. -/
theorem add_mod_capacity_ne {v n : Nat} (hn : 0 < n) (hnC : n < Config.C) :
    (v + n) % Config.C ≠ v := by
  unfold Config.C at *
  omega

/-- R119: the sum in the integers wraps at `C - 1` alone. -/
theorem succ_mod_capacity {v : Nat} (hv : v < Config.C) :
    (v + 1) % Config.C = if v = Config.C - 1 then 0 else v + 1 := by
  unfold Config.C at *
  split <;> omega

/-- Settles O42: the laws of addition modulo `C`, carried over by `iterate_nextIndex_toNat`. -/
theorem nextIsACyclicShift : Obligations.NextIsACyclicShift := by
  intro v hv
  have hiter := iterate_nextIndex_toNat hv
  refine ⟨nextIndex_lt v, (nextIndex_toNat v).trans (succ_mod_capacity hv), hiter, ?period, fun n hn hnC heq => ?least⟩
  case period =>
    refine BitVec.eq_of_toNat_eq ((hiter Config.C).trans ?_)
    rw [Nat.add_mod_right, Nat.mod_eq_of_lt hv]
  case least => exact add_mod_capacity_ne hn hnC ((hiter n).symm.trans (congrArg BitVec.toNat heq))

/-! ### The one reset -/

/-- Settles O32: the listed agent's turn is the step, and it is refused. -/
theorem resetHappensOnceAndFirst : Obligations.ResetHappensOnceAndFirst := by
  intro s a rest hs
  have hstep : step s = turn a { s with sched := rest } := step_of_nextAgent (nextAgent_listed hs)
  refine ⟨fun hc ha => ?second, fun hc ha => ?early⟩
  case second =>
    subst ha
    exact hstep.trans (turn_reset_refused hc)
  case early => exact hstep.trans (turn_before_construct hc ha)

end Sys2Proof.Machine
end

section
/-! SUPPORT. The statements of the consumer drain (spec/41_consumer_drain.md): the two S-port commands, the three micro-steps,
and how many of them a drain has still to take (R147), along a silent run and along a fair one. -/

namespace Sys2Proof.Machine

variable {s t u : State}

/-! ### The two S-port commands -/

/-- Settles O17: the result of a `DRAIN` is the started sequencer. -/
theorem drainStartsTheEngine : Obligations.DrainStartsTheEngine := fun _ ha => exec_of_result ha .drain

/-- Settles O18: an index at or above `Q` is no legal operand of `OUTLD`. -/
theorem outldReadsTheOutputSlot : Obligations.OutldReadsTheOutputSlot := by
  intro s index ha
  refine ⟨fun hi => ?performed, fun hi => ?rejected⟩
  case performed => exact exec_of_result ha (.outld hi)
  case rejected => exact exec_rejects (i := .outld index) ha (decide_eq_false (Nat.not_lt.2 hi))

/-! ### The three micro-steps -/

theorem turn_engine_microL (hc : s.constructed = true) (hb : s.eBusy = true) (hp : s.ePhase = .l) :
    turn .engine s = .next (microL s) :=
  (turn_engine_busy hc hb).trans (microStep_l hp)

theorem turn_engine_microR (hc : s.constructed = true) (hb : s.eBusy = true) (hp : s.ePhase = .r)
    (hx : s.eIdx.toNat < Config.C) (hi : s.eI < Config.Q) :
    turn .engine s =
      .next { outWrite s.eI (sampleRead .consumer s.eIdx.toNat s).1 (sampleRead .consumer s.eIdx.toNat s).2 with
        ePhase := .s } :=
  (turn_engine_busy hc hb).trans ((microStep_r hp).trans (microR_inRange hx hi))

theorem turn_engine_microS (hc : s.constructed = true) (hb : s.eBusy = true) (hp : s.ePhase = .s) :
    turn .engine s = .next (microS s) :=
  (turn_engine_busy hc hb).trans (microStep_s hp)

/-- Settles O21: each micro-step by its own equation under `sc`. -/
theorem engineTakesTheThreeMicroSteps : Obligations.EngineTakesTheThreeMicroSteps := by
  intro s hc hsc
  refine ⟨turn_engine_passes hc, fun hb hp => ?l, fun hb hp hx hi hm => ?r, fun hb hp hi => ?next,
    fun hb hp hi => ?last⟩
  case l => rw [turn_engine_microL hc hb hp, microL_sc hsc]
  case r =>
    rw [turn_engine_microR hc hb hp hx hi, sampleRead_sc hsc hm]
    rfl
  case next => rw [turn_engine_microS hc hb hp, microS_sc_next hsc hi]
  case last =>
    rw [turn_engine_microS hc hb hp, microS_sc_last hsc hi]
    rfl

/-! ### The micro-steps left -/

theorem microStepsLeft_l (hb : s.eBusy = true) (hp : s.ePhase = .l) :
    microStepsLeft s = 3 * (Config.Q - s.eI) := by simp [microStepsLeft, hb, hp]

theorem microStepsLeft_r (hb : s.eBusy = true) (hp : s.ePhase = .r) :
    microStepsLeft s = 3 * (Config.Q - s.eI) - 1 := by simp [microStepsLeft, hb, hp]

theorem microStepsLeft_s (hb : s.eBusy = true) (hp : s.ePhase = .s) :
    microStepsLeft s = 3 * (Config.Q - s.eI) - 2 := by simp [microStepsLeft, hb, hp]

theorem microStepsLeft_idle (hb : s.eBusy = false) : microStepsLeft s = 0 := by simp [microStepsLeft, hb]

/-- The sequencer alone says how many micro-steps are left. -/
theorem microStepsLeft_congr (hb : t.eBusy = s.eBusy) (hi : t.eI = s.eI) (hp : t.ePhase = s.ePhase) :
    microStepsLeft t = microStepsLeft s := by
  simp only [microStepsLeft, hb, hi, hp]

theorem microStepsLeft_pos (hinv : Inv s) (hb : s.eBusy = true) : 0 < microStepsLeft s := by
  have hi := hinv.busy_iter hb
  cases hp : s.ePhase with
  | l => rw [microStepsLeft_l hb hp]; omega
  | r => rw [microStepsLeft_r hb hp]; omega
  | s => rw [microStepsLeft_s hb hp]; omega

/-- A drain is in progress as long as a micro-step is left. -/
theorem busy_of_microStepsLeft (h : 0 < microStepsLeft s) : s.eBusy = true :=
  Bool.of_not_eq_false fun hb => Nat.ne_of_gt h (microStepsLeft_idle hb)

theorem microL_counts (hb : s.eBusy = true) (hp : s.ePhase = .l) (hi : s.eI < Config.Q) :
    microStepsLeft (microL s) + 1 = microStepsLeft s := by
  have heI : (microL s).eI = s.eI := by simp [microL]
  rw [microStepsLeft_r ((microL_eBusy s).trans hb) rfl, microStepsLeft_l hb hp, heI]
  omega

theorem microR_counts (hb : s.eBusy = true) (hp : s.ePhase = .r) (hi : s.eI < Config.Q) (k : Nat) (v : Word) :
    microStepsLeft { outWrite s.eI v (sampleRead .consumer k s).2 with ePhase := .s } + 1 = microStepsLeft s := by
  rw [microStepsLeft_s (by simpa using hb) rfl, microStepsLeft_r hb hp]
  simp only [outWrite_eI, sampleRead_eI]
  omega

/-- Micro-step `S` of the last iteration leaves no micro-step, any other the iterations after it. -/
theorem microS_counts (hb : s.eBusy = true) (hp : s.ePhase = .s) (hi : s.eI < Config.Q) :
    microStepsLeft (microS s) + 1 = microStepsLeft s := by
  rw [microStepsLeft_s hb hp, microS]
  dsimp only
  split
  · next hlast =>
    rw [microStepsLeft_idle (respond_eBusy ..)]
    omega
  · rw [microStepsLeft_l (by simpa using hb) rfl]
    dsimp only
    omega

/-- R147: the engine's turn during a drain takes one of the micro-steps left. -/
theorem turn_engine_counts (hinv : Inv s) (hb : s.eBusy = true) :
    ∃ t, turn .engine s = .next t ∧ microStepsLeft t + 1 = microStepsLeft s := by
  have hc := hinv.constructed
  have hi := hinv.busy_iter hb
  cases hp : s.ePhase with
  | l => exact ⟨_, turn_engine_microL hc hb hp, microL_counts hb hp hi⟩
  | r =>
    have hx := hinv.busy_idx hb (by simp [hp])
    exact ⟨_, turn_engine_microR hc hb hp hx hi, microR_counts hb hp hi _ _⟩
  | s => exact ⟨_, turn_engine_microS hc hb hp, microS_counts hb hp hi⟩

/-- R147: no other agent's turn takes one. -/
theorem turn_other_counts {a : Agent} (hc : s.constructed = true) (hb : s.eBusy = true) (ha : a ≠ .engine)
    (h : turn a s = .next t) : microStepsLeft t = microStepsLeft s := by
  cases a with
  | producer =>
    have hkept := turnResult_producer_kept (turn_cases h)
    exact microStepsLeft_congr hkept.eBusy hkept.eI hkept.ePhase
  | scheduler => rw [turnResult_scheduler_busy (turn_cases h) hb]
  | engine => exact absurd rfl ha
  | reset => exact nomatch (turn_reset_refused hc).symm.trans h

/-- Settles O23: the count at `DRAIN`, and what each agent's turn does to it. -/
theorem drainTakesExactlyItsMicroSteps : Obligations.DrainTakesExactlyItsMicroSteps := by
  refine ⟨fun s t ha hx => ?start, fun s hinv hb => ⟨turn_engine_counts hinv hb, fun a t ha h => ?others, ?pos⟩⟩
  case start =>
    cases (drainStartsTheEngine s ha).symm.trans hx
    exact microStepsLeft_l rfl rfl
  case others => exact turn_other_counts hinv.constructed hb ha h
  case pos => exact microStepsLeft_pos hinv hb

/-! ### A drain with the other agents silent -/

/-- Nothing is scheduled, and the Producer has nothing to do. -/
structure Silent (s : State) : Prop where
  sched : s.sched = []
  pIn : s.pIn = []
  inflight : s.inflight = none

/-- With nothing to do for the Producer and a command to come on an idle S-port, the Scheduler is the one agent enabled. -/
theorem Silent.nextAgent_scheduler (h : Silent s) (hc : s.constructed = true) (hb : s.eBusy = false)
    (hp : s.sIn ≠ []) : nextAgent s = some (.scheduler, s) :=
  nextAgent_single h.sched (by simp [enabledAgents, hc, hb, h.pIn, h.inflight, hp])

/-- During a drain with nothing to do for the Producer the engine is the one agent enabled. -/
theorem Silent.step_engine (h : Silent s) (hc : s.constructed = true) (hb : s.eBusy = true) :
    step s = turn .engine s :=
  step_of_nextAgent (nextAgent_single h.sched (by simp [enabledAgents, hc, hb, h.pIn, h.inflight]))

/-- `t` has what a drain leaves of `s` (R149): `WCUR`, the samples, the P-port's responses and the commands to come on the
S-port; and the other agents are still silent in it. -/
structure DrainKept (s t : State) : Prop where
  silent : Silent t
  wcur : t.wcur = s.wcur
  sample : t.sample = s.sample
  pOut : t.pOut = s.pOut
  sIn : t.sIn = s.sIn

theorem DrainKept.after_engine (h : DrainKept s u) (ht : turn .engine u = .next t) : DrainKept s t := by
  obtain ⟨-, -, hwcur, hsample, hinflight, hpIn, hsIn, hpOut, hsched, -⟩ := engineWritesOnlyItsOwn u t ht
  exact {
    silent := ⟨hsched.trans h.silent.sched, hpIn.trans h.silent.pIn, hinflight.trans h.silent.inflight⟩
    wcur := hwcur.trans h.wcur
    sample := hsample.trans h.sample
    pOut := hpOut.trans h.pOut
    sIn := hsIn.trans h.sIn }

/-- `u` is a state of a drain in progress that began in `s`, the other agents silent. -/
structure SilentDrain (s u : State) : Prop where
  inv : Inv u
  progress : DrainFrom s.rcur.toNat s.sampleCell u
  kept : DrainKept s u
  sOut : u.sOut = s.sOut

/-- `t` is the state in which a drain that began in `s`, the other agents silent, responds. -/
structure SilentDrainDone (s t : State) : Prop where
  done : DrainDone s.rcur.toNat s.sampleCell t
  kept : DrainKept s t
  sOut : t.sOut = { ok := true, data := 1 } :: s.sOut

namespace SilentDrain

theorem left_pos (h : SilentDrain s u) : 0 < microStepsLeft u := microStepsLeft_pos h.inv h.progress.busy

/-- A step of a silent drain is a micro-step, and the drain goes on or responds. -/
theorem step_next (h : SilentDrain s u) :
    ∃ t, step u = .next t ∧ microStepsLeft t + 1 = microStepsLeft u ∧ (SilentDrain s t ∨ SilentDrainDone s t) := by
  obtain ⟨t, ht, hleft⟩ := turn_engine_counts h.inv h.progress.busy
  have hstep : step u = .next t := (h.kept.silent.step_engine h.inv.constructed h.progress.busy).trans ht
  have hkept := h.kept.after_engine ht
  obtain hprogress | ⟨hdone, hresp⟩ := h.progress.after_step h.inv hstep
  · have hsOut : t.sOut = u.sOut := by simpa [hprogress.busy] using turnResult_engine_sOut (turn_cases ht)
    exact ⟨t, hstep, hleft, .inl ⟨inv_step h.inv hstep, hprogress, hkept, hsOut.trans h.sOut⟩⟩
  · exact ⟨t, hstep, hleft, .inr ⟨hdone, hkept, hresp.trans (by rw [h.sOut])⟩⟩

/-- As long as a micro-step is left the drain goes on. -/
theorem run (n : Nat) (h : SilentDrain s u) (hn : n < microStepsLeft u) :
    ∃ v, Host.Core.run Sys2Proof.core n u = .next v ∧ SilentDrain s v ∧ microStepsLeft v + n = microStepsLeft u := by
  induction n generalizing u with
  | zero => exact ⟨u, rfl, h, rfl⟩
  | succ n ih =>
    obtain ⟨t, hstep, hleft, hgoes | hdone⟩ := h.step_next
    · obtain ⟨v, hrun, hv, hcount⟩ := ih hgoes (by omega)
      exact ⟨v, (run_next hstep).trans hrun, hv, by omega⟩
    · have hidle := microStepsLeft_idle hdone.done.idle
      omega

/-- After as many steps as micro-steps are left the drain responds. -/
theorem run_done (h : SilentDrain s u) :
    ∃ t, Host.Core.run Sys2Proof.core (microStepsLeft u) u = .next t ∧ SilentDrainDone s t := by
  have hpos := h.left_pos
  obtain ⟨v, hrun, hv, hcount⟩ := h.run (microStepsLeft u - 1) (by omega)
  obtain ⟨t, hstep, hleft, hgoes | hdone⟩ := hv.step_next
  · have := hgoes.left_pos
    omega
  · refine ⟨t, ?_, hdone⟩
    rw [← Nat.sub_add_cancel hpos, run_add hrun]
    exact run_next hstep

end SilentDrain

/-- R140: with the other agents silent one step accepts the `DRAIN` to come. -/
theorem step_accepts_drain {w : Command} {rest : List Command} (hinv : Inv s) (hs : Silent s) (hb : s.eBusy = false)
    (hin : s.sIn = w :: rest) (hd : decode .sPort w = .command .drain) :
    step s = .next { s with sIn := rest, eBusy := true, eI := 0, ePhase := .l } := by
  have hnext := hs.nextAgent_scheduler hinv.constructed hb (by simp [hin])
  have haccepts : { s with sIn := rest }.accepts .sPort = true := (accepts_sPort_iff _).2 ⟨hinv.constructed, hb⟩
  calc step s
      = exec .drain { s with sIn := rest } := (stepRunsTheDecodedCommand s s w rest _ hinv.constructed).2 hnext hb hin hd
    _ = _ := drainStartsTheEngine _ haccepts

/-- The state that has accepted a `DRAIN` begins a silent drain. -/
theorem silentDrain_start (hinv : Inv s) (hsc : s.cfg.memOrder = .sc) (hs : Silent s) :
    SilentDrain s { s with eBusy := true, eI := 0, ePhase := .l } where
  inv := inv_execResult hinv .drain
  progress :=
    .of_drain hinv hsc (fun w hw => absurd hw (by simp [hs.pIn])) hs.inflight fun w hw => absurd hw (by simp [hs.pIn])
  kept := ⟨⟨hs.sched, hs.pIn, hs.inflight⟩, rfl, rfl, rfl, rfl⟩
  sOut := rfl

/-- Settles O24: the step that accepts the `DRAIN`, then the run of a silent drain. -/
theorem drainCompletesAfterItsMicroSteps : Obligations.DrainCompletesAfterItsMicroSteps := by
  intro s w rest hinv hsc hsched hpIn hf hb hin hd
  have hsilent : Silent s := ⟨hsched, hpIn, hf⟩
  have haccept := step_accepts_drain hinv hsilent hb hin hd
  have hdrain := silentDrain_start (s := { s with sIn := rest }) (inv_environment hinv _ _ _ _ _ _ _) hsc
    ⟨hsched, hpIn, hf⟩
  refine ⟨fun n hn => ?busy, ?done⟩
  case busy =>
    obtain ⟨u, hrun, hu, -⟩ := hdrain.run n hn
    exact ⟨u, (run_next haccept).trans hrun, hu.progress.busy⟩
  case done =>
    obtain ⟨t, hrun, hdone, hkept, hresp⟩ := hdrain.run_done
    exact ⟨t, (run_next haccept).trans hrun, hdone.idle, hdone.rcur, hdone.out, hkept.wcur, hkept.sample,
      hkept.silent.pIn, hkept.pOut, hkept.sIn, hresp⟩

/-! ### A drain in a fair run -/

/-- R147: a step during a drain takes a micro-step exactly when the engine moves, and ends the drain only with the
response `(1, 1)`. -/
theorem step_counts (hinv : Inv s) (hb : s.eBusy = true) (h : step s = .next t) :
    (movesNext s = some .engine ∧ microStepsLeft t + 1 = microStepsLeft s ∧
      (t.eBusy = false → t.sOut = { ok := true, data := 1 } :: s.sOut)) ∨
    (movesNext s ≠ some .engine ∧ microStepsLeft t = microStepsLeft s) := by
  cases hn : nextAgent s with
  | none =>
    simp only [step, hn] at h
    cases h
    exact .inr ⟨by simp [movesNext, hn], rfl⟩
  | some p =>
    obtain ⟨a, u⟩ := p
    have hmove : movesNext s = some a := by simp [movesNext, hn]
    rw [step_of_nextAgent hn] at h
    obtain ⟨sc, cs, d, rfl⟩ := nextAgent_frame hn
    by_cases ha : a = .engine
    · subst ha
      obtain ⟨t', ht', hleft⟩ := turn_engine_counts (inv_environment hinv _ _ _ _ sc cs d) hb
      cases ht'.symm.trans h
      exact .inl ⟨hmove, hleft, fun hidle => by simpa [hb, hidle] using turnResult_engine_sOut (turn_cases h)⟩
    · have hleft := turn_other_counts (s := { s with sched := sc, choices := cs, drawn := d }) hinv.constructed hb ha h
      exact .inr ⟨by simpa [hmove] using ha, hleft⟩

section
variable {m : Nat → Moves} {r : Nat → State}

theorem inv_infiniteRun (hrun : InfiniteRun m r) (h0 : Inv (r 0)) (n : Nat) : Inv (r n) := by
  induction n with
  | zero => exact h0
  | succ n ih => exact inv_step (inv_supply ih (m n)) (hrun n)

/-- `step_counts` along a run: what the environment adds is no part of the count. -/
theorem infiniteRun_counts (hrun : InfiniteRun m r) (h0 : Inv (r 0)) {n : Nat} (hb : (r n).eBusy = true) :
    (movesNext (supply (m n) (r n)) = some .engine ∧ microStepsLeft (r (n + 1)) + 1 = microStepsLeft (r n) ∧
      ((r (n + 1)).eBusy = false → (r (n + 1)).sOut = { ok := true, data := 1 } :: (r n).sOut)) ∨
    (movesNext (supply (m n) (r n)) ≠ some .engine ∧ microStepsLeft (r (n + 1)) = microStepsLeft (r n)) :=
  step_counts (s := supply (m n) (r n)) (inv_supply (inv_infiniteRun hrun h0 n) (m n)) hb (hrun n)

/-- A step of a run that ends a drain answers `(1, 1)`. -/
theorem infiniteRun_response (hrun : InfiniteRun m r) (h0 : Inv (r 0)) {n : Nat} (hb : (r n).eBusy = true)
    (hidle : (r (n + 1)).eBusy = false) : (r (n + 1)).sOut = { ok := true, data := 1 } :: (r n).sOut := by
  obtain ⟨-, -, hresp⟩ | ⟨-, hleft⟩ := infiniteRun_counts hrun h0 hb
  · exact hresp hidle
  · have hpos := microStepsLeft_pos (inv_infiniteRun hrun h0 n) hb
    rw [← hleft, microStepsLeft_idle hidle] at hpos
    exact absurd hpos (Nat.lt_irrefl 0)

/-- R214: in a run that is fair to the engine no drain goes on for ever: the micro-steps left never grow, so they would stay
the same from some point on, and the engine moves after it. -/
theorem fairRun_not_busy_forever (hrun : InfiniteRun m r) (h0 : Inv (r 0)) (hfair : EngineFair m r) (n : Nat) :
    ¬ ∀ k, n ≤ k → (r k).eBusy = true := by
  intro hbusy
  have hanti : Antitone fun i => microStepsLeft (r (n + i)) := antitone_nat_of_succ_le fun i => by
    have hcounts := infiniteRun_counts hrun h0 (hbusy (n + i) (Nat.le_add_right n i))
    change microStepsLeft (r (n + i + 1)) ≤ microStepsLeft (r (n + i))
    omega
  obtain ⟨i, hstays⟩ := WellFoundedLT.antitone_chain_condition hanti
  obtain ⟨k, hk, hmove⟩ := hfair (n + i) (hbusy (n + i) (Nat.le_add_right n i))
  obtain ⟨j, rfl⟩ := Nat.exists_eq_add_of_le (Nat.le_of_add_right_le hk)
  obtain ⟨-, hleft, -⟩ | ⟨hno, -⟩ := infiniteRun_counts hrun h0 (hbusy (n + j) (Nat.le_add_right n j))
  · have hj : microStepsLeft (r (n + i)) = microStepsLeft (r (n + j)) := hstays j (by omega)
    have hj' : microStepsLeft (r (n + i)) = microStepsLeft (r (n + j + 1)) := hstays (j + 1) (by omega)
    omega
  · exact hno hmove

end

/-- Settles O59: a drain that no step ended would go on for ever. -/
theorem fairRunsCompleteEveryDrain : Obligations.FairRunsCompleteEveryDrain := by
  intro m r hrun h0 hfair n hb
  by_contra hno
  refine fairRun_not_busy_forever hrun h0 hfair n fun k hk => ?_
  induction k, hk using Nat.le_induction with
  | base => exact hb
  | succ k hk ih =>
    exact Bool.of_not_eq_false fun hidle => hno ⟨k, hk, ih, hidle, infiniteRun_response hrun h0 ih hidle⟩

end Sys2Proof.Machine
end

section
/-! SUPPORT. The statements of the Producer's contract (spec/42_producer_contract.md): one push, command by command, and
several pushes, what they leave in the ring and that they conform. -/

namespace Sys2Proof.Machine

variable {s t : State}

/-! ### Runs -/

/-- A run keeps the invariant, as each of its steps does. -/
theorem inv_run {n : Nat} (hinv : Inv s) (hrun : Host.Core.run Sys2Proof.core n s = .next t) : Inv t := by
  induction n generalizing s with
  | zero => cases hrun; exact hinv
  | succ n ih =>
    cases hs : step s with
    | next u => rw [run_next hs] at hrun; exact ih (inv_step hinv hs) hrun
    | fault f => rw [run_fault hs] at hrun; cases hrun
    | refused r => rw [run_refused hs] at hrun; cases hrun

/-! ### One push -/

/-- R80, R89: the Producer, scheduled next with an encoded P-port command to issue, performs that command. -/
theorem step_pPort_command {i : Instr} {rest : List Command} {agents : List Agent} (hi : i.port = .pPort)
    (hinv : Inv s) (hf : s.inflight = none) (hs : s.sched = .producer :: agents) (hp : s.pIn = encode i :: rest) :
    step s = exec i { s with sched := agents, pIn := rest } :=
  (stepRunsTheDecodedCommand s _ _ rest i hinv.constructed).1 (nextAgent_listed hs) hf hp (hi ▸ decode_encode i)

/-- R114: the Producer, scheduled next with a `WCLD` to issue, is answered `WCUR`. -/
theorem step_wcld {rest : List Command} {agents : List Agent} (hinv : Inv s) (hsc : s.cfg.memOrder = .sc)
    (hf : s.inflight = none) (hs : s.sched = .producer :: agents) (hp : s.pIn = encode .wcld :: rest) :
    step s = .next { s with
      sched := agents
      pIn := rest
      pOut := { ok := true, data := s.wcur } :: s.pOut } :=
  (step_pPort_command rfl hinv hf hs hp).trans
    (wcldLoadsTheWriteCursor _ ((accepts_pPort_iff _).2 ⟨hinv.constructed, hf⟩) hsc)

/-- R115: the Producer, scheduled next with a `WCST` in range to issue, replaces `WCUR`. -/
theorem step_wcst {index : Word} {rest : List Command} {agents : List Agent} (hinv : Inv s)
    (hsc : s.cfg.memOrder = .sc) (hf : s.inflight = none) (hi : index.toNat < Config.C)
    (hs : s.sched = .producer :: agents) (hp : s.pIn = encode (.wcst index) :: rest) :
    step s = .next { s with
      sched := agents
      pIn := rest
      wcur := index
      pOut := { ok := true, data := 0 } :: s.pOut } :=
  (step_pPort_command rfl hinv hf hs hp).trans
    (wcstStoresTheWriteCursor _ index ((accepts_pPort_iff _).2 ⟨hinv.constructed, hf⟩) hsc hi)

/-- Settles O56: `step_wcld`, `step_sst` and `step_wcst`, one after another. -/
theorem pushWritesThenAdvances : Obligations.PushWritesThenAdvances := by
  intro s v rest agents hinv hsc ht hf hp hs
  have hload := step_wcld hinv hsc hf hs hp
  have hloaded := inv_step hinv hload
  have hwrite := step_sst hloaded hsc ht hinv.wcur_lt rfl rfl
  have hadvance := step_wcst (inv_step hloaded hwrite) hsc hf (nextIndex_lt s.wcur) rfl rfl
  rw [run_next hload, run_next hwrite, run_next hadvance]
  rfl

/-! ### What several pushes leave in the ring -/

/-- The sample array after the values `vs` are written one slot after another from slot `w` (R162). -/
def fillSlots (erased : Option Word) (w : Word) : List Word → Memory → Memory
  | [], m => m
  | v :: vs, m => fillSlots erased (nextIndex w) vs (memSet erased w.toNat v m)

/-- The `j`-th slot from the next one is the `j + 1`-st from this one. -/
theorem slot_from_nextIndex (w : Word) (j : Nat) :
    ((nextIndex w).toNat + j) % Config.C = (w.toNat + (j + 1)) % Config.C := by
  rw [nextIndex_toNat, Nat.mod_add_mod, Nat.add_assoc, Nat.add_comm 1]

section
variable {m : Memory} (hwf : memWf (sampleErased s.cfg) Config.C m = true)
include hwf

/-- `sampleCell_write`, for a sample array given by what the write makes of it. -/
theorem sampleCell_set (k : Nat) (v : Word) (j : Nat) :
    { s with sample := memSet (sampleErased s.cfg) k v m }.sampleCell j =
      if j = k then v else { s with sample := m }.sampleCell j := by
  rw [← sampleCell_write (s := { s with sample := m }) hwf .producer]
  apply sampleCell_congr
  · rw [sampleWrite_sample]
  · rw [sampleWrite_cfg]

/-- Filling slots leaves every other slot as it was. -/
theorem sampleCell_fillSlots_other {w : Word} (hw : w.toNat < Config.C) {vs : List Word} {k : Nat}
    (hk : ∀ j, j < vs.length → k ≠ (w.toNat + j) % Config.C) :
    { s with sample := fillSlots (sampleErased s.cfg) w vs m }.sampleCell k = { s with sample := m }.sampleCell k := by
  induction vs generalizing m w with
  | nil => rfl
  | cons v vs ih =>
    have hkw : k ≠ w.toNat := Nat.mod_eq_of_lt hw ▸ hk 0 (Nat.succ_pos _)
    have hlater : ∀ j, j < vs.length → k ≠ ((nextIndex w).toNat + j) % Config.C := fun j hj =>
      slot_from_nextIndex w j ▸ hk (j + 1) (Nat.succ_lt_succ hj)
    rw [fillSlots, ih (memWf_set hw hwf) (nextIndex_lt w) hlater, sampleCell_set hwf, if_neg hkw]

/-- Of the values that fill the slots, each of the last `C` stands in its slot: the ones after it reach the other slots. -/
theorem sampleCell_fillSlots {w : Word} (hw : w.toNat < Config.C) {vs : List Word} {j : Nat} (hj : j < vs.length)
    (hlast : vs.length ≤ j + Config.C) :
    { s with sample := fillSlots (sampleErased s.cfg) w vs m }.sampleCell ((w.toNat + j) % Config.C) = vs[j] := by
  induction vs generalizing m w j with
  | nil => exact absurd hj (Nat.not_lt_zero j)
  | cons v vs ih =>
    have hwritten := memWf_set (v := v) hw hwf
    rw [List.length_cons] at hj hlast
    cases j with
    | zero =>
      have hlater : ∀ i, i < vs.length → w.toNat ≠ ((nextIndex w).toNat + i) % Config.C := fun i hi =>
        slot_from_nextIndex w i ▸ (add_mod_capacity_ne (Nat.succ_pos i) (by omega)).symm
      rw [Nat.add_zero, Nat.mod_eq_of_lt hw, fillSlots,
        sampleCell_fillSlots_other hwritten (nextIndex_lt w) hlater, sampleCell_set hwf, if_pos rfl]
      rfl
    | succ j =>
      rw [← slot_from_nextIndex]
      exact ih hwritten (nextIndex_lt w) (by omega) (by omega)

end

/-! ### Several pushes -/

/-- R165: the commands of pushing the values `vs`, performed in turn: the slots from `WCUR` on are filled, `WCUR` advances
once a value, and each command is answered with `ok = 1`. -/
theorem run_pushAll {vs : List Word} {rest : List Command} {agents : List Agent} (hinv : Inv s)
    (hsc : s.cfg.memOrder = .sc) (ht : s.cfg.sampleTearing = false) (hp : s.pIn = (pushAll s.wcur vs).map encode ++ rest)
    (hs : s.sched = List.replicate (3 * vs.length) .producer ++ agents) :
    ∃ rs, Host.Core.run Sys2Proof.core (3 * vs.length) s = .next { s with
        sample := fillSlots (sampleErased s.cfg) s.wcur vs s.sample
        wcur := nextIndex^[vs.length] s.wcur
        pOut := rs ++ s.pOut
        pIn := rest
        sched := agents } ∧
      rs.length = 3 * vs.length ∧ ∀ r ∈ rs, r.ok = true := by
  induction vs generalizing s with
  | nil =>
    refine ⟨[], ?_, rfl, fun r hr => absurd hr List.not_mem_nil⟩
    change s.pIn = rest at hp
    change s.sched = agents at hs
    subst hp hs
    rfl
  | cons v vs ih =>
    have hlater : (pushAll s.wcur (v :: vs)).map encode ++ rest =
        (pushCommands s.wcur v).map encode ++ ((pushAll (nextIndex s.wcur) vs).map encode ++ rest) := by
      rw [pushAll, List.map_append, List.append_assoc]
    have hturns : s.sched = .producer :: .producer :: .producer ::
        (List.replicate (3 * vs.length) .producer ++ agents) := by
      rw [hs, List.length_cons, Nat.mul_succ]
      rfl
    have hpush := pushWritesThenAdvances s v _ _ hinv hsc ht (inflight_none_of_whole hinv ht) (hp.trans hlater) hturns
    obtain ⟨rs, hrun, hlen, hok⟩ := ih (inv_run hinv hpush) hsc ht rfl rfl
    refine ⟨rs ++ [performed 0, performed 0, performed s.wcur], ?run, ?length, ?ok⟩
    case run =>
      rw [List.length_cons, Nat.mul_succ, Nat.add_comm, run_add hpush, hrun, List.append_assoc]
      rfl
    case length => rw [List.length_append, hlen]; rfl
    case ok =>
      intro r hr
      rcases List.mem_append.1 hr with hr | hr
      · exact hok r hr
      · simp only [List.mem_cons, List.not_mem_nil, or_false] at hr
        rcases hr with rfl | rfl | rfl <;> rfl

/-- R161: pushes leave no sample to be advanced past, whatever the Producer has done before with none left. -/
theorem finished_pushAll (vs : List Word) {w : Word} (hw : w.toNat < Config.C) (loaded : Bool) (written : Nat) :
    Pace.finished (({ content := w, loaded := loaded, written := written, ahead := [] } : Pace).run (pushAll w vs)) =
      true := by
  induction vs generalizing w loaded written with
  | nil => rfl
  | cons v vs ih =>
    rw [pushAll, paceRun_append, paceRun_push w v loaded written hw]
    exact ih (nextIndex_lt w) true (written + 1)

/-- Settles O57: `run_pushAll`, with what it leaves read off the filled slots, and `finished_pushAll`. -/
theorem pushesFillTheRing : Obligations.PushesFillTheRing := by
  intro s vs rest agents hinv hsc ht _ hp hs
  obtain ⟨rs, hrun, hlen, hok⟩ := run_pushAll hinv hsc ht hp hs
  have hw := hinv.wcur_lt
  have hwf := hinv.sample_wf
  refine ⟨⟨_, rs, hrun, iterate_nextIndex_toNat hw _, ?last, ?other, rfl, hlen, hok⟩, finished_pushAll vs hw false 0⟩
  case last => exact fun j hj hlast => sampleCell_fillSlots hwf hw hj hlast
  case other => exact fun k hk => sampleCell_fillSlots_other hwf hw hk

end Sys2Proof.Machine
end

section
/-! SUPPORT. The statements of the exceptional paths (spec/60_exceptions.md): the occupancy estimate, the final states, and
what a run does after its end. -/

namespace Sys2Proof.Machine

variable {s t u : State}

/-! ### The occupancy estimate -/

/-- Settles O43: adding `C` keeps the natural subtraction from stopping at 0, and the remainder drops it again. -/
theorem occupancyEstimateIsTheDifferenceModC : Obligations.OccupancyEstimateIsTheDifferenceModC := by
  intro w r _ hr
  have hle : r.toNat ≤ w.toNat + Config.C := hr.le.trans (Nat.le_add_left ..)
  refine ⟨?difference, Nat.mod_lt _ (Nat.zero_lt_of_lt hr)⟩
  case difference =>
    calc (occupancyEstimate w r : Int)
        = ((w.toNat : Int) + Config.C - r.toNat) % Config.C := by
          rw [occupancyEstimate, Int.natCast_mod, Nat.cast_sub hle, Nat.cast_add]
      _ = ((w.toNat : Int) - r.toNat) % Config.C := by rw [add_sub_right_comm, Int.add_emod_right]

/-! ### Final states -/

/-- R194, R216: each agent's work to do is one of the conditions of `Final`. -/
theorem final_iff_none_enabled : Final s ↔ s.constructed = true ∧ enabledAgents s = [] := by
  unfold Final
  refine and_congr_right fun hc => ?_
  cases hb : s.eBusy <;> simp [enabledAgents, hc, hb, and_left_comm, and_comm]

/-- In a final state every turn passes; a second reset answers no next state (R201). -/
theorem turn_final {a : Agent} (hf : Final s) (h : turn a s = .next t) : t = s := by
  obtain ⟨hc, hp, hs, hi, hb⟩ := hf
  cases a with
  | producer => cases (turn_producer_passes hc hi hp).symm.trans h; rfl
  | scheduler => cases (turn_scheduler_passes hc hb hs).symm.trans h; rfl
  | engine => cases (turn_engine_passes hc hb).symm.trans h; rfl
  | reset => exact nomatch (turn_reset_refused hc).symm.trans h

/-! ### After the end of a run -/

/-- `t` is `s` but for the schedule and the choices. -/
def HeldFrom (s t : State) : Prop := t = { s with sched := t.sched, choices := t.choices, drawn := t.drawn }

namespace HeldFrom

theorem refl (s : State) : HeldFrom s s := rfl

theorem trans (h : HeldFrom s t) (h' : HeldFrom t u) : HeldFrom s u := by
  unfold HeldFrom at *
  rw [h', h]

theorem final (h : HeldFrom s t) (hf : Final s) : Final t := by
  rw [h]
  exact hf

end HeldFrom

/-- With no command to add, the environment adds turns and choices alone. -/
theorem heldFrom_supply {m : Moves} (hp : m.pMore = []) (hs : m.sMore = []) (s : State) : HeldFrom s (supply m s) := by
  simp [HeldFrom, supply, hp, hs]

/-- R194: a step from a final state holds the block. -/
theorem heldFrom_step (hf : Final s) (h : step s = .next t) : HeldFrom s t := by
  cases hn : nextAgent s with
  | none =>
    simp only [step, hn] at h
    cases h
    exact .refl s
  | some p =>
    obtain ⟨a, v⟩ := p
    rw [step_of_nextAgent hn] at h
    obtain ⟨sc, cs, d, rfl⟩ := nextAgent_frame hn
    cases turn_final (s := { s with sched := sc, choices := cs, drawn := d }) hf h
    rfl

/-- Once a run has ended, every later state is held from the final one, by induction on the steps since. -/
theorem heldFrom_end {m : Nat → Moves} {r : Nat → State} {n : Nat} (hrun : InfiniteRun m r) (hend : EndsAt m r n)
    {k : Nat} (hk : n ≤ k) : HeldFrom (r n) (r k) := by
  obtain ⟨hf, hsilent⟩ := hend
  induction k, hk using Nat.le_induction with
  | base => exact .refl _
  | succ k hk ih =>
    obtain ⟨hp, hs⟩ := hsilent k hk
    have hsupplied := ih.trans (heldFrom_supply hp hs (r k))
    exact hsupplied.trans (heldFrom_step (hsupplied.final hf) (hrun k))

/-- Settles O41: `final_iff_none_enabled`, the idle step, and `heldFrom_end`. -/
theorem finalStatesHold : Obligations.FinalStatesHold :=
  ⟨fun _ => ⟨final_iff_none_enabled, fun hf hs => step_idle hs (final_iff_none_enabled.1 hf).2⟩,
    fun _ _ _ hrun hend _ hk => heldFrom_end hrun hend hk⟩

end Sys2Proof.Machine
end
